-- ==== Sys2Proof/Word.lean ====
section
/-! DEFINITION. The word of the machine: every register, memory cell, operand and instruction address is one
unsigned 8-bit value (spec/00_scope.md R4, R5; `W = AW = PCW = 8`). -/

namespace Sys2Proof

/-- The `W` = 8-bit unsigned word (00_scope.md R5): "value is always stored modulo 2^bit_width". -/
abbrev Byte := BitVec 8

end Sys2Proof
end

