-- ==== Sys2Proof/Config.lean ====
section
/-! DEFINITION. The parameters of the design and the values this hardware takes (spec/00_scope.md R4).
`OPCODE_MAP` is `Sys2Proof.opcodeOf` and `REGMAP` is `Sys2Proof.Machine.xreg?`: a table each, beside its only user. -/

namespace Sys2Proof.Config

/-- `W`: register, bus, ALU, memory-word and port-register width (R4). The encoding is defined for 8 only (92 D29). -/
abbrev width : Nat := 8

/-- `AW`: width of the memory address register; data memory has `2^AW` cells (R4, 20_memory.md R40). -/
abbrev addrWidth : Nat := 8

/-- `NPORTS`: number of ports (R4, 10_state.md R24). -/
abbrev numPorts : Nat := 2

/-- `MAXOPS`: most operands the encoding can carry (R4, 30_encoding.md R61). -/
abbrev maxOperands : Nat := 4

/-- `CARRY_STRICT`: false means `C = raw >= 2^W`, true means `C = raw > 2^W` (R4; 90 C1; 92 D12). -/
abbrev carryStrict : Bool := false

/-- `SOURCE_PRIMED`: the source hook runs once at reset (R4, 70_reset_and_hazards.md R206; 92 D15). -/
abbrev sourcePrimed : Bool := true

/-- `RESET_REG`: reset value of every register (R4, 10_state.md R30; 92 D14). -/
abbrev resetReg : Byte := 0

/-- `RESET_FLAG`: reset value of every flag (R4, 10_state.md R30; 92 D14). -/
abbrev resetFlag : Bool := false

end Sys2Proof.Config
end

