-- ==== Sys2Proof/Syntax.lean ====
section
/-! DEFINITION. The instructions: one constructor per row of spec/opcode_table.json, thirty supported forms of
twenty mnemonics (spec/30_encoding.md R66, R68). The letters after a name are the modes of the operands:
M memory-direct, I immediate, R register-direct. A register operand is the index byte as encoded (R63); that it
names one of the four registers is checked in WellFormed.lean and, by the machine, in the operand check
(41_control_unit.md R113). -/

namespace Sys2Proof

/-- One supported form of one of the twenty opcodes, with its operand bytes in encoding order (30_encoding.md R66). -/
inductive Instr where
  /-- NOP (41_control_unit.md R117). -/
  | nop
  /-- HLT (41_control_unit.md R118). -/
  | hlt
  /-- MOV R, I (42_mov.md R125). -/
  | movRI (dst src : Byte)
  /-- MOV R, M (42_mov.md R125). -/
  | movRM (dst src : Byte)
  /-- MOV M, I (42_mov.md R125). -/
  | movMI (dst src : Byte)
  /-- MOV M, M (42_mov.md R125). -/
  | movMM (dst src : Byte)
  /-- MOV I, I: the destination is an "immediate-addressed memory cell" (42_mov.md R125). -/
  | movII (dst src : Byte)
  /-- MOV I, M (42_mov.md R125). -/
  | movIM (dst src : Byte)
  /-- MOV4 M, I (42_mov.md R128). -/
  | mov4MI (dst src : Byte)
  /-- MOV4 M, M (42_mov.md R128). -/
  | mov4MM (dst src : Byte)
  /-- ADD1 R, I (43_arith.md R140). -/
  | add1RI (reg imm : Byte)
  /-- ADD M, M, M (43_arith.md R142). -/
  | addMMM (dst left right : Byte)
  /-- ADD M, M, I (43_arith.md R142). -/
  | addMMI (dst left right : Byte)
  /-- ADD M, I, M (43_arith.md R142). -/
  | addMIM (dst left right : Byte)
  /-- ADD M, I, I (43_arith.md R142). -/
  | addMII (dst left right : Byte)
  /-- SUB M, I, M (43_arith.md R145). -/
  | subMIM (dst left right : Byte)
  /-- CMP M, M (43_arith.md R147). -/
  | cmpMM (left right : Byte)
  /-- CMP R, I (43_arith.md R148). -/
  | cmpRI (left right : Byte)
  /-- SHL R, I (43_arith.md R150). -/
  | shlRI (reg amount : Byte)
  /-- SHR R, I (43_arith.md R151). -/
  | shrRI (reg amount : Byte)
  /-- INC R (43_arith.md R152). -/
  | incR (reg : Byte)
  /-- DEC R (43_arith.md R153). -/
  | decR (reg : Byte)
  /-- LD R, R: address register, data register (44_ldst_io.md R160). -/
  | ldRR (addrReg dstReg : Byte)
  /-- ST R, R: address register, data register (44_ldst_io.md R161). -/
  | stRR (addrReg srcReg : Byte)
  /-- IN I (44_ldst_io.md R164). -/
  | inI (port : Byte)
  /-- OUT I (44_ldst_io.md R165). -/
  | outI (port : Byte)
  /-- JE I (45_jumps.md R171). -/
  | jeI (target : Byte)
  /-- JNE I (45_jumps.md R172). -/
  | jneI (target : Byte)
  /-- JAE I (45_jumps.md R173). -/
  | jaeI (target : Byte)
  /-- JMP I (45_jumps.md R174). -/
  | jmpI (target : Byte)
  deriving DecidableEq, Repr

end Sys2Proof
end

