-- ==== Sys2Proof/WellFormed.lean ====
section
/-! DEFINITION. Well-formed instructions: every register-direct operand names a register and every port operand names
a device (spec/41_control_unit.md R113, spec/10_state.md R12, spec/44_ldst_io.md R166). Operand count and modes need
no check here: an `Instr` is one of the thirty forms of 30_encoding.md R68 by construction. -/

namespace Sys2Proof

/-- How many registers a register-direct operand can name (10_state.md R12: indices 0..3). -/
abbrev numNamedRegs : Nat := 4

/-- The register-direct operand values of an instruction. -/
def Instr.regOperands : Instr → List Byte
  | .nop => []
  | .hlt => []
  | .movRI dst _ => [dst]
  | .movRM dst _ => [dst]
  | .movMI _ _ => []
  | .movMM _ _ => []
  | .movII _ _ => []
  | .movIM _ _ => []
  | .mov4MI _ _ => []
  | .mov4MM _ _ => []
  | .add1RI reg _ => [reg]
  | .addMMM _ _ _ => []
  | .addMMI _ _ _ => []
  | .addMIM _ _ _ => []
  | .addMII _ _ _ => []
  | .subMIM _ _ _ => []
  | .cmpMM _ _ => []
  | .cmpRI left _ => [left]
  | .shlRI reg _ => [reg]
  | .shrRI reg _ => [reg]
  | .incR reg => [reg]
  | .decR reg => [reg]
  | .ldRR addrReg dstReg => [addrReg, dstReg]
  | .stRR addrReg srcReg => [addrReg, srcReg]
  | .inI _ => []
  | .outI _ => []
  | .jeI _ => []
  | .jneI _ => []
  | .jaeI _ => []
  | .jmpI _ => []

/-- The port operand values of an instruction. -/
def Instr.portOperands : Instr → List Byte
  | .nop => []
  | .hlt => []
  | .movRI _ _ => []
  | .movRM _ _ => []
  | .movMI _ _ => []
  | .movMM _ _ => []
  | .movII _ _ => []
  | .movIM _ _ => []
  | .mov4MI _ _ => []
  | .mov4MM _ _ => []
  | .add1RI _ _ => []
  | .addMMM _ _ _ => []
  | .addMMI _ _ _ => []
  | .addMIM _ _ _ => []
  | .addMII _ _ _ => []
  | .subMIM _ _ _ => []
  | .cmpMM _ _ => []
  | .cmpRI _ _ => []
  | .shlRI _ _ => []
  | .shrRI _ _ => []
  | .incR _ => []
  | .decR _ => []
  | .ldRR _ _ => []
  | .stRR _ _ => []
  | .inI port => [port]
  | .outI port => [port]
  | .jeI _ => []
  | .jneI _ => []
  | .jaeI _ => []
  | .jmpI _ => []

/-- Every register-direct operand value is 0..3 (10_state.md R12). -/
def Instr.regsNamed (i : Instr) : Bool := i.regOperands.all fun k => decide (k.toNat < numNamedRegs)

/-- Every port operand value is 0 or 1 (44_ldst_io.md R166). -/
def Instr.portsNamed (i : Instr) : Bool := i.portOperands.all fun p => decide (p.toNat < Config.numPorts)

/-- The instruction passes the control unit's operand check (41_control_unit.md R113). -/
def Instr.wf (i : Instr) : Bool := i.regsNamed && i.portsNamed

end Sys2Proof
end

