-- ==== Sys2Proof/Decode.lean ====
section
/-! DEFINITION. The instruction codec (spec/30_encoding.md R60 to R72): records of bytes, the Commands they decode to,
the dispatch of a Command to one of the supported forms, and the encoder. Decoding is total; what it rejects, it
rejects by name. -/

namespace Sys2Proof

/-- The twenty mnemonics (30_encoding.md R66). -/
inductive Mnemonic where
  | NOP | HLT | MOV | MOV4 | ADD1 | ADD | SUB | CMP | SHL | SHR | INC | DEC | LD | ST | IN | OUT | JE | JNE | JAE | JMP
  deriving DecidableEq, Repr

/-- The addressing mode of an operand (30_encoding.md R63). -/
inductive Mode where
  /-- memory-direct: the byte is a data-memory address -/
  | mem
  /-- immediate: the byte is a literal -/
  | imm
  /-- register-direct: the byte is a register index -/
  | reg
  deriving DecidableEq, Repr

/-- "`{addressing_mode, value: unsigned 8-bit}`" (10_state.md R20). -/
structure Operand where
  mode : Mode
  value : Byte
  deriving DecidableEq, Repr

/-- A decoded instruction: "`{opcode, ordered list of up to 4 operands, address}`" (10_state.md R20). The opcode is kept
as the byte it was encoded with, so that a Command with an unknown opcode can sit in the program (30_encoding.md R70). -/
structure Command where
  opcode : Byte
  operands : List Operand
  address : Byte
  deriving DecidableEq, Repr

/-- The sub-causes of `MalformedProgram` with their info (60_exceptions.md R181). -/
inductive MalformedCause where
  /-- the stream ends inside a record, at this byte offset (30_encoding.md R64) -/
  | truncatedRecord (offset : Nat)
  /-- the stream has no record (70_reset_and_hazards.md R204) -/
  | emptyProgram
  /-- a record's address is not greater than the previous one's (70_reset_and_hazards.md R204) -/
  | addressOrder (address : Byte)
  /-- the memory image has more than 256 words (70_reset_and_hazards.md R205) -/
  | imageTooLarge (length : Nat)
  /-- `pc` is not a key of `PROG` (41_control_unit.md R111) -/
  | missingInstruction (address : Byte)
  /-- the last instruction in file order neither jumped nor halted (41_control_unit.md R115) -/
  | noNextInstruction (address : Byte)
  deriving DecidableEq, Repr

/-- Why a Command is no executable instruction (30_encoding.md R70). -/
inductive Reject where
  /-- the opcode byte is not in `OPCODE_MAP` (41_control_unit.md R112) -/
  | unknownOpcode
  /-- operand count or modes are not among the opcode's supported forms (41_control_unit.md R113) -/
  | unsupportedOperand
  deriving DecidableEq, Repr

/-! ## Opcodes -/

/-- `OPCODE_MAP`: the opcode byte `OPC(X)` of mnemonic `X` (30_encoding.md R66). -/
def opcodeOf : Mnemonic → Byte
  | .NOP => 0x00
  | .HLT => 0x01
  | .MOV => 0x02
  | .MOV4 => 0x03
  | .ADD1 => 0x04
  | .ADD => 0x05
  | .SUB => 0x06
  | .CMP => 0x07
  | .SHL => 0x08
  | .SHR => 0x09
  | .INC => 0x0A
  | .DEC => 0x0B
  | .LD => 0x0C
  | .ST => 0x0D
  | .IN => 0x0E
  | .OUT => 0x0F
  | .JE => 0x10
  | .JNE => 0x11
  | .JAE => 0x12
  | .JMP => 0x13

/-- All mnemonics, in the order of 30_encoding.md R66. -/
def allMnemonics : List Mnemonic :=
  [.NOP, .HLT, .MOV, .MOV4, .ADD1, .ADD, .SUB, .CMP, .SHL, .SHR, .INC, .DEC, .LD, .ST, .IN, .OUT, .JE, .JNE, .JAE, .JMP]

/-- The mnemonic an opcode byte selects, if any (41_control_unit.md R112). -/
def mnemonicOf (opcode : Byte) : Option Mnemonic := allMnemonics.find? fun m => opcodeOf m == opcode

/-- "If opcode is HLT or NOP, the record ends there": a record without a mode byte (30_encoding.md R61). -/
def isBare (opcode : Byte) : Bool := opcode == opcodeOf .NOP || opcode == opcodeOf .HLT

/-! ## Modes -/

/-- The 2-bit code of a mode (30_encoding.md R62). -/
def modeCode : Mode → BitVec 2
  | .mem => 0b01
  | .imm => 0b10
  | .reg => 0b11

/-- The mode a 2-bit field stands for; `00` is "none" (30_encoding.md R62). -/
def modeOf (code : BitVec 2) : Option Mode :=
  if code = 0b01 then some .mem
  else if code = 0b10 then some .imm
  else if code = 0b11 then some .reg
  else none

/-- The four fields `m0 m1 m2 m3` of a mode byte, most significant first (30_encoding.md R62). -/
def modeFields (modes : Byte) : List (BitVec 2) :=
  [modes.extractLsb' 6 2, modes.extractLsb' 4 2, modes.extractLsb' 2 2, modes.extractLsb' 0 2]

/-- The mode byte of an operand list: the code of operand `f` in field `f`, `00` in the fields past the last operand
(30_encoding.md R65). -/
def modeByte (ops : List Operand) : Byte :=
  let code (f : Nat) : BitVec 2 := match ops[f]? with
    | some o => modeCode o.mode
    | none => 0b00
  code 0 ++ code 1 ++ code 2 ++ code 3

/-! ## Decoding -/

/-- Reads one operand byte for each mode field up to the first "none" field (30_encoding.md R64). `offset` is the
position of the next byte in the stream. -/
def readOperands : List (BitVec 2) → Nat → List Byte → Except MalformedCause (List Operand × List Byte)
  | [], _, bytes => .ok ([], bytes)
  | field :: fields, offset, bytes =>
    match modeOf field with
    | none => .ok ([], bytes)
    | some mode =>
      match bytes with
      | [] => .error (.truncatedRecord offset)
      | value :: rest =>
        match readOperands fields (offset + 1) rest with
        | .error e => .error e
        | .ok (ops, rest') => .ok (⟨mode, value⟩ :: ops, rest')

/-- Reads one record and answers the Command and the rest of the stream (30_encoding.md R61, R64). -/
def readRecord (offset : Nat) : List Byte → Except MalformedCause (Command × List Byte)
  | [] => .error (.truncatedRecord offset)
  | [_] => .error (.truncatedRecord offset)
  | address :: opcode :: rest =>
    if isBare opcode then .ok (⟨opcode, [], address⟩, rest)
    else match rest with
      | [] => .error (.truncatedRecord (offset + 2))
      | modes :: rest' =>
        match readOperands (modeFields modes) (offset + 3) rest' with
        | .error e => .error e
        | .ok (ops, rest'') => .ok (⟨opcode, ops, address⟩, rest'')

/-- Decodes records until the stream is used up; every record takes at least two bytes, so a fuel of the stream's
length is never used up first (30_encoding.md R64). `total` is the length of the whole stream. -/
def decodeFrom (total : Nat) : Nat → List Byte → Except MalformedCause (List Command)
  | _, [] => .ok []
  | 0, bytes => .error (.truncatedRecord (total - bytes.length))
  | fuel + 1, bytes =>
    match readRecord (total - bytes.length) bytes with
    | .error e => .error e
    | .ok (cmd, rest) =>
      match decodeFrom total fuel rest with
      | .error e => .error e
      | .ok cmds => .ok (cmd :: cmds)

/-- The decoder: "a total function from byte sequences to either a list of Commands in file order or a
`MalformedProgram` fault" (30_encoding.md R64). -/
def decodeProgram (stream : List Byte) : Except MalformedCause (List Command) :=
  decodeFrom stream.length stream.length stream

/-! ## Dispatch to the supported forms -/

/-- The supported form of a mnemonic that an operand list makes, if it makes one (30_encoding.md R68, R69). -/
def formOf (m : Mnemonic) (ops : List Operand) : Option Instr :=
  match m with
  | .NOP => match ops with
    | [] => some .nop
    | _ => none
  | .HLT => match ops with
    | [] => some .hlt
    | _ => none
  | .MOV => match ops with
    | [⟨.reg, k⟩, ⟨.imm, v⟩] => some (.movRI k v)
    | [⟨.reg, k⟩, ⟨.mem, a⟩] => some (.movRM k a)
    | [⟨.mem, d⟩, ⟨.imm, v⟩] => some (.movMI d v)
    | [⟨.mem, d⟩, ⟨.mem, a⟩] => some (.movMM d a)
    | [⟨.imm, d⟩, ⟨.imm, v⟩] => some (.movII d v)
    | [⟨.imm, d⟩, ⟨.mem, a⟩] => some (.movIM d a)
    | _ => none
  | .MOV4 => match ops with
    | [⟨.mem, d⟩, ⟨.imm, v⟩] => some (.mov4MI d v)
    | [⟨.mem, d⟩, ⟨.mem, a⟩] => some (.mov4MM d a)
    | _ => none
  | .ADD1 => match ops with
    | [⟨.reg, k⟩, ⟨.imm, v⟩] => some (.add1RI k v)
    | _ => none
  | .ADD => match ops with
    | [⟨.mem, d⟩, ⟨.mem, l⟩, ⟨.mem, r⟩] => some (.addMMM d l r)
    | [⟨.mem, d⟩, ⟨.mem, l⟩, ⟨.imm, r⟩] => some (.addMMI d l r)
    | [⟨.mem, d⟩, ⟨.imm, l⟩, ⟨.mem, r⟩] => some (.addMIM d l r)
    | [⟨.mem, d⟩, ⟨.imm, l⟩, ⟨.imm, r⟩] => some (.addMII d l r)
    | _ => none
  | .SUB => match ops with
    | [⟨.mem, d⟩, ⟨.imm, l⟩, ⟨.mem, r⟩] => some (.subMIM d l r)
    | _ => none
  | .CMP => match ops with
    | [⟨.mem, l⟩, ⟨.mem, r⟩] => some (.cmpMM l r)
    | [⟨.reg, k⟩, ⟨.imm, v⟩] => some (.cmpRI k v)
    | _ => none
  | .SHL => match ops with
    | [⟨.reg, k⟩, ⟨.imm, n⟩] => some (.shlRI k n)
    | _ => none
  | .SHR => match ops with
    | [⟨.reg, k⟩, ⟨.imm, n⟩] => some (.shrRI k n)
    | _ => none
  | .INC => match ops with
    | [⟨.reg, k⟩] => some (.incR k)
    | _ => none
  | .DEC => match ops with
    | [⟨.reg, k⟩] => some (.decR k)
    | _ => none
  | .LD => match ops with
    | [⟨.reg, a⟩, ⟨.reg, t⟩] => some (.ldRR a t)
    | _ => none
  | .ST => match ops with
    | [⟨.reg, a⟩, ⟨.reg, t⟩] => some (.stRR a t)
    | _ => none
  | .IN => match ops with
    | [⟨.imm, p⟩] => some (.inI p)
    | _ => none
  | .OUT => match ops with
    | [⟨.imm, p⟩] => some (.outI p)
    | _ => none
  | .JE => match ops with
    | [⟨.imm, t⟩] => some (.jeI t)
    | _ => none
  | .JNE => match ops with
    | [⟨.imm, t⟩] => some (.jneI t)
    | _ => none
  | .JAE => match ops with
    | [⟨.imm, t⟩] => some (.jaeI t)
    | _ => none
  | .JMP => match ops with
    | [⟨.imm, t⟩] => some (.jmpI t)
    | _ => none

/-- Dispatch on the opcode byte, then the check of operand count and modes, in this order (41_control_unit.md R112,
R113; 60_exceptions.md R186). The check of register indices and port numbers is the meaning's own first act. -/
def classify (cmd : Command) : Except Reject Instr :=
  match mnemonicOf cmd.opcode with
  | none => .error .unknownOpcode
  | some m =>
    match formOf m cmd.operands with
    | none => .error .unsupportedOperand
    | some i => .ok i

/-! ## Encoding -/

/-- The mnemonic of an instruction (30_encoding.md R68). -/
def Instr.mnemonic : Instr → Mnemonic
  | .nop => .NOP
  | .hlt => .HLT
  | .movRI _ _ => .MOV
  | .movRM _ _ => .MOV
  | .movMI _ _ => .MOV
  | .movMM _ _ => .MOV
  | .movII _ _ => .MOV
  | .movIM _ _ => .MOV
  | .mov4MI _ _ => .MOV4
  | .mov4MM _ _ => .MOV4
  | .add1RI _ _ => .ADD1
  | .addMMM _ _ _ => .ADD
  | .addMMI _ _ _ => .ADD
  | .addMIM _ _ _ => .ADD
  | .addMII _ _ _ => .ADD
  | .subMIM _ _ _ => .SUB
  | .cmpMM _ _ => .CMP
  | .cmpRI _ _ => .CMP
  | .shlRI _ _ => .SHL
  | .shrRI _ _ => .SHR
  | .incR _ => .INC
  | .decR _ => .DEC
  | .ldRR _ _ => .LD
  | .stRR _ _ => .ST
  | .inI _ => .IN
  | .outI _ => .OUT
  | .jeI _ => .JE
  | .jneI _ => .JNE
  | .jaeI _ => .JAE
  | .jmpI _ => .JMP

/-- The operands of an instruction, in encoding order (30_encoding.md R66, R68). -/
def Instr.operands : Instr → List Operand
  | .nop => []
  | .hlt => []
  | .movRI k v => [⟨.reg, k⟩, ⟨.imm, v⟩]
  | .movRM k a => [⟨.reg, k⟩, ⟨.mem, a⟩]
  | .movMI d v => [⟨.mem, d⟩, ⟨.imm, v⟩]
  | .movMM d a => [⟨.mem, d⟩, ⟨.mem, a⟩]
  | .movII d v => [⟨.imm, d⟩, ⟨.imm, v⟩]
  | .movIM d a => [⟨.imm, d⟩, ⟨.mem, a⟩]
  | .mov4MI d v => [⟨.mem, d⟩, ⟨.imm, v⟩]
  | .mov4MM d a => [⟨.mem, d⟩, ⟨.mem, a⟩]
  | .add1RI k v => [⟨.reg, k⟩, ⟨.imm, v⟩]
  | .addMMM d l r => [⟨.mem, d⟩, ⟨.mem, l⟩, ⟨.mem, r⟩]
  | .addMMI d l r => [⟨.mem, d⟩, ⟨.mem, l⟩, ⟨.imm, r⟩]
  | .addMIM d l r => [⟨.mem, d⟩, ⟨.imm, l⟩, ⟨.mem, r⟩]
  | .addMII d l r => [⟨.mem, d⟩, ⟨.imm, l⟩, ⟨.imm, r⟩]
  | .subMIM d l r => [⟨.mem, d⟩, ⟨.imm, l⟩, ⟨.mem, r⟩]
  | .cmpMM l r => [⟨.mem, l⟩, ⟨.mem, r⟩]
  | .cmpRI k v => [⟨.reg, k⟩, ⟨.imm, v⟩]
  | .shlRI k n => [⟨.reg, k⟩, ⟨.imm, n⟩]
  | .shrRI k n => [⟨.reg, k⟩, ⟨.imm, n⟩]
  | .incR k => [⟨.reg, k⟩]
  | .decR k => [⟨.reg, k⟩]
  | .ldRR a t => [⟨.reg, a⟩, ⟨.reg, t⟩]
  | .stRR a t => [⟨.reg, a⟩, ⟨.reg, t⟩]
  | .inI p => [⟨.imm, p⟩]
  | .outI p => [⟨.imm, p⟩]
  | .jeI t => [⟨.imm, t⟩]
  | .jneI t => [⟨.imm, t⟩]
  | .jaeI t => [⟨.imm, t⟩]
  | .jmpI t => [⟨.imm, t⟩]

/-- The Command of an instruction placed at an instruction address. -/
def Instr.toCommand (address : Byte) (i : Instr) : Command := ⟨opcodeOf i.mnemonic, i.operands, address⟩

/-- A Command the format can carry: at most four operands, and none with HLT or NOP (30_encoding.md R65). -/
def Command.encodable (c : Command) : Bool :=
  decide (c.operands.length ≤ Config.maxOperands) && (!isBare c.opcode || c.operands.isEmpty)

/-- The encoder: the record of a Command (30_encoding.md R61, R65). -/
def encodeCommand (c : Command) : List Byte :=
  if isBare c.opcode then [c.address, c.opcode]
  else c.address :: c.opcode :: modeByte c.operands :: c.operands.map (·.value)

/-- The record of an instruction placed at an instruction address (30_encoding.md R65). -/
def encode (address : Byte) (i : Instr) : List Byte := encodeCommand (i.toCommand address)

/-! ## The opcode table's numbering -/

/-- Byte `n` of a number, byte 0 the least significant. -/
def byteOfNat (w n : Nat) : Byte := BitVec.ofNat 8 (w >>> (8 * n))

/-- The bytes of an instruction after its address byte, from a number whose bits are those of `spec/opcode_table.json`:
the first word is the opcode byte alone for an 8-bit row (format F0) and `opcode ++ modes` (opcode in bits 15..8, R72)
for a 16-bit row; operand bytes count on from bit 16. Bits at and above `nbits` are 0, up to the longest record. -/
def tableBytes (nbits w : Nat) : List Byte :=
  let v := w % 2 ^ nbits
  if nbits ≤ 8 then [byteOfNat v 0, 0, 0, 0, 0, 0]
  else [byteOfNat v 1, byteOfNat v 0, byteOfNat v 2, byteOfNat v 3, byteOfNat v 4, byteOfNat v 5]

/-- The Command the decoder reads from those bytes placed at an instruction address. -/
def tableCommand (address : Byte) (nbits w : Nat) : Option Command :=
  match readRecord 0 (address :: tableBytes nbits w) with
  | .ok (cmd, _) => some cmd
  | .error _ => none

/-- The instruction the decoder reads from a word numbered as `spec/opcode_table.json` numbers it. -/
def decodeTableWord (nbits w : Nat) : Option Instr :=
  match tableCommand 0 nbits w with
  | none => none
  | some cmd =>
    match classify cmd with
    | .ok i => some i
    | .error _ => none

end Sys2Proof
end

