-- ==== Sys2Proof/Machine/State.lean ====
section
/-! DEFINITION. The state of one core (spec/10_state.md R10): fourteen bus registers with their enable signals, the bus
value, four flags, data memory, the decoded program, the control unit's pc, run state and instruction count, and the
two port devices. Plain data throughout. -/

namespace Sys2Proof.Machine

/-- The fourteen datapath registers, in bus registration order (10_state.md R11, R17). -/
inductive RegName where
  | ac | br | cr | ior | sar | tar | dar | mar | mdr | lop | rop | res | pr0 | pr1
  deriving DecidableEq, Repr

/-- A register: "`{name, bit_width, value, output_enable, input_enable}`" (10_state.md R13); name and width are fixed. -/
structure Register where
  value : Byte
  outputEnable : Bool
  inputEnable : Bool
  deriving DecidableEq, Repr

/-- The register set, one field per register of 10_state.md R11. -/
structure RegFile where
  ac : Register
  br : Register
  cr : Register
  ior : Register
  sar : Register
  tar : Register
  dar : Register
  mar : Register
  mdr : Register
  lop : Register
  rop : Register
  res : Register
  pr0 : Register
  pr1 : Register
  deriving DecidableEq, Repr

/-- The four ALU flags: negative, zero, signed overflow, carry (10_state.md R15). -/
structure Flags where
  n : Bool
  z : Bool
  v : Bool
  c : Bool
  deriving DecidableEq, Repr

/-- The faults of the hardware with their info (60_exceptions.md R181). They are what `RUN` records; raising one is a
next state (60_exceptions.md R180). -/
inductive CoreFault where
  /-- F1, with its sub-cause (60_exceptions.md R182) -/
  | malformedProgram (cause : MalformedCause)
  /-- F2: operand count, modes, register index or port number outside the supported forms (60_exceptions.md R183) -/
  | unsupportedOperand (address opcode : Byte)
  /-- F3: the opcode byte is not in `OPCODE_MAP` (60_exceptions.md R184) -/
  | unknownOpcode (address opcode : Byte)
  /-- F4: a register was given a negative value; no instruction reaches it (60_exceptions.md R185) -/
  | negativeRegisterAssignment
  deriving DecidableEq, Repr

/-- `RUN`, the control unit's run state (10_state.md R21). -/
inductive RunState where
  | running
  | halted
  | faulted (f : CoreFault)
  deriving DecidableEq, Repr

/-- Data memory: the cells that do not read 0, by rising address (10_state.md R19, "sparse mapping address -> word"). -/
abbrev Memory := List Host.Cell

/-- Why a step has no next state. A fault OF THE HARDWARE is none of these: it is recorded in `RUN` by a next state. -/
inductive Fault where
  /-- Raised by `step` alone, in a core that HLT has halted: "In a terminal state no step is taken" (10_state.md R21).
  Safe: the model stops where the hardware takes no step. -/
  | runHalted
  /-- Raised by `step` alone, in a core whose run has ended in this fault: "no step is ever taken again"
  (60_exceptions.md R180). Safe: the model stops where the hardware takes no step. -/
  | runFaulted (f : CoreFault)
  deriving DecidableEq, Repr

/-- What the model gives no meaning to. -/
inductive Refusal where
  /-- An instruction without a meaning, by its mnemonic. Raised by no arm of `exec`: every instruction has its meaning.
  Safe: the model would stop where the hardware goes on. -/
  | notModelled (mnemonic : String)
  deriving DecidableEq, Repr

/-- The complete state of one core (10_state.md R10). -/
structure State where
  /-- the fourteen registers with their signals (R11, R13) -/
  regs : RegFile
  /-- the bus's transient value (R17) -/
  bus : Byte
  /-- N, Z, V, C (R15) -/
  flags : Flags
  /-- data memory `M` (R19) -/
  mem : Memory
  /-- `PROG`, the Commands in file order, each under its own address; `ORDER` is their list of addresses (R20) -/
  prog : List Command
  /-- `current_address` (R14) -/
  pc : Byte
  /-- `RUN` (R21) -/
  run : RunState
  /-- `ICNT` (R22) -/
  icnt : Nat
  /-- `INBUF`, the source's input sequence of code points (R26) -/
  inbuf : List Nat
  /-- `CUR`, the source's cursor (R26) -/
  cur : Nat
  /-- `OUTLOG`, the sink's output log of character codes (R28) -/
  outlog : List Byte
  deriving DecidableEq, Repr

/-- A register at reset: `RESET_REG`, both signals false (10_state.md R30). -/
def Register.reset : Register := ⟨Config.resetReg, false, false⟩

/-- All registers at reset (10_state.md R30). -/
def RegFile.reset : RegFile :=
  ⟨.reset, .reset, .reset, .reset, .reset, .reset, .reset, .reset, .reset, .reset, .reset, .reset, .reset, .reset⟩

/-- The flags at reset (10_state.md R30). -/
def Flags.reset : Flags := ⟨Config.resetFlag, Config.resetFlag, Config.resetFlag, Config.resetFlag⟩

/-- A core with nothing loaded: registers, flags, counters and logs at their reset values, no program, no image, no
input. `Sys2Proof.Machine.construct` loads it. DESIGN CHOICE (notes/assumptions/2.md, 5.md): the bus value and `pc` are 0. -/
def State.blank (run : RunState) : State :=
  { regs := .reset, bus := 0, flags := .reset, mem := [], prog := [], pc := 0, run, icnt := 0, inbuf := [], cur := 0,
    outlog := [] }

/-- The core right after reset with nothing passed in: the spec's `reset` of an empty stream, an empty image and an empty
input (70_reset_and_hazards.md R200, R204), which is `Faulted(MalformedProgram, EmptyProgram)`. A core with a program is
`construct stream image input`. DEDUCED, DESIGN CHOICE: see notes/assumptions/1.md. -/
def State.reset : State := .blank (.faulted (.malformedProgram .emptyProgram))

end Sys2Proof.Machine
end

