-- ==== Sys2Proof/Machine/Ops.lean ====
section
/-! DEFINITION. The micro-operations of the datapath (spec/40_datapath_alu.md R80 to R87, spec/20_memory.md R42, R43),
the device hooks (spec/10_state.md R27, R28), and what the control unit does around an instruction: raising a fault
(spec/60_exceptions.md R180), fetching (spec/41_control_unit.md R111), counting and transferring control (R114 to R116).
The ALU is in Flags.lean. -/

namespace Sys2Proof.Machine

/-! ## Registers -/

/-- The record of a register. -/
def RegFile.get (f : RegFile) : RegName → Register
  | .ac => f.ac
  | .br => f.br
  | .cr => f.cr
  | .ior => f.ior
  | .sar => f.sar
  | .tar => f.tar
  | .dar => f.dar
  | .mar => f.mar
  | .mdr => f.mdr
  | .lop => f.lop
  | .rop => f.rop
  | .res => f.res
  | .pr0 => f.pr0
  | .pr1 => f.pr1

/-- Replaces the record of a register. -/
def RegFile.put (f : RegFile) (x : Register) : RegName → RegFile
  | .ac => { f with ac := x }
  | .br => { f with br := x }
  | .cr => { f with cr := x }
  | .ior => { f with ior := x }
  | .sar => { f with sar := x }
  | .tar => { f with tar := x }
  | .dar => { f with dar := x }
  | .mar => { f with mar := x }
  | .mdr => { f with mdr := x }
  | .lop => { f with lop := x }
  | .rop => { f with rop := x }
  | .res => { f with res := x }
  | .pr0 => { f with pr0 := x }
  | .pr1 => { f with pr1 := x }

/-- The record of a register of the core. -/
def State.reg (s : State) (r : RegName) : Register := s.regs.get r

/-- Replaces the record of a register of the core. -/
def State.putReg (s : State) (r : RegName) (x : Register) : State := { s with regs := s.regs.put x r }

/-- `get`: the value of a register (40_datapath_alu.md R80). -/
def State.val (s : State) (r : RegName) : Byte := (s.reg r).value

/-- `set(R, v)`: the control unit loads a register with a `W`-bit constant; no signal, no other register and no flag
changes (40_datapath_alu.md R82). -/
def setReg (r : RegName) (v : Byte) (s : State) : State := s.putReg r { s.reg r with value := v }

/-- `open_out` (40_datapath_alu.md R80). -/
def openOut (r : RegName) (s : State) : State := s.putReg r { s.reg r with outputEnable := true }

/-- `close_out` (40_datapath_alu.md R80). -/
def closeOut (r : RegName) (s : State) : State := s.putReg r { s.reg r with outputEnable := false }

/-- `open_in` (40_datapath_alu.md R80). -/
def openIn (r : RegName) (s : State) : State := s.putReg r { s.reg r with inputEnable := true }

/-- `close_in` (40_datapath_alu.md R80). -/
def closeIn (r : RegName) (s : State) : State := s.putReg r { s.reg r with inputEnable := false }

/-! ## The other fields -/

/-- Replaces the bus value. -/
def setBus (v : Byte) (s : State) : State := { s with bus := v }

/-- Replaces the flags. -/
def setFlags (f : Flags) (s : State) : State := { s with flags := f }

/-- Replaces data memory. -/
def setMem (m : Memory) (s : State) : State := { s with mem := m }

/-- `pc <- t` (41_control_unit.md R110). -/
def setPc (a : Byte) (s : State) : State := { s with pc := a }

/-- `RUN <- x` (41_control_unit.md R110). -/
def setRun (x : RunState) (s : State) : State := { s with run := x }

/-- `ICNT <- ICNT + 1` (41_control_unit.md R116). -/
def countStep (s : State) : State := { s with icnt := s.icnt + 1 }

/-- `CUR <- n` (10_state.md R27). -/
def setCur (n : Nat) (s : State) : State := { s with cur := n }

/-- `OUTLOG <- OUTLOG ++ [v]` (10_state.md R28). -/
def appendLog (v : Byte) (s : State) : State := { s with outlog := s.outlog ++ [v] }

/-! ## The bus -/

/-- `BUSORDER`: the registration order of the registers on the bus (10_state.md R11, R17). -/
def busOrder : List RegName :=
  [.ac, .br, .cr, .ior, .sar, .tar, .dar, .mar, .mdr, .lop, .rop, .res, .pr0, .pr1]

/-- The register that drives the bus: the first, in registration order, with its output enabled (40_datapath_alu.md R84). -/
def busDriver (s : State) : Option RegName := busOrder.find? fun r => (s.reg r).outputEnable

/-- Assigns the bus value to one register if its input is enabled. -/
def latch (v : Byte) (s : State) (r : RegName) : State :=
  if (s.reg r).inputEnable then setReg r v s else s

/-- `transfer()`: the first register driving the bus gives it its value, and every register with its input enabled
latches it; with no driver nothing happens (40_datapath_alu.md R84, R85). -/
def transfer (s : State) : State :=
  match busDriver s with
  | none => s
  | some d => busOrder.foldl (latch (s.val d)) (setBus (s.val d) s)

/-- `move(S, Ds)`, the register-transfer primitive: open the source's output and the destinations' inputs, transfer once,
close them again (40_datapath_alu.md R86). -/
def moveAll (src : RegName) (dsts : List RegName) (s : State) : State :=
  let opened := dsts.foldl (fun t d => openIn d t) (openOut src s)
  dsts.foldl (fun t d => closeIn d t) (closeOut src (transfer opened))

/-- `move(S, D)` with a single destination, as every instruction uses it (40_datapath_alu.md R86). -/
def move (src dst : RegName) (s : State) : State := moveAll src [dst] s

/-- A register whose two signals are closed. -/
def Register.idle (x : Register) : Bool := !x.outputEnable && !x.inputEnable

/-- All 28 signals are false, as at every instruction boundary (10_state.md R13). -/
def State.busIdle (s : State) : Bool := busOrder.all fun r => (s.reg r).idle

/-! ## Data memory -/

/-- The cell at an address; a cell that is not listed reads 0 (20_memory.md R42). -/
def Memory.get (a : Nat) : Memory → Byte
  | [] => 0
  | (b, w) :: rest => if a = b then w else Memory.get a rest

/-- Writes a cell, keeping the listed cells in rising order and free of zeros (20_memory.md R43). -/
def Memory.put (a : Nat) (v : Byte) : Memory → Memory
  | [] => if v = 0 then [] else [(a, v)]
  | (b, w) :: rest =>
    if a < b then (if v = 0 then (b, w) :: rest else (a, v) :: (b, w) :: rest)
    else if a = b then (if v = 0 then rest else (a, v) :: rest)
    else (b, w) :: Memory.put a v rest

/-- The canonical form from an address on: rising addresses inside the address space, no listed zero. -/
def Memory.wfFrom (low : Nat) : Memory → Bool
  | [] => true
  | (a, v) :: rest => decide (low ≤ a) && decide (a < 2 ^ Config.addrWidth) && decide (v ≠ 0) && Memory.wfFrom (a + 1) rest

/-- The canonical form of data memory: equal memories are equal lists. -/
def Memory.wf (m : Memory) : Bool := Memory.wfFrom 0 m

/-- `MemRead(a, 1)`: the word at a data-memory address (20_memory.md R41). -/
def State.cell (s : State) (a : Byte) : Byte := Memory.get a.toNat s.mem

/-- `MemWrite(a, 1, v)` (20_memory.md R41). -/
def putCell (a v : Byte) (s : State) : State := setMem (Memory.put a.toNat v s.mem) s

/-- `mem_read()`: `MDR <- M[MAR]` (20_memory.md R42). -/
def memRead (s : State) : State := setReg .mdr (s.cell (s.val .mar)) s

/-- `mem_write()`: `M[MAR] <- MDR` (20_memory.md R43). -/
def memWrite (s : State) : State := putCell (s.val .mar) (s.val .mdr) s

/-- `MemRead(a, 4)`: the 32-bit value of four cells, low limb first, addresses mod 256 (20_memory.md R46). -/
def State.cell4 (s : State) (a : Byte) : Nat :=
  (s.cell a).toNat + 2 ^ 8 * (s.cell (a + 1)).toNat + 2 ^ 16 * (s.cell (a + 2)).toNat + 2 ^ 24 * (s.cell (a + 3)).toNat

/-! ## Port devices -/

/-- The two devices of the port table (10_state.md R24). -/
inductive Port where
  /-- port 0, the character source -/
  | source
  /-- port 1, the character sink -/
  | sink
  deriving DecidableEq, Repr

/-- `PR[p]`, the device register of a port (44_ldst_io.md R163). -/
def Port.reg : Port → RegName
  | .source => .pr0
  | .sink => .pr1

/-- `hook(0)`: load the next input character and advance the cursor, or 0 for ever once the input is used up
(10_state.md R27). -/
def sourceHook (s : State) : State :=
  match s.inbuf[s.cur]? with
  | none => setReg .pr0 0 s
  | some ch => setReg .pr0 (BitVec.ofNat Config.width ch) (setCur (s.cur + 1) s)

/-- `hook(1)`: append the sink register's character to the output log (10_state.md R28). -/
def sinkHook (s : State) : State := appendLog (s.val .pr1) s

/-- `hook(p)`, the post-access action of the device on a port. -/
def hook : Port → State → State
  | .source => sourceHook
  | .sink => sinkHook

/-! ## Faults -/

/-- `raise F(info)`, the hardware's one exceptional event: `RUN <- Faulted(F, info)`, and all other state stays exactly
as it was (60_exceptions.md R180). There is no handler and no return (R189). -/
def raise (f : CoreFault) (s : State) : State := setRun (.faulted f) s

/-- `raise UnsupportedOperand(address = pc, opcode)` (41_control_unit.md R113). -/
def raiseUnsupported (opcode : Byte) (s : State) : State := raise (.unsupportedOperand s.pc opcode) s

/-- `raise UnknownOpcode(address = pc, opcode)` (41_control_unit.md R112). -/
def raiseUnknown (opcode : Byte) (s : State) : State := raise (.unknownOpcode s.pc opcode) s

/-- `raise MalformedProgram(MissingInstruction, address = pc)` (41_control_unit.md R111). -/
def raiseMissing (s : State) : State := raise (.malformedProgram (.missingInstruction s.pc)) s

/-- What a Command that is no supported form raises (30_encoding.md R70). -/
def raiseReject (cmd : Command) : Reject → State → State
  | .unknownOpcode => raiseUnknown cmd.opcode
  | .unsupportedOperand => raiseUnsupported cmd.opcode

/-- `set(v)` of a register for any integer: it truncates mod `2^W`, and "fails only if v is negative", which is fault F4
(40_datapath_alu.md R81, 60_exceptions.md R185). -/
def assign (r : RegName) (v : Int) (s : State) : State :=
  if v < 0 then raise .negativeRegisterAssignment s
  else setReg r (BitVec.ofNat Config.width v.toNat) s

/-! ## The control unit -/

/-- `ORDER`: "the ordered list of addresses in file order" (10_state.md R20). -/
def State.order (s : State) : List Byte := s.prog.map (·.address)

/-- `fetch()`: the Command at `pc`, if the program has one (41_control_unit.md R111). -/
def fetch (s : State) : Option Command := s.prog.find? fun cmd => cmd.address == s.pc

/-- The address that follows another in a list of addresses, if both are there (41_control_unit.md R114). -/
def addressAfter (a : Byte) : List Byte → Option Byte
  | [] => none
  | b :: rest => if a = b then rest.head? else addressAfter a rest

/-- The address "immediately following the current one in program file order" (41_control_unit.md R114). -/
def State.nextAddress (s : State) : Option Byte := addressAfter s.pc s.order

/-- `advance()`: to the next address in file order, or `MalformedProgram(NoNextInstruction)` with `pc` unchanged
(41_control_unit.md R114, R115). -/
def advance (s : State) : State :=
  match s.nextAddress with
  | some a => setPc a s
  | none => raise (.malformedProgram (.noNextInstruction s.pc)) s

/-- The outcome of an instruction: "`Advance | JumpTo(address) | Halt`" (41_control_unit.md R110). -/
inductive Transfer where
  | advance
  | jumpTo (target : Byte)
  | halt
  deriving DecidableEq, Repr

/-- The control transfer at the end of a step (41_control_unit.md R110). -/
def transferControl : Transfer → State → State
  | .advance, s => advance s
  | .jumpTo target, s => setPc target s
  | .halt, s => setRun .halted s

/-- What an outcome of the machine is. -/
abbrev Result := Host.Outcome State Fault Refusal

/-- The end of an executed instruction: `ICNT <- ICNT + 1`, then the control transfer (41_control_unit.md R110, R116). -/
def complete (t : Transfer) (s : State) : Result := .next (transferControl t (countStep s))

/-- The end of an instruction whose operand check failed: no effect but the fault; it is not counted
(41_control_unit.md R113, R116). -/
def unsupported (m : Mnemonic) (s : State) : Result := .next (raiseUnsupported (opcodeOf m) s)

end Sys2Proof.Machine
end

