-- ==== Sys2Proof/Machine/Flags.lean ====
section
/-! DEFINITION. The ALU: its ten operations, the four flag functions and the flag masks (spec/40_datapath_alu.md R88 to
R99). AND and OR are reached by no opcode; they are part of the hardware all the same. -/

namespace Sys2Proof.Machine

/-- The ten ALU operations (40_datapath_alu.md R88). -/
inductive AluOp where
  | add | sub | and | or | incl | incr | decl | decr | shl | shr
  deriving DecidableEq, Repr

/-- A flag mask: "the subset of status flags an ALU operation is permitted to update" (00_scope.md R9). -/
structure FlagMask where
  n : Bool
  z : Bool
  v : Bool
  c : Bool
  deriving DecidableEq, Repr

/-- The default mask `NZVC` (40_datapath_alu.md R88). -/
def FlagMask.nzvc : FlagMask := ⟨true, true, true, true⟩

/-- The mask `NZV`. -/
def FlagMask.nzv : FlagMask := ⟨true, true, true, false⟩

/-- The mask `C`. -/
def FlagMask.onlyC : FlagMask := ⟨false, false, false, true⟩

/-- The effective mask: INCL, INCR, DECL, DECR force `NZV`, SHL and SHR force `C` (40_datapath_alu.md R90). -/
def effectiveMask : AluOp → FlagMask → FlagMask
  | .add, m => m
  | .sub, m => m
  | .and, m => m
  | .or, m => m
  | .incl, _ => .nzv
  | .incr, _ => .nzv
  | .decl, _ => .nzv
  | .decr, _ => .nzv
  | .shl, _ => .onlyC
  | .shr, _ => .onlyC

/-- `comp(v) = (2^W - v) mod 2^W`, the two's complement (00_scope.md R5). -/
def comp (v : Byte) : Byte := BitVec.ofNat Config.width (2 ^ Config.width - v.toNat)

/-- The carry function: `raw >= 2^W`, or `raw > 2^W` with `CARRY_STRICT` (40_datapath_alu.md R89). -/
def carry (raw : Nat) : Bool :=
  if Config.carryStrict then decide (raw > 2 ^ Config.width) else decide (raw ≥ 2 ^ Config.width)

/-- The sign bit of a word, bit `W-1` (00_scope.md R5). -/
def signBit (v : Byte) : Bool := v.getLsbD (Config.width - 1)

/-- `V`: the operands have equal sign bits and the result's differs (40_datapath_alu.md R89). -/
def overflow (a b r : Byte) : Bool := signBit a == signBit b && signBit r != signBit a

/-- What an operation computes from: the two operands of the flag rules and the untruncated result. -/
structure AluInputs where
  a : Byte
  b : Byte
  raw : Nat
  deriving DecidableEq, Repr

/-- Operands and untruncated result of each operation, from LOP, ROP and the carry flag (40_datapath_alu.md R91 to R98). -/
def aluInputs (op : AluOp) (l r : Byte) (c : Bool) : AluInputs :=
  match op with
  | .add => ⟨l, r, l.toNat + r.toNat + c.toNat⟩
  | .sub => ⟨l, comp r, l.toNat + (comp r).toNat⟩
  | .and => ⟨l, r, (l &&& r).toNat⟩
  | .or => ⟨l, r, (l ||| r).toNat⟩
  | .incl => ⟨l, 1, l.toNat + 1⟩
  | .incr => ⟨r, 1, r.toNat + 1⟩
  | .decl => ⟨l, comp 1, l.toNat + (comp 1).toNat⟩
  | .decr => ⟨r, comp 1, r.toNat + (comp 1).toNat⟩
  | .shl => ⟨l, r, l.toNat * 2 ^ r.toNat⟩
  | .shr => ⟨l, r, l.toNat / 2 ^ r.toNat⟩

/-- The stored result: the untruncated one mod `2^W` (40_datapath_alu.md R88). -/
def aluResult (op : AluOp) (l r : Byte) (c : Bool) : Byte := BitVec.ofNat Config.width (aluInputs op l r c).raw

/-- The flags after an operation: the masked ones computed, the rest kept (40_datapath_alu.md R88, R89). -/
def aluFlags (op : AluOp) (mask : FlagMask) (l r : Byte) (f : Flags) : Flags :=
  let x := aluInputs op l r f.c
  let res := aluResult op l r f.c
  let m := effectiveMask op mask
  { n := if m.n then signBit res else f.n
    z := if m.z then decide (res = 0) else f.z
    v := if m.v then overflow x.a x.b res else f.v
    c := if m.c then carry x.raw else f.c }

/-- `alu(op, mask)`: reads LOP, ROP and the carry flag, writes RES and the masked flags (40_datapath_alu.md R88). -/
def aluWith (op : AluOp) (mask : FlagMask) (s : State) : State :=
  setFlags (aluFlags op mask (s.val .lop) (s.val .rop) s.flags)
    (setReg .res (aluResult op (s.val .lop) (s.val .rop) s.flags.c) s)

/-- `alu(op)`: the default mask (40_datapath_alu.md R88). -/
def alu (op : AluOp) (s : State) : State := aluWith op .nzvc s

/-- `FLAGS.C <- 0`, the control unit's only explicit flag write (10_state.md R16). -/
def clearC (s : State) : State := setFlags { s.flags with c := false } s

end Sys2Proof.Machine
end

