-- ==== Sys2Proof/Machine/Operands.lean ====
section
/-! DEFINITION. Operand forms: the registers and devices operand bytes name (spec/10_state.md R12, R24), and the shared
micro-sequences by which bytes and limbs reach the datapath and leave it (spec/42_mov.md R125, spec/43_arith.md R142). -/

namespace Sys2Proof.Machine

/-- `REGMAP`: the register a register-direct operand names; 4 and more name none (10_state.md R12). -/
def xreg? (k : Byte) : Option RegName :=
  match k.toNat with
  | 0 => some .ac
  | 1 => some .br
  | 2 => some .cr
  | 3 => some .ior
  | _ => none

/-- The port table: 0 the source, 1 the sink, nothing else (10_state.md R24, 44_ldst_io.md R166). -/
def port? (p : Byte) : Option Port :=
  match p.toNat with
  | 0 => some .source
  | 1 => some .sink
  | _ => none

/-! ## Single bytes -/

/-- A memory cell reaches a register: `set(MAR, a) ; mem_read() ; move(MDR, dst)`. -/
def loadCell (a : Byte) (dst : RegName) (s : State) : State := move .mdr dst (memRead (setReg .mar a s))

/-- A register reaches a memory cell: `set(MAR, a) ; move(src, MDR) ; mem_write()`. -/
def storeCell (a : Byte) (src : RegName) (s : State) : State := memWrite (move src .mdr (setReg .mar a s))

/-- A cell reaches a register, its address taken from an address register: `move(ar, MAR) ; mem_read() ; move(MDR, dst)`. -/
def loadVia (ar dst : RegName) (s : State) : State := move .mdr dst (memRead (move ar .mar s))

/-- A register reaches a cell, its address taken from an address register: `move(ar, MAR) ; move(src, MDR) ; mem_write()`. -/
def storeVia (ar src : RegName) (s : State) : State := memWrite (move src .mdr (move ar .mar s))

/-! ## Limbs of 32-bit values -/

/-- A 32-bit source operand: four cells, or an immediate expanded to "a single real limb followed by three zero limbs"
(20_memory.md R46). -/
inductive LimbSource where
  | mem (base : Byte)
  | imm (value : Byte)
  deriving DecidableEq, Repr

/-- The limb of an immediate source in a round (20_memory.md R46). -/
def immLimb (v : Byte) (round : Nat) : Byte := if round = 0 then v else 0

/-- Sets the address register of a memory source; an immediate has none (43_arith.md R142). -/
def openSource (src : LimbSource) (ar : RegName) (s : State) : State :=
  match src with
  | .mem base => setReg ar base s
  | .imm _ => s

/-- A limb of a source reaches a register (42_mov.md R128, 43_arith.md R142). -/
def fetchLimb (src : LimbSource) (ar dst : RegName) (round : Nat) (s : State) : State :=
  match src with
  | .mem _ => loadVia ar dst s
  | .imm v => setReg dst (immLimb v round) s

/-- Steps an address register with an ALU operation on ROP: `move(ar, ROP) ; alu(op) ; move(RES, ar)`
(40_datapath_alu.md R95, R96). -/
def stepAddress (op : AluOp) (ar : RegName) (s : State) : State := move .res ar (alu op (move ar .rop s))

/-- Steps the address register of a memory source with INCR; an immediate has none (43_arith.md R142). -/
def stepSource (src : LimbSource) (ar : RegName) (s : State) : State :=
  match src with
  | .mem _ => stepAddress .incr ar s
  | .imm _ => s

end Sys2Proof.Machine
end

