-- ==== Sys2Proof/Machine/Arith.lean ====
section
/-! DEFINITION. ADD1, ADD, SUB, CMP, SHL, SHR, INC, DEC (spec/43_arith.md R140 to R154). -/

namespace Sys2Proof.Machine

/-! ## One register and the ALU -/

/-- The shape of the in-place register instructions with an immediate: `move(x, LOP) ; set(ROP, v) ; alu(op) ;
move(RES, x)` (43_arith.md R140, R150, R151). -/
def inPlaceImm (op : AluOp) (r : RegName) (v : Byte) (s : State) : State :=
  move .res r (alu op (setReg .rop v (move r .lop s)))

/-- The shape of the in-place register instructions without one: `move(x, LOP) ; alu(op) ; move(RES, x)`
(43_arith.md R152, R153). -/
def inPlace (op : AluOp) (r : RegName) (s : State) : State := move .res r (alu op (move r .lop s))

/-- ADD1 R, I: the carry flag is cleared first (43_arith.md R140). -/
def execAdd1RI (reg imm : Byte) (s : State) : Result :=
  match xreg? reg with
  | none => unsupported .ADD1 s
  | some r => complete .advance (inPlaceImm .add r imm (clearC s))

/-- SHL R, I (43_arith.md R150). -/
def execShlRI (reg amount : Byte) (s : State) : Result :=
  match xreg? reg with
  | none => unsupported .SHL s
  | some r => complete .advance (inPlaceImm .shl r amount s)

/-- SHR R, I (43_arith.md R151). -/
def execShrRI (reg amount : Byte) (s : State) : Result :=
  match xreg? reg with
  | none => unsupported .SHR s
  | some r => complete .advance (inPlaceImm .shr r amount s)

/-- INC R (43_arith.md R152). -/
def execIncR (reg : Byte) (s : State) : Result :=
  match xreg? reg with
  | none => unsupported .INC s
  | some r => complete .advance (inPlace .incl r s)

/-- DEC R (43_arith.md R153). -/
def execDecR (reg : Byte) (s : State) : Result :=
  match xreg? reg with
  | none => unsupported .DEC s
  | some r => complete .advance (inPlace .decl r s)

/-- CMP R, I: "direct single-byte SUB", the register is not written (43_arith.md R148). -/
def execCmpRI (left right : Byte) (s : State) : Result :=
  match xreg? left with
  | none => unsupported .CMP s
  | some r => complete .advance (alu .sub (setReg .rop right (move r .lop s)))

/-! ## ADD, 32 bits -/

/-- One limb of ADD: load both limbs, add with the carry of the limb before, store (43_arith.md R142). -/
def addLimb (left right : LimbSource) (round : Nat) (s : State) : State :=
  storeVia .dar .res (alu .add (fetchLimb right .tar .rop round (fetchLimb left .sar .lop round s)))

/-- The step of the address registers "after each limb": left, right, destination; INCR keeps C (43_arith.md R142). -/
def addStep (left right : LimbSource) (s : State) : State :=
  stepAddress .incr .dar (stepSource right .tar (stepSource left .sar s))

/-- One round of ADD (43_arith.md R142). -/
def addRound (left right : LimbSource) (round : Nat) (s : State) : State := addStep left right (addLimb left right round s)

/-- The micro-sequence of ADD: C cleared once, four rounds, low limb first (43_arith.md R142). -/
def add4 (dst : Byte) (left right : LimbSource) (s : State) : State :=
  let opened := clearC (openSource right .tar (openSource left .sar (setReg .dar dst s)))
  addRound left right 3 (addRound left right 2 (addRound left right 1 (addRound left right 0 opened)))

/-- ADD M, M, M (43_arith.md R142). -/
def execAddMMM (dst left right : Byte) (s : State) : Result := complete .advance (add4 dst (.mem left) (.mem right) s)

/-- ADD M, M, I (43_arith.md R142). -/
def execAddMMI (dst left right : Byte) (s : State) : Result := complete .advance (add4 dst (.mem left) (.imm right) s)

/-- ADD M, I, M (43_arith.md R142). -/
def execAddMIM (dst left right : Byte) (s : State) : Result := complete .advance (add4 dst (.imm left) (.mem right) s)

/-- ADD M, I, I (43_arith.md R142). -/
def execAddMII (dst left right : Byte) (s : State) : Result := complete .advance (add4 dst (.imm left) (.imm right) s)

/-! ## SUB, one limb -/

/-- The micro-sequence of SUB (43_arith.md R145). -/
def sub1 (dst left right : Byte) (s : State) : State :=
  let opened := setReg .lop left (setReg .tar right (setReg .dar dst s))
  storeVia .dar .res (alu .sub (loadVia .tar .rop opened))

/-- SUB M, I, M (43_arith.md R145). -/
def execSubMIM (dst left right : Byte) (s : State) : Result := complete .advance (sub1 dst left right s)

/-! ## CMP, 32 bits -/

/-- Advances an address register by 3, to the most significant limb (43_arith.md R147). -/
def stepAddress3 (ar : RegName) (s : State) : State :=
  stepAddress .incr ar (stepAddress .incr ar (stepAddress .incr ar s))

/-- The compare of one pair of limbs (43_arith.md R147). -/
def cmpLimb (s : State) : State := alu .sub (loadVia .tar .rop (loadVia .sar .lop s))

/-- The step down of both address registers between limbs (43_arith.md R147). -/
def cmpStep (s : State) : State := stepAddress .decr .tar (stepAddress .decr .sar s)

/-- The compare of limbs `i` down to 0, "stopping at the first non-zero-result limb or after the least-significant limb"
(43_arith.md R147). -/
def cmpFrom : Nat → State → State
  | 0, s => cmpLimb s
  | i + 1, s => if (cmpLimb s).flags.z then cmpFrom i (cmpStep (cmpLimb s)) else cmpLimb s

/-- The micro-sequence of the memory form of CMP (43_arith.md R147). -/
def cmp4 (left right : Byte) (s : State) : State :=
  cmpFrom 3 (stepAddress3 .tar (stepAddress3 .sar (setReg .tar right (setReg .sar left s))))

/-- CMP M, M (43_arith.md R147). -/
def execCmpMM (left right : Byte) (s : State) : Result := complete .advance (cmp4 left right s)

end Sys2Proof.Machine
end

