-- ==== Sys2Proof/Machine/ControlUnit.lean ====
section
/-! DEFINITION. NOP and HLT (spec/41_control_unit.md R117, R118). -/

namespace Sys2Proof.Machine

/-- NOP: "no datapath effect, advance" (41_control_unit.md R117). -/
def execNop (s : State) : Result := complete .advance s

/-- HLT: "terminate the run (terminal state)" (41_control_unit.md R118). -/
def execHlt (s : State) : Result := complete .halt s

end Sys2Proof.Machine
end

