-- ==== Sys2Proof/Machine/Jumps.lean ====
section
/-! DEFINITION. JE, JNE, JAE, JMP (spec/45_jumps.md R170 to R175). -/

namespace Sys2Proof.Machine

/-- A jump: taken to its target, or "default next instruction" (45_jumps.md R170). -/
def jumpIf (taken : Bool) (target : Byte) : Transfer := if taken then .jumpTo target else .advance

/-- JE: on `Z==1` (45_jumps.md R171). -/
def execJeI (target : Byte) (s : State) : Result := complete (jumpIf s.flags.z target) s

/-- JNE: on `Z==0` (45_jumps.md R172). -/
def execJneI (target : Byte) (s : State) : Result := complete (jumpIf (!s.flags.z) target) s

/-- JAE: on `N==0`; it does not read C (45_jumps.md R173). -/
def execJaeI (target : Byte) (s : State) : Result := complete (jumpIf (!s.flags.n) target) s

/-- JMP: always (45_jumps.md R174). -/
def execJmpI (target : Byte) (s : State) : Result := complete (.jumpTo target) s

end Sys2Proof.Machine
end

