-- ==== Sys2Proof/Machine/LoadStore.lean ====
section
/-! DEFINITION. LD, ST, IN, OUT (spec/44_ldst_io.md R160 to R167). -/

namespace Sys2Proof.Machine

/-- LD: `move(x[a], MAR) ; mem_read() ; move(MDR, x[t])` (44_ldst_io.md R160). -/
def execLdRR (addrReg dstReg : Byte) (s : State) : Result :=
  match xreg? addrReg, xreg? dstReg with
  | some a, some t => complete .advance (loadVia a t s)
  | _, _ => unsupported .LD s

/-- ST: `move(x[a], MAR) ; move(x[t], MDR) ; mem_write()` (44_ldst_io.md R161). -/
def execStRR (addrReg srcReg : Byte) (s : State) : Result :=
  match xreg? addrReg, xreg? srcReg with
  | some a, some t => complete .advance (storeVia a t s)
  | _, _ => unsupported .ST s

/-- IN: "copy device register -> a shared I/O register, then invoke the device's post-access hook" (44_ldst_io.md R164). -/
def execInI (port : Byte) (s : State) : Result :=
  match port? port with
  | none => unsupported .IN s
  | some p => complete .advance (hook p (move p.reg .ior s))

/-- OUT: "copy the shared I/O register -> device register, then invoke the hook" (44_ldst_io.md R165). -/
def execOutI (port : Byte) (s : State) : Result :=
  match port? port with
  | none => unsupported .OUT s
  | some p => complete .advance (hook p (move .ior p.reg s))

end Sys2Proof.Machine
end

