-- ==== Sys2Proof/Machine/Mov.lean ====
section
/-! DEFINITION. MOV and MOV4 (spec/42_mov.md R125 to R130). -/

namespace Sys2Proof.Machine

/-! ## MOV -/

/-- Source phase and routing for an immediate source: the byte reaches AC, then BR (42_mov.md R125). -/
def routeImm (v : Byte) (s : State) : State := move .ac .br (setReg .ac v s)

/-- Source phase and routing for a memory source (42_mov.md R125). -/
def routeCell (a : Byte) (s : State) : State := move .ac .br (loadCell a .ac s)

/-- Destination phase for a register: the byte leaves BR (42_mov.md R125). -/
def deliverReg (k : Byte) (routed : State) (s : State) : Result :=
  match xreg? k with
  | none => unsupported .MOV s
  | some r => complete .advance (move .br r routed)

/-- Destination phase for a memory cell: the byte leaves BR (42_mov.md R125). -/
def deliverCell (d : Byte) (routed : State) : Result := complete .advance (storeCell d .br routed)

/-- MOV R, I (42_mov.md R125). -/
def execMovRI (dst src : Byte) (s : State) : Result := deliverReg dst (routeImm src s) s

/-- MOV R, M (42_mov.md R125). -/
def execMovRM (dst src : Byte) (s : State) : Result := deliverReg dst (routeCell src s) s

/-- MOV M, I (42_mov.md R125). -/
def execMovMI (dst src : Byte) (s : State) : Result := deliverCell dst (routeImm src s)

/-- MOV M, M (42_mov.md R125). -/
def execMovMM (dst src : Byte) (s : State) : Result := deliverCell dst (routeCell src s)

/-- MOV I, I: the immediate destination is again a memory cell (42_mov.md R125, R127). -/
def execMovII (dst src : Byte) (s : State) : Result := deliverCell dst (routeImm src s)

/-- MOV I, M: the immediate destination is again a memory cell (42_mov.md R125, R127). -/
def execMovIM (dst src : Byte) (s : State) : Result := deliverCell dst (routeCell src s)

/-! ## MOV4 -/

/-- One single-byte transfer of MOV4, routed as in MOV (42_mov.md R128). -/
def mov4Round (src : LimbSource) (round : Nat) (s : State) : State :=
  storeVia .dar .br (move .ac .br (fetchLimb src .sar .ac round s))

/-- The step of the address registers between two rounds: the source's, then the destination's (42_mov.md R128). -/
def mov4Step (src : LimbSource) (s : State) : State := stepAddress .incr .dar (stepSource src .sar s)

/-- The micro-sequence of MOV4: four rounds with a step between them, low limb first (42_mov.md R128). -/
def mov4 (dst : Byte) (src : LimbSource) (s : State) : State :=
  let s0 := mov4Round src 0 (openSource src .sar (setReg .dar dst s))
  let s1 := mov4Round src 1 (mov4Step src s0)
  let s2 := mov4Round src 2 (mov4Step src s1)
  mov4Round src 3 (mov4Step src s2)

/-- MOV4 M, I (42_mov.md R128). -/
def execMov4MI (dst src : Byte) (s : State) : Result := complete .advance (mov4 dst (.imm src) s)

/-- MOV4 M, M (42_mov.md R128). -/
def execMov4MM (dst src : Byte) (s : State) : Result := complete .advance (mov4 dst (.mem src) s)

end Sys2Proof.Machine
end

