-- ==== Sys2Proof/Machine/Dispatch.lean ====
section
/-! DEFINITION. One arm per instruction: the meaning each has. -/

namespace Sys2Proof.Machine

def exec (i : Instr) (s : State) : Host.Outcome State Fault Refusal :=
  match i with
  -- spec/41_control_unit.md
  | .nop => Sys2Proof.Machine.execNop s
  | .hlt => Sys2Proof.Machine.execHlt s
  -- spec/42_mov.md
  | .movRI dst src => Sys2Proof.Machine.execMovRI dst src s
  | .movRM dst src => Sys2Proof.Machine.execMovRM dst src s
  | .movMI dst src => Sys2Proof.Machine.execMovMI dst src s
  | .movMM dst src => Sys2Proof.Machine.execMovMM dst src s
  | .movII dst src => Sys2Proof.Machine.execMovII dst src s
  | .movIM dst src => Sys2Proof.Machine.execMovIM dst src s
  | .mov4MI dst src => Sys2Proof.Machine.execMov4MI dst src s
  | .mov4MM dst src => Sys2Proof.Machine.execMov4MM dst src s
  -- spec/43_arith.md
  | .add1RI reg imm => Sys2Proof.Machine.execAdd1RI reg imm s
  | .addMMM dst left right => Sys2Proof.Machine.execAddMMM dst left right s
  | .addMMI dst left right => Sys2Proof.Machine.execAddMMI dst left right s
  | .addMIM dst left right => Sys2Proof.Machine.execAddMIM dst left right s
  | .addMII dst left right => Sys2Proof.Machine.execAddMII dst left right s
  | .subMIM dst left right => Sys2Proof.Machine.execSubMIM dst left right s
  | .cmpMM left right => Sys2Proof.Machine.execCmpMM left right s
  | .cmpRI left right => Sys2Proof.Machine.execCmpRI left right s
  | .shlRI reg amount => Sys2Proof.Machine.execShlRI reg amount s
  | .shrRI reg amount => Sys2Proof.Machine.execShrRI reg amount s
  | .incR reg => Sys2Proof.Machine.execIncR reg s
  | .decR reg => Sys2Proof.Machine.execDecR reg s
  -- spec/44_ldst_io.md
  | .ldRR addrReg dstReg => Sys2Proof.Machine.execLdRR addrReg dstReg s
  | .stRR addrReg srcReg => Sys2Proof.Machine.execStRR addrReg srcReg s
  | .inI port => Sys2Proof.Machine.execInI port s
  | .outI port => Sys2Proof.Machine.execOutI port s
  -- spec/45_jumps.md
  | .jeI target => Sys2Proof.Machine.execJeI target s
  | .jneI target => Sys2Proof.Machine.execJneI target s
  | .jaeI target => Sys2Proof.Machine.execJaeI target s
  | .jmpI target => Sys2Proof.Machine.execJmpI target s

end Sys2Proof.Machine
end

