-- ==== Sys2Proof/Machine/Load.lean ====
section
/-! DEFINITION. Reset, which is construction: program load and its checks, image load, input load
(spec/70_reset_and_hazards.md R200 to R206). -/

namespace Sys2Proof.Machine

/-- The first address that is not greater than the one before it in file order (70_reset_and_hazards.md R204). -/
def orderViolation : List Command → Option Byte
  | [] => none
  | [_] => none
  | c :: d :: rest => if d.address ≤ c.address then some d.address else orderViolation (d :: rest)

/-- Addresses are strictly increasing in file order (70_reset_and_hazards.md R204). -/
def programOrdered (cmds : List Command) : Bool := (orderViolation cmds).isNone

/-- `check_program`: at least one instruction, addresses strictly increasing (70_reset_and_hazards.md R204). -/
def checkProgram (cmds : List Command) : Option MalformedCause :=
  match cmds with
  | [] => some .emptyProgram
  | _ :: _ =>
    match orderViolation cmds with
    | some a => some (.addressOrder a)
    | none => none

/-- The cells of an image loaded at ascending addresses from one on; zeros need not be listed (70_reset_and_hazards.md
R205). -/
def imageFrom (a : Nat) : List Byte → Memory
  | [] => []
  | v :: rest => if v = 0 then imageFrom (a + 1) rest else (a, v) :: imageFrom (a + 1) rest

/-- `ORDER[0]`, "the first address in the decoded program" (70_reset_and_hazards.md R203). -/
def firstAddress : List Command → Byte
  | [] => 0
  | c :: _ => c.address

/-- Input load: with `SOURCE_PRIMED` the source hook runs once (70_reset_and_hazards.md R206). -/
def primeSource (s : State) : State := if Config.sourcePrimed then sourceHook s else s

/-- The core with a checked program, an image that fits and an input sequence (70_reset_and_hazards.md R200). -/
def start (cmds : List Command) (image : List Byte) (input : List Nat) : State :=
  primeSource
    { State.blank .running with prog := cmds, mem := imageFrom 0 image, inbuf := input, pc := firstAddress cmds }

/-- A core whose load raised a fault; it never runs (70_reset_and_hazards.md R200). DESIGN CHOICE
(notes/assumptions/5.md): what the load had not reached yet is blank. -/
def loadFault (cause : MalformedCause) (cmds : List Command) : State :=
  raise (.malformedProgram cause) { State.blank .running with prog := cmds }

/-- `reset(stream_bytes, image_bytes, input_sequence)` (70_reset_and_hazards.md R200). -/
def construct (stream image : List Byte) (input : List Nat) : State :=
  match decodeProgram stream with
  | .error cause => loadFault cause []
  | .ok cmds =>
    match checkProgram cmds with
    | some cause => loadFault cause []
    | none =>
      if image.length > 2 ^ Config.addrWidth then loadFault (.imageTooLarge image.length) cmds
      else start cmds image input

/-- Stores a Command under its address in a program, keeping the file in address order: replaces the one at that address
or comes between its neighbours. Used to place an instruction where the next step fetches, never by an instruction. -/
def insertCommand (cmd : Command) : List Command → List Command
  | [] => [cmd]
  | c :: rest =>
    if cmd.address < c.address then cmd :: c :: rest
    else if cmd.address = c.address then cmd :: rest
    else c :: insertCommand cmd rest

end Sys2Proof.Machine
end

