-- ==== Sys2Proof/Machine/Step.lean ====
section
/-! DEFINITION. One step of the control unit (spec/41_control_unit.md R110): fetch, dispatch, operand check, execution.
A fault of the hardware is a next state whose `RUN` is Faulted (spec/60_exceptions.md R180); a step asked of a core whose
run is over has no next state (spec/10_state.md R21). -/

namespace Sys2Proof.Machine

/-- Runs the fetched Command: dispatch and operand check, then its instruction (41_control_unit.md R112, R113). -/
def runCommand (cmd : Command) (s : State) : Host.Outcome State Fault Refusal :=
  match classify cmd with
  | .error reject => .next (raiseReject cmd reject s)
  | .ok i => exec i s

/-- `step()` (41_control_unit.md R110). -/
def step (s : State) : Host.Outcome State Fault Refusal :=
  match s.run with
  | .halted => .fault .runHalted
  | .faulted f => .fault (.runFaulted f)
  | .running =>
    match fetch s with
    | none => .next (raiseMissing s)
    | some cmd => runCommand cmd s

/-- The core with one instruction, given as a word of `spec/opcode_table.json`, placed at `pc` in its program, and
running: the very next step fetches and runs it. See notes/assumptions/7.md. -/
def State.withFetchWord (s : State) (nbits w : Nat) : State :=
  match tableCommand s.pc nbits w with
  | none => s
  | some cmd => { s with prog := insertCommand cmd s.prog, run := .running }

end Sys2Proof.Machine
end

