-- ==== Sys2Proof/Safety.lean ====
section
/-! DEFINITION. The terms claims are stated in: what a well-formed state is, how a run ends well, what an instruction
may change (its frame), and the reference values of the spec's net-effect tables. -/

namespace Sys2Proof.Machine

/-! ## States -/

/-- The invariant of every state a core can be in: no signal is left open (10_state.md R13), data memory is in canonical
form, program addresses rise strictly (10_state.md R20), and the cursor stays inside the input (10_state.md R27). -/
def State.wf (s : State) : Bool :=
  s.busIdle && Memory.wf s.mem && programOrdered s.prog && decide (s.cur ≤ s.inbuf.length)

/-- The source register "always holds the next character to be delivered", or 0 once the input is used up
(10_state.md R27). -/
def State.sourceLoaded (s : State) : Prop :=
  (s.cur = s.inbuf.length ∧ s.val .pr0 = 0) ∨
    ∃ n ch, s.cur = n + 1 ∧ s.inbuf[n]? = some ch ∧ s.val .pr0 = BitVec.ofNat 8 ch

/-- The first `n` characters of the input have left the source register, and it holds the next one: the cursor stands
behind that one, or at the end of the input with 0 in the register (10_state.md R27). -/
def State.delivered (s : State) (n : Nat) : Prop :=
  (s.inbuf.length ≤ n ∧ s.cur = s.inbuf.length ∧ s.val .pr0 = 0) ∨
    ∃ ch, s.inbuf[n]? = some ch ∧ s.cur = n + 1 ∧ s.val .pr0 = BitVec.ofNat 8 (ch % 256)

/-- The run has ended normally: "a faulted run is not a normal end" (60_exceptions.md R180, R118). -/
def State.endedNormally (s : State) : Bool := s.run == .halted

/-- The state an outcome leaves, if it leaves one. -/
def stateAfter : Host.Outcome State Fault Refusal → Option State
  | .next s => some s
  | .fault _ => none
  | .refused _ => none

/-! ## Frames -/

/-- Registers outside `regs` and cells outside `cells` keep their values, program and input are the same, and no signal
is left open. -/
structure Frame (regs : List RegName) (cells : List Byte) (s t : State) : Prop where
  registers : ∀ r, r ∉ regs → t.val r = s.val r
  memory : ∀ a : Byte, a ∉ cells → t.cell a = s.cell a
  program : t.prog = s.prog
  input : t.inbuf = s.inbuf
  signals : t.busIdle = true

/-- Neither device has been accessed. -/
def SameDevices (s t : State) : Prop := t.cur = s.cur ∧ t.outlog = s.outlog

/-- Nothing but the control unit's `pc`, `RUN` and `ICNT` may differ. -/
def SameDatapath (s t : State) : Prop :=
  t.regs = s.regs ∧ t.bus = s.bus ∧ t.flags = s.flags ∧ t.mem = s.mem ∧ t.prog = s.prog ∧ t.inbuf = s.inbuf ∧
    t.cur = s.cur ∧ t.outlog = s.outlog

/-- The instruction was counted and control went to the next address in file order; where there is none, `pc` stays and
the run has ended in NoNextInstruction (41_control_unit.md R114, R115, R116). -/
def Advanced (s t : State) : Prop :=
  t.icnt = s.icnt + 1 ∧
    (∀ a, s.nextAddress = some a → t.pc = a ∧ t.run = s.run) ∧
    (s.nextAddress = none → t.pc = s.pc ∧ t.run = .faulted (.malformedProgram (.noNextInstruction s.pc)))

/-- The instruction was counted and control went to a target (41_control_unit.md R110). -/
def JumpedTo (target : Byte) (s t : State) : Prop := t.icnt = s.icnt + 1 ∧ t.pc = target ∧ t.run = s.run

/-- The four cells of a 32-bit value, addresses mod 256 (20_memory.md R46). -/
def fourCells (a : Byte) : List Byte := [a, a + 1, a + 2, a + 3]

/-- The registers a register-direct operand names, none or one. -/
def named (k : Byte) : List RegName := (xreg? k).toList

/-- The datapath registers an instruction may write (10_state.md R11 and the net-effect tables of 42_mov.md R126, R129,
43_arith.md R140 to R153, 44_ldst_io.md R160 to R165). -/
def writtenRegs : Instr → List RegName
  | .nop => []
  | .hlt => []
  | .movRI k _ => .ac :: .br :: named k
  | .movRM k _ => .ac :: .br :: .mar :: .mdr :: named k
  | .movMI _ _ => [.ac, .br, .mar, .mdr]
  | .movMM _ _ => [.ac, .br, .mar, .mdr]
  | .movII _ _ => [.ac, .br, .mar, .mdr]
  | .movIM _ _ => [.ac, .br, .mar, .mdr]
  | .mov4MI _ _ => [.ac, .br, .mdr, .dar, .mar, .res, .rop]
  | .mov4MM _ _ => [.ac, .br, .mdr, .sar, .dar, .mar, .res, .rop]
  | .add1RI k _ => .lop :: .rop :: .res :: named k
  | .addMMM _ _ _ => [.sar, .tar, .dar, .res, .rop, .mar, .mdr, .lop]
  | .addMMI _ _ _ => [.sar, .dar, .res, .rop, .mar, .mdr, .lop]
  | .addMIM _ _ _ => [.tar, .dar, .res, .rop, .mar, .mdr, .lop]
  | .addMII _ _ _ => [.dar, .res, .rop, .mar, .mdr, .lop]
  | .subMIM _ _ _ => [.tar, .dar, .res, .rop, .mar, .mdr, .lop]
  | .cmpMM _ _ => [.sar, .tar, .res, .rop, .mar, .mdr, .lop]
  | .cmpRI _ _ => [.lop, .rop, .res]
  | .shlRI k _ => .lop :: .rop :: .res :: named k
  | .shrRI k _ => .lop :: .rop :: .res :: named k
  | .incR k => .lop :: .res :: named k
  | .decR k => .lop :: .res :: named k
  | .ldRR _ k => .mar :: .mdr :: named k
  | .stRR _ _ => [.mar, .mdr]
  | .inI p => if p = 0 then [.ior, .pr0] else [.ior]
  | .outI p => if p = 0 then [.pr0] else [.pr1]
  | .jeI _ => []
  | .jneI _ => []
  | .jaeI _ => []
  | .jmpI _ => []

/-- The data-memory addresses an instruction stores to, from the state it starts in (20_memory.md R48): the destination
operand's cell, its four cells, or the cell the address register of ST names. -/
def storedCells (s : State) : Instr → List Byte
  | .nop => []
  | .hlt => []
  | .movRI _ _ => []
  | .movRM _ _ => []
  | .movMI d _ => [d]
  | .movMM d _ => [d]
  | .movII d _ => [d]
  | .movIM d _ => [d]
  | .mov4MI d _ => fourCells d
  | .mov4MM d _ => fourCells d
  | .add1RI _ _ => []
  | .addMMM d _ _ => fourCells d
  | .addMMI d _ _ => fourCells d
  | .addMIM d _ _ => fourCells d
  | .addMII d _ _ => fourCells d
  | .subMIM d _ _ => [d]
  | .cmpMM _ _ => []
  | .cmpRI _ _ => []
  | .shlRI _ _ => []
  | .shrRI _ _ => []
  | .incR _ => []
  | .decR _ => []
  | .ldRR _ _ => []
  | .stRR a _ => (named a).map s.val
  | .inI _ => []
  | .outI _ => []
  | .jeI _ => []
  | .jneI _ => []
  | .jaeI _ => []
  | .jmpI _ => []

/-- Which flags an instruction writes: the table of 10_state.md R16. -/
def writtenFlags : Mnemonic → FlagMask
  | .NOP => ⟨false, false, false, false⟩
  | .HLT => ⟨false, false, false, false⟩
  | .MOV => ⟨false, false, false, false⟩
  | .MOV4 => ⟨true, true, true, false⟩
  | .ADD1 => ⟨true, true, true, true⟩
  | .ADD => ⟨true, true, true, true⟩
  | .SUB => ⟨true, true, true, true⟩
  | .CMP => ⟨true, true, true, true⟩
  | .SHL => ⟨false, false, false, true⟩
  | .SHR => ⟨false, false, false, true⟩
  | .INC => ⟨true, true, true, false⟩
  | .DEC => ⟨true, true, true, false⟩
  | .LD => ⟨false, false, false, false⟩
  | .ST => ⟨false, false, false, false⟩
  | .IN => ⟨false, false, false, false⟩
  | .OUT => ⟨false, false, false, false⟩
  | .JE => ⟨false, false, false, false⟩
  | .JNE => ⟨false, false, false, false⟩
  | .JAE => ⟨false, false, false, false⟩
  | .JMP => ⟨false, false, false, false⟩

/-- The control transfer of an instruction that does not fault (41_control_unit.md R110, 45_jumps.md R171 to R174). -/
def transferOf (s : State) : Instr → Transfer
  | .nop => .advance
  | .hlt => .halt
  | .movRI _ _ => .advance
  | .movRM _ _ => .advance
  | .movMI _ _ => .advance
  | .movMM _ _ => .advance
  | .movII _ _ => .advance
  | .movIM _ _ => .advance
  | .mov4MI _ _ => .advance
  | .mov4MM _ _ => .advance
  | .add1RI _ _ => .advance
  | .addMMM _ _ _ => .advance
  | .addMMI _ _ _ => .advance
  | .addMIM _ _ _ => .advance
  | .addMII _ _ _ => .advance
  | .subMIM _ _ _ => .advance
  | .cmpMM _ _ => .advance
  | .cmpRI _ _ => .advance
  | .shlRI _ _ => .advance
  | .shrRI _ _ => .advance
  | .incR _ => .advance
  | .decR _ => .advance
  | .ldRR _ _ => .advance
  | .stRR _ _ => .advance
  | .inI _ => .advance
  | .outI _ => .advance
  | .jeI t => if s.flags.z = true then .jumpTo t else .advance
  | .jneI t => if s.flags.z = false then .jumpTo t else .advance
  | .jaeI t => if s.flags.n = false then .jumpTo t else .advance
  | .jmpI t => .jumpTo t

/-- What a control transfer does to `pc`, `RUN` and `ICNT` (41_control_unit.md R110, R114 to R116). -/
def Transferred (x : Transfer) (s t : State) : Prop :=
  match x with
  | .advance => Advanced s t
  | .jumpTo target => JumpedTo target s t
  | .halt => t.icnt = s.icnt + 1 ∧ t.pc = s.pc ∧ t.run = .halted

/-! ## What programs cannot observe -/

/-- The registers no operand names and no instruction reads before writing (10_state.md R29 c). -/
def hiddenRegs : List RegName := [.sar, .tar, .dar, .mar, .mdr, .lop, .rop, .res]

/-- Two states that differ at most in the hidden registers and the bus value, with no signal open in either. -/
structure SameButHidden (s t : State) : Prop where
  registers : ∀ r, r ∉ hiddenRegs → t.val r = s.val r
  signals : s.busIdle = true ∧ t.busIdle = true
  flags : t.flags = s.flags
  memory : t.mem = s.mem
  program : t.prog = s.prog
  control : t.pc = s.pc ∧ t.run = s.run ∧ t.icnt = s.icnt
  devices : t.inbuf = s.inbuf ∧ t.cur = s.cur ∧ t.outlog = s.outlog

/-- Two states that differ at most in the flags V and C. -/
structure SameButVC (s t : State) : Prop where
  registers : t.regs = s.regs
  bus : t.bus = s.bus
  flags : t.flags.n = s.flags.n ∧ t.flags.z = s.flags.z
  memory : t.mem = s.mem
  program : t.prog = s.prog
  control : t.pc = s.pc ∧ t.run = s.run ∧ t.icnt = s.icnt
  devices : t.inbuf = s.inbuf ∧ t.cur = s.cur ∧ t.outlog = s.outlog

/-- The outcome of one computation relates to the outcome of another: both leave related states, or both stop alike. -/
def SameOutcome (rel : State → State → Prop) : (x y : Host.Outcome State Fault Refusal) → Prop
  | .next s, .next t => rel s t
  | .fault f, .fault g => f = g
  | .refused f, .refused g => f = g
  | _, _ => False

/-! ## Reference values of the spec's tables -/

/-- The code of a mode as the number 30_encoding.md R62 gives. -/
def modeNumber : Mode → Nat
  | .mem => 1
  | .imm => 2
  | .reg => 3

/-- The fields of a mode byte after the first `00` field are `00` too (30_encoding.md R62, R65). -/
def ignoredFieldsZero (modes : Byte) : Prop :=
  ∀ f g : Nat, f < g → g < 4 → modes.toNat / 4 ^ (3 - f) % 4 = 0 → modes.toNat / 4 ^ (3 - g) % 4 = 0

/-- Two mode bytes with the same fields up to and including the first `00` field (30_encoding.md R62). -/
def sameModes (m m' : Byte) : Prop :=
  ∀ f : Nat, f < 4 → (∀ g : Nat, g < f → m.toNat / 4 ^ (3 - g) % 4 ≠ 0) →
    m.toNat / 4 ^ (3 - f) % 4 = m'.toNat / 4 ^ (3 - f) % 4

/-- The negative flag of a word: its bit 7 (00_scope.md R5). -/
def negative (v : Byte) : Bool := decide (128 ≤ v.toNat)

/-- The flags of `a - b`: N and Z of the difference, V from the signs of `a` and `comp(b)`, and `C = 1` exactly when
`b != 0` and `a >= b` (40_datapath_alu.md R92). -/
def subFlags (a b : Byte) : Flags :=
  let negB := (256 - b.toNat) % 256
  { n := negative (a - b)
    z := decide (a = b)
    v := (decide (128 ≤ a.toNat) == decide (128 ≤ negB)) && (negative (a - b) != decide (128 ≤ a.toNat))
    c := decide (b ≠ 0) && decide (b.toNat ≤ a.toNat) }

/-- The flags of `a + b` with no carry in (40_datapath_alu.md R91). -/
def addFlags (a b : Byte) : Flags :=
  { n := negative (a + b)
    z := decide (a + b = 0)
    v := (negative a == negative b) && (negative (a + b) != negative a)
    c := decide (256 ≤ a.toNat + b.toNat) }

/-- The limb of a 32-bit source in a round, from the memory as it is in that round (43_arith.md R143). -/
def limbIn (m : Byte → Byte) (src : LimbSource) (i : Nat) : Byte :=
  match src with
  | .mem base => m (base + BitVec.ofNat 8 i)
  | .imm v => if i = 0 then v else 0

/-- The 32-bit value of a source (43_arith.md R143). -/
def sourceValue (s : State) : LimbSource → Nat
  | .mem base => s.cell4 base
  | .imm v => v.toNat

/-- No cell of a destination at `d` is read as a later limb of the source (42_mov.md R129, 43_arith.md R143). -/
def noFeedback (d : Byte) : LimbSource → Prop
  | .mem base => d ≠ base + 1 ∧ d ≠ base + 2 ∧ d ≠ base + 3
  | .imm _ => True

/-- The flags a mask lets an operation write, and the others as they were (40_datapath_alu.md R88). -/
def maskedFlags (m : FlagMask) (computed old : Flags) : Flags :=
  { n := if m.n then computed.n else old.n
    z := if m.z then computed.z else old.z
    v := if m.v then computed.v else old.v
    c := if m.c then computed.c else old.c }

/-- ADD with its sources in whichever of the four forms (30_encoding.md R68). -/
def addInstr (d : Byte) : LimbSource → LimbSource → Instr
  | .mem l, .mem r => .addMMM d l r
  | .mem l, .imm r => .addMMI d l r
  | .imm l, .mem r => .addMIM d l r
  | .imm l, .imm r => .addMII d l r

/-- What an address register holds after ADD: four steps on for a memory source, unchanged for an immediate
(43_arith.md R143). -/
def steppedFour (old : Byte) : LimbSource → Byte
  | .mem base => base + 4
  | .imm _ => old

/-- The flags that address steps ending in `a` to `a + 1` leave: N, Z, V of the step, C as given (40_datapath_alu.md R95). -/
def stepFlags (a : Byte) (c : Bool) : Flags :=
  { n := negative (a + 1), z := decide (a + 1 = 0), v := decide (a.toNat = 127), c }

/-- Every Command of an opcode whose operands are not as given raises UnsupportedOperand with no other effect
(41_control_unit.md R113). -/
def RejectsOthers (opcode : Byte) (supported : List Operand → Prop) : Prop :=
  ∀ (ops : List Operand) (address : Byte) (s : State), ¬ supported ops →
    runCommand ⟨opcode, ops, address⟩ s = .next { s with run := .faulted (.unsupportedOperand s.pc opcode) }

/-- The bytes after the address byte are the record of one instruction: they decode to it, whatever follows. -/
def EncodedAs (tail : List Byte) (i : Instr) : Prop :=
  ∀ (offset : Nat) (address : Byte) (rest : List Byte),
    ∃ cmd, readRecord offset (address :: (tail ++ rest)) = .ok (cmd, rest) ∧ cmd.address = address ∧ classify cmd = .ok i

end Sys2Proof.Machine
end

