-- ==== Sys2Proof/Certificates/Slice0/Obligations.lean ====
section
/-! DEFINITION. The statements for the provers: what the numbered rules of spec/ say the codec, the datapath, each
instruction, a step and reset do, and the rules of the whole machine. Each is about every state and operand it names. -/

open Sys2Proof Sys2Proof.Machine

/-! ## The codec (spec/30_encoding.md) -/

/-- 30_encoding.md R65. The encoder's layout; decoding what was encoded gives the Commands back; and encoding what was
decoded gives the bytes back exactly when the ignored mode fields were `00`. -/
def Obligations.CodecRoundTrip : Prop :=
  (∀ c : Command, c.encodable = true →
    (c.opcode = 0x00 ∨ c.opcode = 0x01 → c.operands = [] ∧ encodeCommand c = [c.address, c.opcode]) ∧
    (¬ (c.opcode = 0x00 ∨ c.opcode = 0x01) → ∃ modes : Byte,
      encodeCommand c = c.address :: c.opcode :: modes :: c.operands.map (·.value) ∧
      ∀ f : Nat, f < 4 → modes.toNat / 4 ^ (3 - f) % 4 =
        match c.operands[f]? with
        | some o => modeNumber o.mode
        | none => 0)) ∧
  (∀ cmds : List Command, (∀ c ∈ cmds, c.encodable = true) → decodeProgram (cmds.flatMap encodeCommand) = .ok cmds) ∧
  (∀ (offset : Nat) (bytes rest : List Byte) (c : Command), readRecord offset bytes = .ok (c, rest) →
    (encodeCommand c ++ rest = bytes ↔
      (c.opcode = 0x00 ∨ c.opcode = 0x01) ∨ ∃ modes : Byte, bytes[2]? = some modes ∧ ignoredFieldsZero modes))

/-- Every instruction, with every operand at every value, placed anywhere and followed by anything, is encoded into bytes
that decode to it: no bit of an encoding is dropped (30_encoding.md sections 2 and 4). -/
def Obligations.InstructionRoundTrip : Prop :=
  ∀ (i : Instr) (offset : Nat) (address : Byte) (rest : List Byte),
    readRecord offset (encode address i ++ rest) = .ok (i.toCommand address, rest) ∧
    (i.toCommand address).address = address ∧ classify (i.toCommand address) = .ok i

/-- 30_encoding.md sections 4 and 5, 41_control_unit.md section 1 (R112, R113). A Command is executable exactly when it is
one of the thirty forms and names registers and devices that exist: it is then dispatched to its instruction and run by
it. An unknown opcode is rejected as such, whatever its operands; any other Command raises UnsupportedOperand. Which part
of the operand check dispatch makes and which the meaning is the model's split (notes/assumptions/11.md). -/
def Obligations.SupportedFormsAreExactlyTheTable : Prop :=
  ∀ c : Command,
    (∃ i : Instr, i.wf = true ∧ c = i.toCommand c.address ∧ classify c = .ok i ∧ ∀ s, runCommand c s = exec i s) ∨
    (0x14 ≤ c.opcode.toNat ∧ classify c = .error .unknownOpcode ∧
      ∀ s, runCommand c s = .next { s with run := .faulted (.unknownOpcode s.pc c.opcode) }) ∨
    (c.opcode.toNat < 0x14 ∧ (∀ i : Instr, i.wf = true → c ≠ i.toCommand c.address) ∧
      ((∀ i : Instr, c ≠ i.toCommand c.address) → classify c = .error .unsupportedOperand) ∧
      ∀ s, runCommand c s = .next { s with run := .faulted (.unsupportedOperand s.pc c.opcode) })

/-- Words written out from the encodings of 30_encoding.md R66 to R68 decode to the instructions they stand for. A sanity
statement on a few words. -/
def Obligations.WordsFromTheSpecDecode : Prop :=
  EncodedAs [0x00] .nop ∧ EncodedAs [0x01] .hlt ∧
  EncodedAs [0x02, 0b11100000, 0x02, 0x2A] (.movRI 2 0x2A) ∧
  EncodedAs [0x03, 0b01010000, 0x20, 0x10] (.mov4MM 0x20 0x10) ∧
  EncodedAs [0x05, 0b01100100, 0x30, 0xC8, 0x14] (.addMIM 0x30 0xC8 0x14) ∧
  EncodedAs [0x06, 0b01100100, 0x31, 0x0A, 0x30] (.subMIM 0x31 0x0A 0x30) ∧
  EncodedAs [0x0A, 0b11000111, 0x02] (.incR 2) ∧
  EncodedAs [0x0D, 0b11110010, 0x02, 0x03] (.stRR 2 3) ∧
  EncodedAs [0x0F, 0b10000000, 0x01] (.outI 1) ∧
  EncodedAs [0x12, 0b10000000, 0x0E] (.jaeI 0x0E)

/-- 30_encoding.md sections 1 and 2 (R61, R64): a stream that ends inside a record is TruncatedRecord, at the offset of the
lone address byte, or else at the end of the stream. -/
def Obligations.TruncatedStreamIsRejected : Prop :=
  ∀ (cmds : List Command) (c : Command) (k : Nat), (∀ d ∈ cmds, d.encodable = true) → c.encodable = true →
    0 < k → k < (encodeCommand c).length →
    decodeProgram (cmds.flatMap encodeCommand ++ (encodeCommand c).take k) =
      .error (.truncatedRecord ((cmds.flatMap encodeCommand).length + if k = 1 then 0 else k))

/-- 30_encoding.md section 1 (R62, this spec's decision D19): mode fields after the first `00` field are ignored. -/
def Obligations.FieldsAfterNoneAreIgnored : Prop :=
  ∀ (offset : Nat) (address opcode m m' : Byte) (rest : List Byte), sameModes m m' →
    readRecord offset (address :: opcode :: m :: rest) =
      if opcode = 0x00 ∨ opcode = 0x01 then .ok (⟨opcode, [], address⟩, m :: rest)
      else readRecord offset (address :: opcode :: m' :: rest)

/-! ## Reset, which is construction (spec/70_reset_and_hazards.md) -/

/-- 70_reset_and_hazards.md R203. Each decoded Command is found under its own address, `ORDER` lists the addresses in file
order, and `pc` starts at the first of them. -/
def Obligations.ProgramIsLoadedUnderItsAddresses : Prop :=
  ∀ (stream image : List Byte) (input : List Nat) (c : Command) (cmds : List Command),
    decodeProgram stream = .ok (c :: cmds) → (c :: cmds).Pairwise (fun x y => x.address < y.address) →
    image.length ≤ 256 →
    (∀ d ∈ c :: cmds, fetch (setPc d.address (construct stream image input)) = some d) ∧
    (construct stream image input).order = (c :: cmds).map (·.address) ∧
    (construct stream image input).pc = c.address

/-- 10_state.md section 9 (R30; the register, flag and priming values are this spec's decisions D14, D15, D22). The state
after a good load: memory is the image and zeros, registers and flags are 0, the source holds the first character, and
the core is Running with nothing counted and nothing logged. -/
def Obligations.ResetValues : Prop :=
  ∀ (stream image : List Byte) (input : List Nat) (c : Command) (cmds : List Command),
    decodeProgram stream = .ok (c :: cmds) → (c :: cmds).Pairwise (fun x y => x.address < y.address) →
    image.length ≤ 256 →
    ∃ s, construct stream image input = s ∧ s.run = .running ∧ s.icnt = 0 ∧ s.outlog = [] ∧ s.inbuf = input ∧
      s.prog = c :: cmds ∧ (∀ a : Byte, s.cell a = image.getD a.toNat 0) ∧ (∀ r, r ≠ .pr0 → s.val r = 0) ∧
      s.flags = ⟨false, false, false, false⟩ ∧ s.busIdle = true ∧
      (input = [] → s.val .pr0 = 0 ∧ s.cur = 0) ∧
      (∀ ch rest, input = ch :: rest → s.val .pr0 = BitVec.ofNat 8 (ch % 256) ∧ s.cur = 1)

/-- 70_reset_and_hazards.md section 1 (R200, R204, R205; the outcome is this spec's decision D18). A stream that does not
decode, an empty program, addresses that do not rise and an image that does not fit end in `Faulted` at load, in this
order, and the core takes no step. -/
def Obligations.BadLoadsNeverRun : Prop :=
  ∀ (stream image : List Byte) (input : List Nat),
    (∀ e, decodeProgram stream = .error e → (construct stream image input).run = .faulted (.malformedProgram e)) ∧
    (decodeProgram stream = .ok [] → (construct stream image input).run = .faulted (.malformedProgram .emptyProgram)) ∧
    (∀ pre x y post, decodeProgram stream = .ok (pre ++ x :: y :: post) →
      (pre ++ [x]).Pairwise (fun x y => x.address < y.address) → y.address ≤ x.address →
      (construct stream image input).run = .faulted (.malformedProgram (.addressOrder y.address))) ∧
    (∀ c cmds, decodeProgram stream = .ok (c :: cmds) → (c :: cmds).Pairwise (fun x y => x.address < y.address) →
      256 < image.length →
      (construct stream image input).run = .faulted (.malformedProgram (.imageTooLarge image.length))) ∧
    (∀ f, (construct stream image input).run = .faulted f → step (construct stream image input) = .fault (.runFaulted f))

/-- The state right after reset with nothing passed in (70_reset_and_hazards.md section 1; the model's choice of
notes/assumptions/1.md): the construction of the empty stream, well formed, Faulted(MalformedProgram, EmptyProgram). -/
def Obligations.ResetIsTheEmptyConstruction : Prop :=
  State.reset = construct [] [] [] ∧ State.reset.wf = true ∧ State.reset.sourceLoaded ∧
    State.reset.run = .faulted (.malformedProgram .emptyProgram) ∧ State.reset.mem = [] ∧ State.reset.icnt = 0

/-- Every construction gives a well-formed state: after a good load by 10_state.md sections 2, 6, 7 and 9; after a bad one
by the model's choice of what a core whose load faulted holds, which the spec leaves open (notes/assumptions/5.md). -/
def Obligations.ConstructionIsWellFormed : Prop :=
  ∀ (stream image : List Byte) (input : List Nat), (construct stream image input).wf = true

/-! ## The step (spec/41_control_unit.md, spec/60_exceptions.md) -/

/-- When the Command at `pc` is a supported form, a step of a running core is `exec` of that instruction, with nothing
around it: there is no delay slot and `exec` itself counts and transfers control (41_control_unit.md section 1, R110). -/
def Obligations.StepRunsTheDecodedInstruction : Prop :=
  ∀ (s : State) (cmd : Command) (i : Instr), s.run = .running → fetch s = some cmd → classify cmd = .ok i →
    step s = exec i s

/-- 60_exceptions.md section 2 (R186) with 41_control_unit.md R111 to R113. Fetch is checked first, then the opcode, then
the operands; each fault changes `RUN` alone. -/
def Obligations.StepRaisesTheFirstFault : Prop :=
  ∀ s : State, s.run = .running →
    ((∀ c ∈ s.prog, c.address ≠ s.pc) →
      step s = .next { s with run := .faulted (.malformedProgram (.missingInstruction s.pc)) }) ∧
    (∀ cmd, fetch s = some cmd → 0x14 ≤ cmd.opcode.toNat →
      step s = .next { s with run := .faulted (.unknownOpcode s.pc cmd.opcode) }) ∧
    (∀ cmd, fetch s = some cmd → cmd.opcode.toNat < 0x14 → (∀ i : Instr, cmd ≠ i.toCommand cmd.address) →
      step s = .next { s with run := .faulted (.unsupportedOperand s.pc cmd.opcode) })

/-- 41_control_unit.md section 1 (R113, this spec's decision D20). An instruction that names no register or no device
raises UnsupportedOperand before any effect: `RUN` alone changes, it is not counted and `pc` stays. -/
def Obligations.OperandCheckComesBeforeAnyEffect : Prop :=
  ∀ (i : Instr) (s : State), i.wf = false →
    exec i s = .next { s with run := .faulted (.unsupportedOperand s.pc (opcodeOf i.mnemonic)) }

/-- 10_state.md section 6 (R21, this spec's decision D25) and 60_exceptions.md section 1 (R180): in a terminal state no
step is taken. That the step answers a fault there is the model's form of it (notes/assumptions/3.md). -/
def Obligations.NoStepAfterTheEnd : Prop :=
  ∀ s : State, (s.run = .halted → step s = .fault .runHalted) ∧
    (∀ f, s.run = .faulted f → step s = .fault (.runFaulted f)) ∧
    (s.run = .running → ∃ t, step s = .next t)

/-- A step of a well-formed state leaves a well-formed state: no signal open, memory canonical, addresses rising, cursor
inside the input. -/
def Obligations.StepKeepsWellFormed : Prop :=
  ∀ s t : State, s.wf = true → step s = .next t → t.wf = true

/-- 20_memory.md R55 and 10_state.md R20, R26, on every state: no step changes the program or the input sequence, so
self-modifying code is impossible. -/
def Obligations.StepKeepsProgramAndInput : Prop :=
  ∀ s t : State, step s = .next t → t.prog = s.prog ∧ t.order = s.order ∧ t.inbuf = s.inbuf

/-- 10_state.md section 7 (R27, with this spec's decision D15): from construction on, the source register holds the next
character to be delivered, and IN #0 delivers the characters of the input one after the other, the last one too, and
then 0 for ever. -/
def Obligations.SourceHoldsTheNextCharacter : Prop :=
  (∀ (stream image : List Byte) (input : List Nat), (construct stream image input).run = .running →
    (construct stream image input).sourceLoaded ∧ (construct stream image input).delivered 0) ∧
  (∀ s t : State, s.wf = true → s.sourceLoaded → step s = .next t → t.sourceLoaded) ∧
  (∀ s : State, s.sourceLoaded ↔ ∃ n, s.delivered n) ∧
  (∀ (s : State) (n : Nat), s.wf = true → s.delivered n →
    ∃ t, exec (.inI 0) s = .next t ∧ t.delivered (n + 1) ∧
      (∀ ch, s.inbuf[n]? = some ch → t.val .ior = BitVec.ofNat 8 (ch % 256)) ∧
      (n + 1 < s.inbuf.length → t.cur = s.cur + 1) ∧ (n + 1 = s.inbuf.length → t.cur = s.cur ∧ t.val .pr0 = 0) ∧
      (s.inbuf.length ≤ n → t.val .ior = 0 ∧ t.cur = s.cur))

/-- Every well-formed instruction completes, in every state: it is counted once and control goes where its rule says, to
the next address in file order, to its target, or nowhere for HLT (41_control_unit.md section 1, R110, R114 to R116). -/
def Obligations.EveryInstructionCompletes : Prop :=
  ∀ (i : Instr) (s : State), i.wf = true → ∃ t, exec i s = .next t ∧ Transferred (transferOf s i) s t

/-- 41_control_unit.md section 1 (R114): in a program with rising addresses, the next address in file order is the smallest
instruction address greater than `pc`, and there is none exactly when `pc` is the greatest. -/
def Obligations.FileOrderIsAddressOrder : Prop :=
  ∀ s : State, programOrdered s.prog = true → s.pc ∈ s.order →
    (∀ a, s.nextAddress = some a ↔ (a ∈ s.order ∧ s.pc < a ∧ ∀ b ∈ s.order, s.pc < b → a ≤ b)) ∧
    (s.nextAddress = none ↔ ∀ b ∈ s.order, b ≤ s.pc)

/-! ## Rules of the whole machine -/

/-- 10_state.md section 2 (R11 "written by") and the net-effect tables: the only registers an instruction changes are
those listed for it; none of them is left with an open signal. Every form, also one that faults. -/
def Obligations.OnlyListedRegistersChange : Prop :=
  ∀ (i : Instr) (s t : State), s.busIdle = true → exec i s = .next t →
    t.busIdle = true ∧ ∀ r, r ∉ writtenRegs i → t.val r = s.val r

/-- 20_memory.md section 3 (R48): every cell outside those the instruction stores to reads as before; the addresses are
computed from the operands and, for ST, from the address register. -/
def Obligations.OnlyStoredCellsChange : Prop :=
  ∀ (i : Instr) (s t : State), s.wf = true → exec i s = .next t →
    ∀ a : Byte, a ∉ storedCells s i → t.cell a = s.cell a

/-- 10_state.md section 4 (R16, the table of flag writers): a flag the table marks unchanged is unchanged. -/
def Obligations.OnlyListedFlagsChange : Prop :=
  ∀ (i : Instr) (s t : State), exec i s = .next t →
    ((writtenFlags i.mnemonic).n = false → t.flags.n = s.flags.n) ∧
    ((writtenFlags i.mnemonic).z = false → t.flags.z = s.flags.z) ∧
    ((writtenFlags i.mnemonic).v = false → t.flags.v = s.flags.v) ∧
    ((writtenFlags i.mnemonic).c = false → t.flags.c = s.flags.c)

/-- 44_ldst_io.md section 2 (R167) and 10_state.md R25: the devices act only inside IN and OUT. Any other instruction
leaves both device registers, the cursor and the log alone; no instruction but IN and OUT on port 1 logs anything. -/
def Obligations.DevicesActOnlyInInAndOut : Prop :=
  ∀ (i : Instr) (s t : State), s.busIdle = true → exec i s = .next t →
    (i.mnemonic ≠ .IN → i.mnemonic ≠ .OUT →
      t.val .pr0 = s.val .pr0 ∧ t.val .pr1 = s.val .pr1 ∧ t.cur = s.cur ∧ t.outlog = s.outlog) ∧
    (i ≠ .inI 1 → i ≠ .outI 1 → t.outlog = s.outlog) ∧ (i ≠ .inI 0 → i ≠ .outI 0 → t.cur = s.cur)

/-- 10_state.md section 8 (R29 c): SAR, TAR, DAR, MAR, MDR, LOP, ROP and RES carry no information from one instruction to
the next. Two cores that differ only there, and in the bus value, still differ only there after a step. -/
def Obligations.HiddenRegistersCarryNothing : Prop :=
  ∀ s t : State, SameButHidden s t → SameOutcome SameButHidden (step s) (step t)

/-- 10_state.md section 4 (R15): "No instruction reads V, and no instruction but ADD1 and ADD ... reads C", which they clear
first (R16). Two cores that differ only in V and C still differ only there after a step. -/
def Obligations.OverflowAndCarrySteerNothing : Prop :=
  ∀ s t : State, SameButVC s t → SameOutcome SameButVC (step s) (step t)

/-! ## Micro-operations (spec/40_datapath_alu.md, spec/20_memory.md, spec/10_state.md) -/

/-- 40_datapath_alu.md R83. A register with both signals closed is unaffected by any number of transfers. -/
def Obligations.ClosedRegisterIgnoresTransfers : Prop :=
  ∀ (n : Nat) (r : RegName) (s : State), (s.reg r).outputEnable = false → (s.reg r).inputEnable = false →
    (transfer^[n] s).reg r = s.reg r

/-- 40_datapath_alu.md R84. Without a driver a transfer does nothing; otherwise the first driver in registration order puts
its value on the bus and exactly the registers with their input enabled take it. -/
def Obligations.TransferBroadcastsTheFirstDriver : Prop :=
  ∀ s : State,
    ((∀ r, (s.reg r).outputEnable = false) → transfer s = s) ∧
    (∀ pre d post, [RegName.ac, .br, .cr, .ior, .sar, .tar, .dar, .mar, .mdr, .lop, .rop, .res, .pr0, .pr1] = pre ++ d :: post →
      (∀ r ∈ pre, (s.reg r).outputEnable = false) → (s.reg d).outputEnable = true →
      (transfer s).bus = s.val d ∧
      ∀ r, (transfer s).reg r = if (s.reg r).inputEnable = true then { s.reg r with value := s.val d } else s.reg r)

/-- 40_datapath_alu.md R86. On an idle bus a move gives every destination the source's value, changes no other register, no
flag and nothing else but the bus value, and leaves every signal closed. -/
def Obligations.MoveCopiesTheSource : Prop :=
  ∀ (src : RegName) (dsts : List RegName) (s : State), s.busIdle = true →
    ∃ t, moveAll src dsts s = t ∧ (∀ r, t.val r = if r ∈ dsts then s.val src else s.val r) ∧ t.busIdle = true ∧
      t.flags = s.flags ∧ t.mem = s.mem ∧ t.prog = s.prog ∧ t.pc = s.pc ∧ t.run = s.run ∧ t.icnt = s.icnt ∧
      t.inbuf = s.inbuf ∧ t.cur = s.cur ∧ t.outlog = s.outlog

/-- 40_datapath_alu.md R81. `set(v)` stores v mod 2^W and fails exactly when v is negative. -/
def Obligations.SetTruncatesAndFailsOnlyOnNegatives : Prop :=
  ∀ (r q : RegName) (v : Int) (s : State),
    (0 ≤ v → ((assign r v s).val r).toNat = v % 256 ∧ (q ≠ r → (assign r v s).val q = s.val q) ∧
      (assign r v s).run = s.run) ∧
    (v < 0 → assign r v s = { s with run := .faulted .negativeRegisterAssignment })

/-- 20_memory.md R42, R43. `mem_read` copies the addressed cell into MDR, keeps MDR's signals and changes nothing else
whatever; `mem_write` writes that one cell, and no register and nothing else; a cell never written reads 0. -/
def Obligations.MemoryReadsAndWrites : Prop :=
  ∀ s : State, Memory.wf s.mem = true →
    ((memRead s).val .mdr = s.cell (s.val .mar) ∧ (memRead s).reg .mdr = { s.reg .mdr with value := s.cell (s.val .mar) } ∧
      (∀ r, r ≠ .mdr → (memRead s).reg r = s.reg r) ∧ { memRead s with regs := s.regs } = s ∧
      memRead (memRead s) = memRead s) ∧
    ((memWrite s).cell (s.val .mar) = s.val .mdr ∧ (∀ a, a ≠ s.val .mar → (memWrite s).cell a = s.cell a) ∧
      { memWrite s with mem := s.mem } = s) ∧
    (∀ a : Byte, (∀ v, (a.toNat, v) ∉ s.mem) → s.cell a = 0)

/-- 40_datapath_alu.md section 3 (R88, R91, R92): ADD with its carry in, and SUB as ADD of the complement. RES is written,
every other register kept; the four flags are written with the default mask, the masked ones with any other. -/
def Obligations.AluAddsAndSubtracts : Prop :=
  ∀ s : State, ∃ t u, alu .add s = t ∧ alu .sub s = u ∧
    (t.val .res).toNat = ((s.val .lop).toNat + (s.val .rop).toNat + s.flags.c.toNat) % 256 ∧
    (t.flags.c = true ↔ 256 ≤ (s.val .lop).toNat + (s.val .rop).toNat + s.flags.c.toNat) ∧
    t.flags.n = negative (t.val .res) ∧ t.flags.z = decide (t.val .res = 0) ∧
    t.flags.v = ((negative (s.val .lop) == negative (s.val .rop)) && (negative (t.val .res) != negative (s.val .lop))) ∧
    ((u.val .res).toNat : Int) = ((s.val .lop).toNat - (s.val .rop).toNat : Int) % 256 ∧
    u.flags = subFlags (s.val .lop) (s.val .rop) ∧
    u.flags = (alu .add (setReg .rop (BitVec.ofNat 8 (256 - (s.val .rop).toNat)) (clearC s))).flags ∧
    (∀ r, r ≠ .res → t.val r = s.val r ∧ u.val r = s.val r) ∧
    (∀ m, aluWith .add m s = setFlags (maskedFlags m t.flags s.flags) t ∧
      aluWith .sub m s = setFlags (maskedFlags m u.flags s.flags) u)

/-- 40_datapath_alu.md R95 and R96: the steps by one of LOP and ROP, with the carry flag neither read nor written. The mask
is forced to `NZV`: the caller's mask, whatever it is, makes no difference. No register but RES changes. -/
def Obligations.AluStepsByOne : Prop :=
  ∀ s : State,
    ((alu .incl s).val .res = s.val .lop + 1 ∧ (alu .incl s).flags = stepFlags (s.val .lop) s.flags.c) ∧
    ((alu .incr s).val .res = s.val .rop + 1 ∧ (alu .incr s).flags = stepFlags (s.val .rop) s.flags.c) ∧
    ((alu .decl s).val .res = s.val .lop - 1 ∧ (alu .decl s).flags =
      ⟨negative (s.val .lop - 1), decide (s.val .lop = 1), decide (s.val .lop = 128), s.flags.c⟩) ∧
    ((alu .decr s).val .res = s.val .rop - 1 ∧ (alu .decr s).flags =
      ⟨negative (s.val .rop - 1), decide (s.val .rop = 1), decide (s.val .rop = 128), s.flags.c⟩) ∧
    (∀ op ∈ [AluOp.incl, .incr, .decl, .decr], (∀ m, aluWith op m s = alu op s) ∧
      ∀ r, r ≠ .res → (alu op s).val r = s.val r)

/-- 40_datapath_alu.md R97, R98 and R93, R94 (V and C of AND and OR are this spec's decision D13): the shifts write C alone,
whatever mask the caller gives, and SHR always clears it; AND and OR give V = C = 0 where the mask asks for them, and
keep every flag it leaves out. -/
def Obligations.AluShiftsAndLogic : Prop :=
  ∀ s : State,
    (((alu .shl s).val .res).toNat = (s.val .lop).toNat * 2 ^ (s.val .rop).toNat % 256 ∧
      (alu .shl s).flags = { s.flags with c := decide (256 ≤ (s.val .lop).toNat * 2 ^ (s.val .rop).toNat) }) ∧
    (((alu .shr s).val .res).toNat = (s.val .lop).toNat / 2 ^ (s.val .rop).toNat ∧
      (alu .shr s).flags = { s.flags with c := false }) ∧
    (∀ m, aluWith .shl m s = alu .shl s ∧ aluWith .shr m s = alu .shr s) ∧
    (∀ op res, (op = .and ∧ res = s.val .lop &&& s.val .rop) ∨ (op = .or ∧ res = s.val .lop ||| s.val .rop) →
      (alu op s).val .res = res ∧ (alu op s).flags = ⟨negative res, decide (res = 0), false, false⟩ ∧
      ∀ m, aluWith op m s = setFlags (maskedFlags m ⟨negative res, decide (res = 0), false, false⟩ s.flags) (alu op s)) ∧
    (∀ op r, r ≠ .res → (alu op s).val r = s.val r)

/-- 10_state.md section 7 (R27, R28): what the two hooks do. -/
def Obligations.HooksAdvanceAndLog : Prop :=
  ∀ s : State,
    (s.inbuf.length ≤ s.cur → (hook .source s).val .pr0 = 0 ∧ (hook .source s).cur = s.cur) ∧
    (∀ h : s.cur < s.inbuf.length,
      ((hook .source s).val .pr0).toNat = s.inbuf[s.cur] % 256 ∧ (hook .source s).cur = s.cur + 1) ∧
    (∀ r, r ≠ .pr0 → (hook .source s).val r = s.val r) ∧ (hook .source s).outlog = s.outlog ∧
    hook .sink s = { s with outlog := s.outlog ++ [s.val .pr1] }

/-! ## Control unit and jumps -/

/-- 41_control_unit.md R117. NOP: no operands, record `addr 0x00`; no datapath effect, advance; the only fault is
NoNextInstruction. -/
def Obligations.NopOnlyAdvances : Prop :=
  EncodedAs [0x00] .nop ∧
  ∀ s : State, ∃ t, exec .nop s = .next t ∧ SameDatapath s t ∧ Advanced s t

/-- 41_control_unit.md R118. HLT: record `addr 0x01`; the run ends normally, HLT is counted, and nothing else changes. -/
def Obligations.HltEndsTheRun : Prop :=
  EncodedAs [0x01] .hlt ∧
  ∀ s : State, ∃ t, exec .hlt s = .next t ∧ SameDatapath s t ∧ t.run = .halted ∧ t.endedNormally = true ∧
    t.icnt = s.icnt + 1 ∧ t.pc = s.pc

/-- 45_jumps.md R171, R172, R173. JE jumps on Z = 1, JNE on Z = 0, JAE on N = 0, and otherwise each advances; no flag and
nothing of the datapath changes. -/
def Obligations.ConditionalJumps : Prop :=
  ∀ (target : Byte) (x : BitVec 4),
    EncodedAs [0x10, 0b1000#4 ++ x, target] (.jeI target) ∧ EncodedAs [0x11, 0b1000#4 ++ x, target] (.jneI target) ∧
    EncodedAs [0x12, 0b1000#4 ++ x, target] (.jaeI target) ∧
    ∀ s : State,
      (∃ t, exec (.jeI target) s = .next t ∧ SameDatapath s t ∧
        (s.flags.z = true → JumpedTo target s t) ∧ (s.flags.z = false → Advanced s t)) ∧
      (∃ t, exec (.jneI target) s = .next t ∧ SameDatapath s t ∧
        (s.flags.z = false → JumpedTo target s t) ∧ (s.flags.z = true → Advanced s t)) ∧
      (∃ t, exec (.jaeI target) s = .next t ∧ SameDatapath s t ∧
        (s.flags.n = false → JumpedTo target s t) ∧ (s.flags.n = true → Advanced s t))

/-- 45_jumps.md R174. JMP always jumps, also to its own address; a target where the program has no instruction is noticed
by the next fetch only. -/
def Obligations.UnconditionalJump : Prop :=
  ∀ (target : Byte) (x : BitVec 4), EncodedAs [0x13, 0b1000#4 ++ x, target] (.jmpI target) ∧
    ∀ s : State, ∃ t, exec (.jmpI target) s = .next t ∧ SameDatapath s t ∧ JumpedTo target s t ∧
      (s.run = .running → (∀ c ∈ s.prog, c.address ≠ target) →
        step t = .next { t with run := .faulted (.malformedProgram (.missingInstruction target)) })

/-! ## MOV and MOV4 -/

/-- 42_mov.md section 1 (R126): MOV to a register. AC, BR and the destination hold the byte moved, also when the destination
is AC or BR; a memory source leaves its address in MAR and the byte in MDR; no flag and no cell changes. -/
def Obligations.MovToRegister : Prop :=
  ∀ (k src : Byte) (r : RegName) (s : State), s.wf = true → xreg? k = some r →
    (∃ t, exec (.movRI k src) s = .next t ∧ Advanced s t ∧ t.val r = src ∧ t.val .ac = src ∧ t.val .br = src ∧
      t.flags = s.flags ∧ SameDevices s t ∧ Frame [.ac, .br, r] [] s t) ∧
    (∃ t, exec (.movRM k src) s = .next t ∧ Advanced s t ∧ t.val r = s.cell src ∧ t.val .ac = s.cell src ∧
      t.val .br = s.cell src ∧ t.val .mar = src ∧ t.val .mdr = s.cell src ∧
      t.flags = s.flags ∧ SameDevices s t ∧ Frame [.ac, .br, .mar, .mdr, r] [] s t)

/-- 42_mov.md section 1 (R126, R127): MOV to a memory cell, the destination memory-direct or immediate alike. The source
cell is read before the destination is written. -/
def Obligations.MovToMemory : Prop :=
  ∀ (d src v : Byte) (i : Instr) (s : State), s.wf = true →
    (i = .movMI d src ∧ v = src) ∨ (i = .movII d src ∧ v = src) ∨ (i = .movMM d src ∧ v = s.cell src) ∨
      (i = .movIM d src ∧ v = s.cell src) →
    ∃ t, exec i s = .next t ∧ Advanced s t ∧ t.cell d = v ∧ t.val .ac = v ∧ t.val .br = v ∧ t.val .mar = d ∧
      t.val .mdr = v ∧ t.flags = s.flags ∧ SameDevices s t ∧ Frame [.ac, .br, .mar, .mdr] [d] s t

/-- 42_mov.md section 2 (R128, R129): MOV4 of an immediate writes the byte and three zero limbs, addresses mod 256; N, Z, V
are left by the last address step (this spec's decision D8) and C is kept. -/
def Obligations.Mov4Immediate : Prop :=
  ∀ (d v : Byte) (s : State), s.wf = true →
    ∃ t, exec (.mov4MI d v) s = .next t ∧ Advanced s t ∧
      t.cell d = v ∧ t.cell (d + 1) = 0 ∧ t.cell (d + 2) = 0 ∧ t.cell (d + 3) = 0 ∧ t.cell4 d = v.toNat ∧
      t.val .ac = 0 ∧ t.val .br = 0 ∧ t.val .mdr = 0 ∧ t.val .dar = d + 3 ∧ t.val .mar = d + 3 ∧ t.val .res = d + 3 ∧
      t.val .rop = d + 2 ∧ t.flags = stepFlags (d + 2) s.flags.c ∧ SameDevices s t ∧
      Frame [.ac, .br, .mdr, .dar, .mar, .res, .rop] (fourCells d) s t

/-- 42_mov.md section 2 (R128, R129): MOV4 of four cells, limb by limb, each read after the writes of the earlier rounds,
so that overlapping ranges feed back as the rule says; the registers and flags it leaves. -/
def Obligations.Mov4MemoryLimbByLimb : Prop :=
  ∀ (d a : Byte) (s : State), s.wf = true →
    ∃ (t : State) (m : Nat → Byte → Byte), exec (.mov4MM d a) s = .next t ∧ Advanced s t ∧
      m 0 = s.cell ∧
      (∀ i : Nat, i < 4 → m (i + 1) = Function.update (m i) (d + BitVec.ofNat 8 i) (m i (a + BitVec.ofNat 8 i))) ∧
      t.cell = m 4 ∧
      t.val .ac = m 3 (a + 3) ∧ t.val .br = m 3 (a + 3) ∧ t.val .mdr = m 3 (a + 3) ∧ t.val .sar = a + 3 ∧
      t.val .dar = d + 3 ∧ t.val .mar = d + 3 ∧ t.val .res = d + 3 ∧ t.val .rop = d + 2 ∧
      t.flags = stepFlags (d + 2) s.flags.c ∧ SameDevices s t ∧
      Frame [.ac, .br, .mdr, .sar, .dar, .mar, .res, .rop] (fourCells d) s t

/-- 42_mov.md section 2 (R129, R130): where the destination does not overlap the source from above, MOV4 moves the whole
32-bit value. With the destination one above, all four cells end up equal to the first source cell. -/
def Obligations.Mov4MovesThe32BitValue : Prop :=
  ∀ (d a : Byte) (s t : State), s.wf = true → exec (.mov4MM d a) s = .next t →
    (d ≠ a + 1 → d ≠ a + 2 → d ≠ a + 3 → t.cell4 d = s.cell4 a) ∧
    (d = a + 1 → ∀ b ∈ fourCells d, t.cell b = s.cell a)

/-! ## Arithmetic -/

/-- 43_arith.md R140. ADD1: the encoding, the sum mod 256 with the carry flag cleared first, the four flags, the registers
it leaves, its frame, and UnsupportedOperand for every other operand list. -/
def Obligations.Add1AddsAnImmediate : Prop :=
  (∀ (k v : Byte) (x : BitVec 2), EncodedAs [0x04, 0b111000#6 ++ x, k, v] (.add1RI k v)) ∧
  (∀ (k v : Byte) (r : RegName) (s : State), s.wf = true → xreg? k = some r →
    ∃ t, exec (.add1RI k v) s = .next t ∧ Advanced s t ∧
      (t.val r).toNat = ((s.val r).toNat + v.toNat) % 256 ∧ t.val .lop = s.val r ∧ t.val .rop = v ∧
      t.val .res = t.val r ∧ t.flags = addFlags (s.val r) v ∧ SameDevices s t ∧ Frame [.lop, .rop, .res, r] [] s t) ∧
  RejectsOthers 0x04 (fun ops => ∃ k v : Byte, k.toNat < 4 ∧ ops = [⟨.reg, k⟩, ⟨.imm, v⟩])

/-- 43_arith.md section 2 (R142, R143): ADD in its four forms, limb by limb, low limb first, the carry chained, each limb
read after the writes of the earlier rounds; the registers it leaves; C the last carry, N, Z, V those of the last address
step (this spec's decision D9). -/
def Obligations.AddLimbByLimb : Prop :=
  ∀ (d : Byte) (left right : LimbSource) (s : State), s.wf = true →
    ∃ (t : State) (m : Nat → Byte → Byte) (c : Nat → Nat), exec (addInstr d left right) s = .next t ∧ Advanced s t ∧
      m 0 = s.cell ∧ c 0 = 0 ∧
      (∀ i : Nat, i < 4 → ∃ raw, raw = (limbIn (m i) left i).toNat + (limbIn (m i) right i).toNat + c i ∧
        m (i + 1) = Function.update (m i) (d + BitVec.ofNat 8 i) (BitVec.ofNat 8 raw) ∧
        c (i + 1) = if 256 ≤ raw then 1 else 0) ∧
      t.cell = m 4 ∧ t.flags = stepFlags (d + 3) (decide (c 4 = 1)) ∧
      t.val .sar = steppedFour (s.val .sar) left ∧ t.val .tar = steppedFour (s.val .tar) right ∧
      t.val .dar = d + 4 ∧ t.val .res = d + 4 ∧ t.val .rop = d + 3 ∧ t.val .mar = d + 3 ∧ t.val .mdr = t.cell (d + 3) ∧
      t.val .lop = limbIn (m 3) left 3 ∧ SameDevices s t ∧
      Frame [.sar, .tar, .dar, .res, .rop, .mar, .mdr, .lop] (fourCells d) s t

/-- 43_arith.md section 2 (R143): where no destination cell is read as a later source limb, ADD is 32-bit addition, and C
is 1 exactly when the sum does not fit; in particular in place. -/
def Obligations.AddIs32BitAddition : Prop :=
  ∀ (d : Byte) (left right : LimbSource) (s : State), s.wf = true → noFeedback d left → noFeedback d right →
    ∃ t, exec (addInstr d left right) s = .next t ∧
      t.cell4 d = (sourceValue s left + sourceValue s right) % 2 ^ 32 ∧
      (t.flags.c = true ↔ 2 ^ 32 ≤ sourceValue s left + sourceValue s right)

/-- 43_arith.md section 3 (R145; the operand list is this spec's decisions D4, D10): SUB of one limb, immediate minus memory,
the cell read before the write, the other cells of the destination untouched, no address stepped; every other operand list
is unsupported. -/
def Obligations.SubOneLimb : Prop :=
  (∀ (d v r : Byte), EncodedAs [0x06, 0b01100100, d, v, r] (.subMIM d v r)) ∧
  (∀ (d v r : Byte) (s : State), s.wf = true →
    ∃ t, exec (.subMIM d v r) s = .next t ∧ Advanced s t ∧
      ((t.cell d).toNat : Int) = (v.toNat - (s.cell r).toNat : Int) % 256 ∧
      t.val .dar = d ∧ t.val .mar = d ∧ t.val .tar = r ∧ t.val .lop = v ∧ t.val .rop = s.cell r ∧
      t.val .res = t.cell d ∧ t.val .mdr = t.cell d ∧ t.flags = subFlags v (s.cell r) ∧ SameDevices s t ∧
      Frame [.dar, .tar, .mar, .mdr, .lop, .rop, .res] [d] s t) ∧
  RejectsOthers 0x06 (fun ops => ∃ d v r : Byte, ops = [⟨.mem, d⟩, ⟨.imm, v⟩, ⟨.mem, r⟩])

/-- 43_arith.md section 4 (R147): the memory form of CMP is decided at the highest limb that differs, or at limb 0; its flags
are those of that one SUB, and Z = 1 exactly when the 32-bit values are equal; memory is not written. -/
def Obligations.CmpMemory : Prop :=
  ∀ (l r : Byte) (s : State), s.wf = true →
    ∃ (t : State) (j : Nat) (a b : Byte), exec (.cmpMM l r) s = .next t ∧ Advanced s t ∧ j ≤ 3 ∧
      (∀ i : Nat, j < i → i ≤ 3 → s.cell (l + BitVec.ofNat 8 i) = s.cell (r + BitVec.ofNat 8 i)) ∧
      a = s.cell (l + BitVec.ofNat 8 j) ∧ b = s.cell (r + BitVec.ofNat 8 j) ∧ (a ≠ b ∨ j = 0) ∧
      t.flags = subFlags a b ∧ (t.flags.z = true ↔ s.cell4 l = s.cell4 r) ∧
      t.val .sar = l + BitVec.ofNat 8 j ∧ t.val .tar = r + BitVec.ofNat 8 j ∧ t.val .mar = r + BitVec.ofNat 8 j ∧
      t.val .lop = a ∧ t.val .rop = b ∧ t.val .mdr = b ∧ t.val .res = a - b ∧ SameDevices s t ∧
      Frame [.sar, .tar, .mar, .mdr, .lop, .rop, .res] [] s t

/-- 43_arith.md section 4 (R148; that the reversed order is unsupported is this spec's decision D11): the register form of
CMP. -/
def Obligations.CmpRegister : Prop :=
  (∀ (k v : Byte) (x : BitVec 2), EncodedAs [0x07, 0b111000#6 ++ x, k, v] (.cmpRI k v)) ∧
  (∀ (k v : Byte) (r : RegName) (s : State), s.wf = true → xreg? k = some r →
    ∃ t, exec (.cmpRI k v) s = .next t ∧ Advanced s t ∧ t.val .lop = s.val r ∧ t.val .rop = v ∧
      ((t.val .res).toNat : Int) = ((s.val r).toNat - v.toNat : Int) % 256 ∧ t.flags = subFlags (s.val r) v ∧
      SameDevices s t ∧ Frame [.lop, .rop, .res] [] s t) ∧
  RejectsOthers 0x07 (fun ops => (∃ l r : Byte, ops = [⟨.mem, l⟩, ⟨.mem, r⟩]) ∨
    ∃ k v : Byte, k.toNat < 4 ∧ ops = [⟨.reg, k⟩, ⟨.imm, v⟩])

/-- 70_reset_and_hazards.md section 4 (R214) and 43_arith.md R149: after the register form of CMP, JAE is taken exactly when
the difference mod 256 is below 128, which is the unsigned order while the values differ by less than 128 and its opposite
otherwise. -/
def Obligations.JaeAfterCmp : Prop :=
  ∀ (k v target : Byte) (r : RegName) (s : State), s.wf = true → xreg? k = some r →
    ∃ t u, exec (.cmpRI k v) s = .next t ∧ exec (.jaeI target) t = .next u ∧
      (s.val r - v < 128 → JumpedTo target t u) ∧ (128 ≤ s.val r - v → Advanced t u) ∧
      (((s.val r).toNat - v.toNat : Int) ∈ Set.Icc (-128 : Int) 127 → (s.val r - v < 128 ↔ v ≤ s.val r)) ∧
      (((s.val r).toNat - v.toNat : Int) ∉ Set.Icc (-128 : Int) 127 → (s.val r - v < 128 ↔ ¬ v ≤ s.val r))

/-- 43_arith.md R150. SHL: the encoding, the result, C alone of the flags, the frame, and UnsupportedOperand for every other
operand list. The amount is not reduced mod 8. -/
def Obligations.ShlShiftsLeft : Prop :=
  (∀ (k n : Byte) (x : BitVec 2), EncodedAs [0x08, 0b111000#6 ++ x, k, n] (.shlRI k n)) ∧
  (∀ (k n : Byte) (r : RegName) (s : State), s.wf = true → xreg? k = some r →
    ∃ t, exec (.shlRI k n) s = .next t ∧ Advanced s t ∧
      (t.val r).toNat = (s.val r).toNat * 2 ^ n.toNat % 256 ∧ t.val .lop = s.val r ∧ t.val .rop = n ∧
      t.val .res = t.val r ∧ t.flags = { s.flags with c := decide (256 ≤ (s.val r).toNat * 2 ^ n.toNat) } ∧
      (n = 0 → t.val r = s.val r ∧ t.flags.c = false) ∧
      (8 ≤ n.toNat → t.val r = 0 ∧ (t.flags.c = true ↔ s.val r ≠ 0)) ∧
      SameDevices s t ∧ Frame [.lop, .rop, .res, r] [] s t) ∧
  RejectsOthers 0x08 (fun ops => ∃ k n : Byte, k.toNat < 4 ∧ ops = [⟨.reg, k⟩, ⟨.imm, n⟩])

/-- 43_arith.md R151. SHR: as SHL; the shift is logical and C is always cleared. -/
def Obligations.ShrShiftsRight : Prop :=
  (∀ (k n : Byte) (x : BitVec 2), EncodedAs [0x09, 0b111000#6 ++ x, k, n] (.shrRI k n)) ∧
  (∀ (k n : Byte) (r : RegName) (s : State), s.wf = true → xreg? k = some r →
    ∃ t, exec (.shrRI k n) s = .next t ∧ Advanced s t ∧
      (t.val r).toNat = (s.val r).toNat / 2 ^ n.toNat ∧ t.val .lop = s.val r ∧ t.val .rop = n ∧
      t.val .res = t.val r ∧ t.flags = { s.flags with c := false } ∧
      (n = 0 → t.val r = s.val r) ∧ (8 ≤ n.toNat → t.val r = 0) ∧
      SameDevices s t ∧ Frame [.lop, .rop, .res, r] [] s t) ∧
  RejectsOthers 0x09 (fun ops => ∃ k n : Byte, k.toNat < 4 ∧ ops = [⟨.reg, k⟩, ⟨.imm, n⟩])

/-- 43_arith.md R152. INC: the encoding, the result mod 256, N, Z, V with C unchanged, ROP unchanged, the frame, and
UnsupportedOperand for every other operand list. -/
def Obligations.IncAddsOne : Prop :=
  (∀ (k : Byte) (x : BitVec 4), EncodedAs [0x0A, 0b1100#4 ++ x, k] (.incR k)) ∧
  (∀ (k : Byte) (r : RegName) (s : State), s.wf = true → xreg? k = some r →
    ∃ t, exec (.incR k) s = .next t ∧ Advanced s t ∧
      (t.val r).toNat = ((s.val r).toNat + 1) % 256 ∧ t.val .lop = s.val r ∧ t.val .res = t.val r ∧
      t.flags = ⟨negative (t.val r), decide (s.val r = 255), decide (s.val r = 127), s.flags.c⟩ ∧
      SameDevices s t ∧ Frame [.lop, .res, r] [] s t) ∧
  RejectsOthers 0x0A (fun ops => ∃ k : Byte, k.toNat < 4 ∧ ops = [⟨.reg, k⟩])

/-- 43_arith.md R153. DEC: as INC with the result one less. -/
def Obligations.DecSubtractsOne : Prop :=
  (∀ (k : Byte) (x : BitVec 4), EncodedAs [0x0B, 0b1100#4 ++ x, k] (.decR k)) ∧
  (∀ (k : Byte) (r : RegName) (s : State), s.wf = true → xreg? k = some r →
    ∃ t, exec (.decR k) s = .next t ∧ Advanced s t ∧
      (t.val r).toNat = ((s.val r).toNat + 255) % 256 ∧ t.val .lop = s.val r ∧ t.val .res = t.val r ∧
      t.flags = ⟨negative (t.val r), decide (s.val r = 1), decide (s.val r = 128), s.flags.c⟩ ∧
      SameDevices s t ∧ Frame [.lop, .res, r] [] s t) ∧
  RejectsOthers 0x0B (fun ops => ∃ k : Byte, k.toNat < 4 ∧ ops = [⟨.reg, k⟩])

/-! ## Load, store and ports -/

/-- 44_ldst_io.md R160. LD: the encoding, the load with the address taken before the register is overwritten, MAR and MDR,
no flag, the frame, and UnsupportedOperand for every other operand list. -/
def Obligations.LdLoadsFromTheNamedCell : Prop :=
  (∀ (a k : Byte) (x : BitVec 2), EncodedAs [0x0C, 0b111100#6 ++ x, a, k] (.ldRR a k)) ∧
  (∀ (a k : Byte) (ra rt : RegName) (s : State), s.wf = true → xreg? a = some ra → xreg? k = some rt →
    ∃ t, exec (.ldRR a k) s = .next t ∧ Advanced s t ∧ t.val rt = s.cell (s.val ra) ∧ t.val .mar = s.val ra ∧
      t.val .mdr = s.cell (s.val ra) ∧ t.flags = s.flags ∧ SameDevices s t ∧ Frame [.mar, .mdr, rt] [] s t) ∧
  RejectsOthers 0x0C (fun ops => ∃ a k : Byte, a.toNat < 4 ∧ k.toNat < 4 ∧ ops = [⟨.reg, a⟩, ⟨.reg, k⟩])

/-- 44_ldst_io.md R161. ST: the encoding, the store to the cell the address register names, MAR and MDR, no
programmer-visible register and no flag, the frame, and UnsupportedOperand for every other operand list. -/
def Obligations.StStoresToTheNamedCell : Prop :=
  (∀ (a k : Byte) (x : BitVec 2), EncodedAs [0x0D, 0b111100#6 ++ x, a, k] (.stRR a k)) ∧
  (∀ (a k : Byte) (ra rt : RegName) (s : State), s.wf = true → xreg? a = some ra → xreg? k = some rt →
    ∃ t, exec (.stRR a k) s = .next t ∧ Advanced s t ∧ t.cell (s.val ra) = s.val rt ∧ t.val .mar = s.val ra ∧
      t.val .mdr = s.val rt ∧ t.flags = s.flags ∧ SameDevices s t ∧ Frame [.mar, .mdr] [s.val ra] s t) ∧
  RejectsOthers 0x0D (fun ops => ∃ a k : Byte, a.toNat < 4 ∧ k.toNat < 4 ∧ ops = [⟨.reg, a⟩, ⟨.reg, k⟩])

/-- 44_ldst_io.md section 2 (R164; the fault on other ports is this spec's decision D16): IN on the source delivers the
current character and loads the next; IN on the sink reads its register back and logs it once more. -/
def Obligations.InReadsThePort : Prop :=
  (∀ (p : Byte) (x : BitVec 4), EncodedAs [0x0E, 0b1000#4 ++ x, p] (.inI p)) ∧
  (∀ s : State, s.wf = true →
    (∃ t, exec (.inI 0) s = .next t ∧ Advanced s t ∧ t.val .ior = s.val .pr0 ∧ t.flags = s.flags ∧
      (∀ ch, s.inbuf[s.cur]? = some ch → t.val .pr0 = BitVec.ofNat 8 (ch % 256) ∧ t.cur = s.cur + 1) ∧
      (s.inbuf[s.cur]? = none → t.val .pr0 = 0 ∧ t.cur = s.cur) ∧ t.outlog = s.outlog ∧ Frame [.ior, .pr0] [] s t) ∧
    (∃ t, exec (.inI 1) s = .next t ∧ Advanced s t ∧ t.val .ior = s.val .pr1 ∧ t.flags = s.flags ∧
      t.outlog = s.outlog ++ [s.val .pr1] ∧ t.cur = s.cur ∧ Frame [.ior] [] s t)) ∧
  RejectsOthers 0x0E (fun ops => ops = [⟨.imm, 0⟩] ∨ ops = [⟨.imm, 1⟩])

/-- 44_ldst_io.md section 2 (R165; the fault on other ports is this spec's decision D16): OUT on the sink logs IOR; OUT on
the source loses the written value and skips one input character. -/
def Obligations.OutWritesThePort : Prop :=
  (∀ (p : Byte) (x : BitVec 4), EncodedAs [0x0F, 0b1000#4 ++ x, p] (.outI p)) ∧
  (∀ s : State, s.wf = true →
    (∃ t, exec (.outI 1) s = .next t ∧ Advanced s t ∧ t.val .pr1 = s.val .ior ∧ t.flags = s.flags ∧
      t.outlog = s.outlog ++ [s.val .ior] ∧ t.cur = s.cur ∧ Frame [.pr1] [] s t) ∧
    (∃ t, exec (.outI 0) s = .next t ∧ Advanced s t ∧ t.flags = s.flags ∧
      (∀ ch, s.inbuf[s.cur]? = some ch → t.val .pr0 = BitVec.ofNat 8 (ch % 256) ∧ t.cur = s.cur + 1) ∧
      (s.inbuf[s.cur]? = none → t.val .pr0 = 0 ∧ t.cur = s.cur) ∧ t.outlog = s.outlog ∧ Frame [.pr0] [] s t)) ∧
  RejectsOthers 0x0F (fun ops => ops = [⟨.imm, 0⟩] ∨ ops = [⟨.imm, 1⟩])

/-! ## The model's form of data memory -/

/-- The model's own form of the sparse mapping of 10_state.md R19 (notes/assumptions/17.md): every memory operation keeps it
canonical, and canonical memories in which every cell reads alike are equal data. -/
def Obligations.DataMemoryIsCanonical : Prop :=
  (∀ (s : State) (a v : Byte), Memory.wf s.mem = true →
    Memory.wf (memRead s).mem = true ∧ Memory.wf (memWrite s).mem = true ∧ Memory.wf (putCell a v s).mem = true) ∧
  (∀ s t : State, Memory.wf s.mem = true → Memory.wf t.mem = true → (∀ a : Byte, s.cell a = t.cell a) → s.mem = t.mem)
end

