-- ==== Sys2Proof/Laws/Memory.lean ====
section
/-! SUPPORT. Data memory: the canonical form, its preservation, and the laws of reading and writing. -/

namespace Sys2Proof.Machine

/-- A memory in canonical form from an address on is in canonical form from any smaller one. -/
theorem Memory.wfFrom_mono {low low' : Nat} (h : low' ≤ low) :
    ∀ {m : Memory}, Memory.wfFrom low m = true → Memory.wfFrom low' m = true
  | [], _ => rfl
  | (a, v) :: rest, hm => by
    simp only [Memory.wfFrom, Bool.and_eq_true, decide_eq_true_eq] at hm ⊢
    exact ⟨⟨⟨by omega, hm.1.1.2⟩, hm.1.2⟩, hm.2⟩

/-- Below the first listed address every cell reads 0. -/
theorem Memory.get_below {a low : Nat} (h : a < low) :
    ∀ {m : Memory}, Memory.wfFrom low m = true → Memory.get a m = 0
  | [], _ => rfl
  | (b, w) :: rest, hm => by
    simp only [Memory.wfFrom, Bool.and_eq_true, decide_eq_true_eq] at hm
    have hb : ¬ a = b := by omega
    simp only [Memory.get, hb, if_false]
    exact Memory.get_below (low := b + 1) (by omega) hm.2

/-- Outside the address space every cell reads 0. -/
theorem Memory.get_above {a : Nat} (h : 2 ^ Config.addrWidth ≤ a) :
    ∀ {low : Nat} {m : Memory}, Memory.wfFrom low m = true → Memory.get a m = 0
  | _, [], _ => rfl
  | low, (b, w) :: rest, hm => by
    simp only [Memory.wfFrom, Bool.and_eq_true, decide_eq_true_eq] at hm
    have hb : ¬ a = b := by omega
    simp only [Memory.get, hb, if_false]
    exact Memory.get_above h hm.2

/-- A write keeps the canonical form. -/
theorem Memory.wfFrom_put {a : Nat} (v : Byte) (ha : a < 2 ^ Config.addrWidth) :
    ∀ {low : Nat} {m : Memory}, low ≤ a → Memory.wfFrom low m = true → Memory.wfFrom low (Memory.put a v m) = true
  | low, [], hl, _ => by
    by_cases hv : v = 0
    · simp [Memory.put, hv, Memory.wfFrom]
    · simp only [Memory.put, hv, if_false, Memory.wfFrom, Bool.and_eq_true, decide_eq_true_eq]
      exact ⟨⟨⟨hl, ha⟩, hv⟩, trivial⟩
  | low, (b, w) :: rest, hl, hm => by
    simp only [Memory.wfFrom, Bool.and_eq_true, decide_eq_true_eq] at hm
    obtain ⟨⟨⟨hlb, hb⟩, hw⟩, hrest⟩ := hm
    simp only [Memory.put]
    by_cases hab : a < b
    · by_cases hv : v = 0
      · simp only [hab, hv, if_true, Memory.wfFrom, Bool.and_eq_true, decide_eq_true_eq]
        exact ⟨⟨⟨hlb, hb⟩, hw⟩, hrest⟩
      · simp only [hab, hv, if_true, if_false, Memory.wfFrom, Bool.and_eq_true, decide_eq_true_eq]
        exact ⟨⟨⟨hl, ha⟩, hv⟩, ⟨⟨by omega, hb⟩, hw⟩, hrest⟩
    · by_cases he : a = b
      · subst he
        by_cases hv : v = 0
        · simp only [hv, Nat.lt_irrefl, if_true, if_false]
          exact Memory.wfFrom_mono (by omega) hrest
        · simp only [hv, Nat.lt_irrefl, if_true, if_false, Memory.wfFrom, Bool.and_eq_true, decide_eq_true_eq]
          exact ⟨⟨⟨hl, ha⟩, hv⟩, hrest⟩
      · simp only [hab, he, if_false, Memory.wfFrom, Bool.and_eq_true, decide_eq_true_eq]
        exact ⟨⟨⟨hlb, hb⟩, hw⟩, Memory.wfFrom_put v ha (by omega) hrest⟩

/-- A write keeps the canonical form of data memory. -/
theorem Memory.wf_put {a : Nat} {v : Byte} {m : Memory} (ha : a < 2 ^ Config.addrWidth) (h : Memory.wf m = true) :
    Memory.wf (Memory.put a v m) = true :=
  Memory.wfFrom_put v ha (Nat.zero_le a) h

/-- Reading after a write, from an address on. -/
theorem Memory.get_put_from {a : Nat} (v : Byte) (b : Nat) :
    ∀ {low : Nat} {m : Memory}, Memory.wfFrom low m = true →
      Memory.get b (Memory.put a v m) = if b = a then v else Memory.get b m
  | low, [], _ => by
    simp only [Memory.put]
    by_cases hv : v = 0 <;> by_cases hb : b = a <;> simp only [hv, hb, if_true, if_false, Memory.get]
  | low, (c, w) :: rest, hm => by
    simp only [Memory.wfFrom, Bool.and_eq_true, decide_eq_true_eq] at hm
    have hrest := hm.2
    simp only [Memory.put]
    by_cases hac : a < c
    · by_cases hv : v = 0
      · simp only [hac, hv, if_true]
        by_cases hb : b = a
        · subst hb
          have : ¬ b = c := by omega
          simp only [Memory.get, this, if_true, if_false]
          exact Memory.get_below (low := c + 1) (by omega) hrest
        · simp [hb]
      · simp only [hac, hv, if_true, if_false]
        by_cases hb : b = a <;> simp [Memory.get, hb]
    · by_cases he : a = c
      · subst he
        by_cases hv : v = 0
        · simp only [hv, Nat.lt_irrefl, if_true, if_false]
          by_cases hb : b = a
          · subst hb
            simp only [if_true]
            exact Memory.get_below (low := b + 1) (by omega) hrest
          · simp [Memory.get, hb]
        · simp only [hv, Nat.lt_irrefl, if_true, if_false]
          by_cases hb : b = a <;> simp [Memory.get, hb]
      · simp only [hac, he, if_false, Memory.get]
        by_cases hbc : b = c
        · subst hbc
          have : ¬ b = a := fun h => he h.symm
          simp [this]
        · simp only [hbc, if_false]
          exact Memory.get_put_from v b hrest

/-- A read after a write gives the value written at its address and what was there elsewhere. -/
theorem Memory.get_put {a : Nat} {v : Byte} {m : Memory} (h : Memory.wf m = true) (b : Nat) :
    Memory.get b (Memory.put a v m) = if b = a then v else Memory.get b m :=
  Memory.get_put_from v b h

/-- Memories in canonical form that read alike are equal, from an address on. -/
theorem Memory.ext_from : ∀ {low : Nat} {m m' : Memory}, Memory.wfFrom low m = true → Memory.wfFrom low m' = true →
    (∀ a, Memory.get a m = Memory.get a m') → m = m'
  | _, [], [], _, _, _ => rfl
  | low, [], (b, w) :: rest, _, h', he => by
    simp only [Memory.wfFrom, Bool.and_eq_true, decide_eq_true_eq] at h'
    exact absurd (by simpa [Memory.get] using (he b).symm) h'.1.2
  | low, (b, w) :: rest, [], h, _, he => by
    simp only [Memory.wfFrom, Bool.and_eq_true, decide_eq_true_eq] at h
    exact absurd (by simpa [Memory.get] using he b) h.1.2
  | low, (b, w) :: rest, (c, x) :: rest', h, h', he => by
    simp only [Memory.wfFrom, Bool.and_eq_true, decide_eq_true_eq] at h h'
    have hbc : b = c := by
      by_contra hne
      rcases Nat.lt_or_gt_of_ne hne with hlt | hlt
      · have := he b
        simp only [Memory.get, if_true, hne, if_false] at this
        rw [Memory.get_below (low := c + 1) (by omega) h'.2] at this
        exact h.1.2 this
      · have := he c
        have hne' : ¬ c = b := fun e => hne e.symm
        simp only [Memory.get, if_true, hne', if_false] at this
        rw [Memory.get_below (low := b + 1) (by omega) h.2] at this
        exact h'.1.2 this.symm
    subst hbc
    have hw : w = x := by simpa [Memory.get] using he b
    subst hw
    have hrest : rest = rest' := by
      refine Memory.ext_from h.2 h'.2 fun a => ?_
      by_cases hab : a = b
      · subst hab
        rw [Memory.get_below (low := a + 1) (by omega) h.2, Memory.get_below (low := a + 1) (by omega) h'.2]
      · simpa [Memory.get, hab] using he a
    rw [hrest]

/-- Memories in canonical form that read alike are equal. -/
theorem Memory.ext {m m' : Memory} (h : Memory.wf m = true) (h' : Memory.wf m' = true)
    (he : ∀ a, Memory.get a m = Memory.get a m') : m = m' :=
  Memory.ext_from h h' he

end Sys2Proof.Machine
end

