-- ==== Sys2Proof/Laws/State.lean ====
section
/-! SUPPORT. One lemma per field and update of the state, so that no later proof unfolds a record update. -/

namespace Sys2Proof.Machine

/-! ## Registers read after a register write -/

@[simp] theorem RegFile.get_put (f : RegFile) (x : Register) (r q : RegName) :
    (f.put x r).get q = if q = r then x else f.get q := by
  cases r <;> cases q <;> rfl

@[simp] theorem reg_putReg (s : State) (x : Register) (r q : RegName) :
    (s.putReg r x).reg q = if q = r then x else s.reg q := by
  simp [State.reg, State.putReg]

@[simp] theorem val_putReg (s : State) (x : Register) (r q : RegName) :
    (s.putReg r x).val q = if q = r then x.value else s.val q := by
  simp only [State.val, reg_putReg]; split <;> rfl

@[simp] theorem reg_setReg (s : State) (v : Byte) (r q : RegName) :
    (setReg r v s).reg q = if q = r then { s.reg r with value := v } else s.reg q := by
  simp [setReg]

@[simp] theorem val_setReg (s : State) (v : Byte) (r q : RegName) :
    (setReg r v s).val q = if q = r then v else s.val q := by
  simp [setReg]

@[simp] theorem reg_openOut (s : State) (r q : RegName) :
    (openOut r s).reg q = if q = r then { s.reg r with outputEnable := true } else s.reg q := by
  simp [openOut]

@[simp] theorem reg_closeOut (s : State) (r q : RegName) :
    (closeOut r s).reg q = if q = r then { s.reg r with outputEnable := false } else s.reg q := by
  simp [closeOut]

@[simp] theorem reg_openIn (s : State) (r q : RegName) :
    (openIn r s).reg q = if q = r then { s.reg r with inputEnable := true } else s.reg q := by
  simp [openIn]

@[simp] theorem reg_closeIn (s : State) (r q : RegName) :
    (closeIn r s).reg q = if q = r then { s.reg r with inputEnable := false } else s.reg q := by
  simp [closeIn]

/-! ## Other fields after a register write -/

section putReg
variable (s : State) (r : RegName) (x : Register)
@[simp] theorem bus_putReg : (s.putReg r x).bus = s.bus := rfl
@[simp] theorem flags_putReg : (s.putReg r x).flags = s.flags := rfl
@[simp] theorem mem_putReg : (s.putReg r x).mem = s.mem := rfl
@[simp] theorem prog_putReg : (s.putReg r x).prog = s.prog := rfl
@[simp] theorem pc_putReg : (s.putReg r x).pc = s.pc := rfl
@[simp] theorem run_putReg : (s.putReg r x).run = s.run := rfl
@[simp] theorem icnt_putReg : (s.putReg r x).icnt = s.icnt := rfl
@[simp] theorem inbuf_putReg : (s.putReg r x).inbuf = s.inbuf := rfl
@[simp] theorem cur_putReg : (s.putReg r x).cur = s.cur := rfl
@[simp] theorem outlog_putReg : (s.putReg r x).outlog = s.outlog := rfl
end putReg

section setReg
variable (s : State) (r : RegName) (v : Byte)
@[simp] theorem bus_setReg : (setReg r v s).bus = s.bus := rfl
@[simp] theorem flags_setReg : (setReg r v s).flags = s.flags := rfl
@[simp] theorem mem_setReg : (setReg r v s).mem = s.mem := rfl
@[simp] theorem prog_setReg : (setReg r v s).prog = s.prog := rfl
@[simp] theorem pc_setReg : (setReg r v s).pc = s.pc := rfl
@[simp] theorem run_setReg : (setReg r v s).run = s.run := rfl
@[simp] theorem icnt_setReg : (setReg r v s).icnt = s.icnt := rfl
@[simp] theorem inbuf_setReg : (setReg r v s).inbuf = s.inbuf := rfl
@[simp] theorem cur_setReg : (setReg r v s).cur = s.cur := rfl
@[simp] theorem outlog_setReg : (setReg r v s).outlog = s.outlog := rfl
end setReg

/-! ## The updates of the other fields -/

section setBus
variable (s : State) (v : Byte)
@[simp] theorem regs_setBus : (setBus v s).regs = s.regs := rfl
@[simp] theorem reg_setBus (q : RegName) : (setBus v s).reg q = s.reg q := rfl
@[simp] theorem val_setBus (q : RegName) : (setBus v s).val q = s.val q := rfl
@[simp] theorem busIdle_setBus : (setBus v s).busIdle = s.busIdle := rfl
@[simp] theorem cell_setBus (b : Byte) : (setBus v s).cell b = s.cell b := rfl
@[simp] theorem bus_setBus : (setBus v s).bus = v := rfl
@[simp] theorem flags_setBus : (setBus v s).flags = s.flags := rfl
@[simp] theorem mem_setBus : (setBus v s).mem = s.mem := rfl
@[simp] theorem prog_setBus : (setBus v s).prog = s.prog := rfl
@[simp] theorem pc_setBus : (setBus v s).pc = s.pc := rfl
@[simp] theorem run_setBus : (setBus v s).run = s.run := rfl
@[simp] theorem icnt_setBus : (setBus v s).icnt = s.icnt := rfl
@[simp] theorem inbuf_setBus : (setBus v s).inbuf = s.inbuf := rfl
@[simp] theorem cur_setBus : (setBus v s).cur = s.cur := rfl
@[simp] theorem outlog_setBus : (setBus v s).outlog = s.outlog := rfl
end setBus

section setFlags
variable (s : State) (f : Flags)
@[simp] theorem regs_setFlags : (setFlags f s).regs = s.regs := rfl
@[simp] theorem reg_setFlags (q : RegName) : (setFlags f s).reg q = s.reg q := rfl
@[simp] theorem val_setFlags (q : RegName) : (setFlags f s).val q = s.val q := rfl
@[simp] theorem busIdle_setFlags : (setFlags f s).busIdle = s.busIdle := rfl
@[simp] theorem cell_setFlags (b : Byte) : (setFlags f s).cell b = s.cell b := rfl
@[simp] theorem bus_setFlags : (setFlags f s).bus = s.bus := rfl
@[simp] theorem flags_setFlags : (setFlags f s).flags = f := rfl
@[simp] theorem mem_setFlags : (setFlags f s).mem = s.mem := rfl
@[simp] theorem prog_setFlags : (setFlags f s).prog = s.prog := rfl
@[simp] theorem pc_setFlags : (setFlags f s).pc = s.pc := rfl
@[simp] theorem run_setFlags : (setFlags f s).run = s.run := rfl
@[simp] theorem icnt_setFlags : (setFlags f s).icnt = s.icnt := rfl
@[simp] theorem inbuf_setFlags : (setFlags f s).inbuf = s.inbuf := rfl
@[simp] theorem cur_setFlags : (setFlags f s).cur = s.cur := rfl
@[simp] theorem outlog_setFlags : (setFlags f s).outlog = s.outlog := rfl
end setFlags

section setMem
variable (s : State) (m : Memory)
@[simp] theorem regs_setMem : (setMem m s).regs = s.regs := rfl
@[simp] theorem reg_setMem (q : RegName) : (setMem m s).reg q = s.reg q := rfl
@[simp] theorem val_setMem (q : RegName) : (setMem m s).val q = s.val q := rfl
@[simp] theorem busIdle_setMem : (setMem m s).busIdle = s.busIdle := rfl
@[simp] theorem bus_setMem : (setMem m s).bus = s.bus := rfl
@[simp] theorem flags_setMem : (setMem m s).flags = s.flags := rfl
@[simp] theorem mem_setMem : (setMem m s).mem = m := rfl
@[simp] theorem prog_setMem : (setMem m s).prog = s.prog := rfl
@[simp] theorem pc_setMem : (setMem m s).pc = s.pc := rfl
@[simp] theorem run_setMem : (setMem m s).run = s.run := rfl
@[simp] theorem icnt_setMem : (setMem m s).icnt = s.icnt := rfl
@[simp] theorem inbuf_setMem : (setMem m s).inbuf = s.inbuf := rfl
@[simp] theorem cur_setMem : (setMem m s).cur = s.cur := rfl
@[simp] theorem outlog_setMem : (setMem m s).outlog = s.outlog := rfl
end setMem

section setPc
variable (s : State) (a : Byte)
@[simp] theorem regs_setPc : (setPc a s).regs = s.regs := rfl
@[simp] theorem reg_setPc (q : RegName) : (setPc a s).reg q = s.reg q := rfl
@[simp] theorem val_setPc (q : RegName) : (setPc a s).val q = s.val q := rfl
@[simp] theorem busIdle_setPc : (setPc a s).busIdle = s.busIdle := rfl
@[simp] theorem cell_setPc (b : Byte) : (setPc a s).cell b = s.cell b := rfl
@[simp] theorem bus_setPc : (setPc a s).bus = s.bus := rfl
@[simp] theorem flags_setPc : (setPc a s).flags = s.flags := rfl
@[simp] theorem mem_setPc : (setPc a s).mem = s.mem := rfl
@[simp] theorem prog_setPc : (setPc a s).prog = s.prog := rfl
@[simp] theorem pc_setPc : (setPc a s).pc = a := rfl
@[simp] theorem run_setPc : (setPc a s).run = s.run := rfl
@[simp] theorem icnt_setPc : (setPc a s).icnt = s.icnt := rfl
@[simp] theorem inbuf_setPc : (setPc a s).inbuf = s.inbuf := rfl
@[simp] theorem cur_setPc : (setPc a s).cur = s.cur := rfl
@[simp] theorem outlog_setPc : (setPc a s).outlog = s.outlog := rfl
end setPc

section setRun
variable (s : State) (x : RunState)
@[simp] theorem regs_setRun : (setRun x s).regs = s.regs := rfl
@[simp] theorem reg_setRun (q : RegName) : (setRun x s).reg q = s.reg q := rfl
@[simp] theorem val_setRun (q : RegName) : (setRun x s).val q = s.val q := rfl
@[simp] theorem busIdle_setRun : (setRun x s).busIdle = s.busIdle := rfl
@[simp] theorem cell_setRun (b : Byte) : (setRun x s).cell b = s.cell b := rfl
@[simp] theorem bus_setRun : (setRun x s).bus = s.bus := rfl
@[simp] theorem flags_setRun : (setRun x s).flags = s.flags := rfl
@[simp] theorem mem_setRun : (setRun x s).mem = s.mem := rfl
@[simp] theorem prog_setRun : (setRun x s).prog = s.prog := rfl
@[simp] theorem pc_setRun : (setRun x s).pc = s.pc := rfl
@[simp] theorem run_setRun : (setRun x s).run = x := rfl
@[simp] theorem icnt_setRun : (setRun x s).icnt = s.icnt := rfl
@[simp] theorem inbuf_setRun : (setRun x s).inbuf = s.inbuf := rfl
@[simp] theorem cur_setRun : (setRun x s).cur = s.cur := rfl
@[simp] theorem outlog_setRun : (setRun x s).outlog = s.outlog := rfl
end setRun

section countStep
variable (s : State)
@[simp] theorem regs_countStep : (countStep s).regs = s.regs := rfl
@[simp] theorem reg_countStep (q : RegName) : (countStep s).reg q = s.reg q := rfl
@[simp] theorem val_countStep (q : RegName) : (countStep s).val q = s.val q := rfl
@[simp] theorem busIdle_countStep : (countStep s).busIdle = s.busIdle := rfl
@[simp] theorem cell_countStep (b : Byte) : (countStep s).cell b = s.cell b := rfl
@[simp] theorem bus_countStep : (countStep s).bus = s.bus := rfl
@[simp] theorem flags_countStep : (countStep s).flags = s.flags := rfl
@[simp] theorem mem_countStep : (countStep s).mem = s.mem := rfl
@[simp] theorem prog_countStep : (countStep s).prog = s.prog := rfl
@[simp] theorem pc_countStep : (countStep s).pc = s.pc := rfl
@[simp] theorem run_countStep : (countStep s).run = s.run := rfl
@[simp] theorem icnt_countStep : (countStep s).icnt = s.icnt + 1 := rfl
@[simp] theorem inbuf_countStep : (countStep s).inbuf = s.inbuf := rfl
@[simp] theorem cur_countStep : (countStep s).cur = s.cur := rfl
@[simp] theorem outlog_countStep : (countStep s).outlog = s.outlog := rfl
end countStep

section setCur
variable (s : State) (n : Nat)
@[simp] theorem regs_setCur : (setCur n s).regs = s.regs := rfl
@[simp] theorem reg_setCur (q : RegName) : (setCur n s).reg q = s.reg q := rfl
@[simp] theorem val_setCur (q : RegName) : (setCur n s).val q = s.val q := rfl
@[simp] theorem busIdle_setCur : (setCur n s).busIdle = s.busIdle := rfl
@[simp] theorem cell_setCur (b : Byte) : (setCur n s).cell b = s.cell b := rfl
@[simp] theorem bus_setCur : (setCur n s).bus = s.bus := rfl
@[simp] theorem flags_setCur : (setCur n s).flags = s.flags := rfl
@[simp] theorem mem_setCur : (setCur n s).mem = s.mem := rfl
@[simp] theorem prog_setCur : (setCur n s).prog = s.prog := rfl
@[simp] theorem pc_setCur : (setCur n s).pc = s.pc := rfl
@[simp] theorem run_setCur : (setCur n s).run = s.run := rfl
@[simp] theorem icnt_setCur : (setCur n s).icnt = s.icnt := rfl
@[simp] theorem inbuf_setCur : (setCur n s).inbuf = s.inbuf := rfl
@[simp] theorem cur_setCur : (setCur n s).cur = n := rfl
@[simp] theorem outlog_setCur : (setCur n s).outlog = s.outlog := rfl
end setCur

section appendLog
variable (s : State) (v : Byte)
@[simp] theorem regs_appendLog : (appendLog v s).regs = s.regs := rfl
@[simp] theorem reg_appendLog (q : RegName) : (appendLog v s).reg q = s.reg q := rfl
@[simp] theorem val_appendLog (q : RegName) : (appendLog v s).val q = s.val q := rfl
@[simp] theorem busIdle_appendLog : (appendLog v s).busIdle = s.busIdle := rfl
@[simp] theorem cell_appendLog (b : Byte) : (appendLog v s).cell b = s.cell b := rfl
@[simp] theorem bus_appendLog : (appendLog v s).bus = s.bus := rfl
@[simp] theorem flags_appendLog : (appendLog v s).flags = s.flags := rfl
@[simp] theorem mem_appendLog : (appendLog v s).mem = s.mem := rfl
@[simp] theorem prog_appendLog : (appendLog v s).prog = s.prog := rfl
@[simp] theorem pc_appendLog : (appendLog v s).pc = s.pc := rfl
@[simp] theorem run_appendLog : (appendLog v s).run = s.run := rfl
@[simp] theorem icnt_appendLog : (appendLog v s).icnt = s.icnt := rfl
@[simp] theorem inbuf_appendLog : (appendLog v s).inbuf = s.inbuf := rfl
@[simp] theorem cur_appendLog : (appendLog v s).cur = s.cur := rfl
@[simp] theorem outlog_appendLog : (appendLog v s).outlog = s.outlog ++ [v] := rfl
end appendLog

/-! ## The idle bus -/

theorem busIdle_iff (s : State) : s.busIdle = true ↔ ∀ r, (s.reg r).idle = true := by
  constructor
  · intro h r
    simp only [State.busIdle, List.all_eq_true] at h
    exact h r (by cases r <;> decide)
  · intro h
    simp only [State.busIdle, List.all_eq_true]
    exact fun r _ => h r

/-- An idle bus is a matter of the registers' signals alone. -/
theorem busIdle_congr {s t : State} (h : ∀ r, (t.reg r).idle = (s.reg r).idle) : t.busIdle = s.busIdle := by
  simp [State.busIdle, h]

@[simp] theorem busIdle_setReg (s : State) (r : RegName) (v : Byte) : (setReg r v s).busIdle = s.busIdle := by
  refine busIdle_congr fun q => ?_
  by_cases h : q = r <;> simp [h, Register.idle]

@[simp] theorem cell_setReg (s : State) (r : RegName) (v a : Byte) : (setReg r v s).cell a = s.cell a := rfl

end Sys2Proof.Machine
end

