-- ==== Sys2Proof/Laws/Micro.lean ====
section
/-! SUPPORT. What each micro-operation does to each part of the state: `move` on an idle bus, `mem_read`, `mem_write`,
the ALU, the flag clear and the device hooks. Later proofs cite these and never unfold a transfer. -/

namespace Sys2Proof.Machine

/-! ## The bus -/

/-- The registers' records decide which register drives the bus. -/
theorem busDriver_openOut {s : State} (h : s.busIdle = true) (src : RegName) (t : State)
    (ht : ∀ r, (t.reg r).outputEnable = ((openOut src s).reg r).outputEnable) : busDriver t = some src := by
  have hi := (busIdle_iff s).1 h
  have hoff : ∀ r, (s.reg r).outputEnable = false := fun r => by
    have := hi r; simp only [Register.idle, Bool.and_eq_true, Bool.not_eq_true'] at this; exact this.1
  have : (fun r => (t.reg r).outputEnable) = fun r => decide (r = src) := by
    funext r; rw [ht, reg_openOut]; by_cases hr : r = src <;> simp [hr, hoff]
  simp only [busDriver, this]
  cases src <;> rfl

theorem reg_latch_foldl (v : Byte) (q : RegName) : ∀ (l : List RegName) (s : State),
    (l.foldl (latch v) s).reg q =
      if q ∈ l ∧ (s.reg q).inputEnable = true then { s.reg q with value := v } else s.reg q
  | [], s => by simp
  | r :: l, s => by
    simp only [List.foldl_cons, reg_latch_foldl v q l, List.mem_cons]
    by_cases hqr : q = r
    · subst hqr
      by_cases hin : (s.reg q).inputEnable = true
      · have : (latch v s q).reg q = { s.reg q with value := v } := by simp [latch, hin]
        simp [this, hin]
      · have : (latch v s q).reg q = s.reg q := by simp [latch, hin]
        simp [this, hin]
    · have : (latch v s r).reg q = s.reg q := by
        simp only [latch]; split <;> simp [hqr]
      simp [this, hqr]

/-- Two states that differ in no register and no other field are equal. -/
theorem State.ext_reg {s t : State} (hr : ∀ q, s.reg q = t.reg q) (hb : s.bus = t.bus) (hf : s.flags = t.flags)
    (hm : s.mem = t.mem) (hp : s.prog = t.prog) (hpc : s.pc = t.pc) (hrun : s.run = t.run) (hi : s.icnt = t.icnt)
    (hin : s.inbuf = t.inbuf) (hc : s.cur = t.cur) (ho : s.outlog = t.outlog) : s = t := by
  have hregs : s.regs = t.regs := by
    rcases hs : s.regs with ⟨⟩
    rcases ht : t.regs with ⟨⟩
    have h := fun q => hr q
    simp only [State.reg, hs, ht] at h
    simp only [RegFile.mk.injEq]
    exact ⟨h .ac, h .br, h .cr, h .ior, h .sar, h .tar, h .dar, h .mar, h .mdr, h .lop, h .rop, h .res, h .pr0, h .pr1⟩
  rcases s with ⟨⟩
  rcases t with ⟨⟩
  simp only at hregs hb hf hm hp hpc hrun hi hin hc ho
  subst hregs hb hf hm hp hpc hrun hi hin hc ho
  rfl

/-- What a list of latches changes besides registers: nothing. -/
theorem latch_foldl_rest (v : Byte) : ∀ (l : List RegName) (s : State),
    (l.foldl (latch v) s).bus = s.bus ∧ (l.foldl (latch v) s).flags = s.flags ∧ (l.foldl (latch v) s).mem = s.mem ∧
    (l.foldl (latch v) s).prog = s.prog ∧ (l.foldl (latch v) s).pc = s.pc ∧ (l.foldl (latch v) s).run = s.run ∧
    (l.foldl (latch v) s).icnt = s.icnt ∧ (l.foldl (latch v) s).inbuf = s.inbuf ∧ (l.foldl (latch v) s).cur = s.cur ∧
    (l.foldl (latch v) s).outlog = s.outlog
  | [], s => by simp
  | r :: l, s => by
    have := latch_foldl_rest v l (latch v s r)
    have h1 : (latch v s r).bus = s.bus ∧ (latch v s r).flags = s.flags ∧ (latch v s r).mem = s.mem ∧
        (latch v s r).prog = s.prog ∧ (latch v s r).pc = s.pc ∧ (latch v s r).run = s.run ∧
        (latch v s r).icnt = s.icnt ∧ (latch v s r).inbuf = s.inbuf ∧ (latch v s r).cur = s.cur ∧
        (latch v s r).outlog = s.outlog := by
      simp only [latch]; split <;> simp
    simp only [List.foldl_cons, this, h1, and_self]

theorem mem_busOrder (q : RegName) : q ∈ busOrder := by cases q <;> decide

/-- A move on an idle bus gives the destination the source's value, leaves the bus idle, and changes nothing else but
the bus value (40_datapath_alu.md R86). -/
theorem move_eq {s : State} (h : s.busIdle = true) (src dst : RegName) :
    move src dst s = setBus (s.val src) (setReg dst (s.val src) s) := by
  have hidle : ∀ r, (s.reg r).outputEnable = false ∧ (s.reg r).inputEnable = false := fun r => by
    have := (busIdle_iff s).1 h r
    simpa [Register.idle] using this
  have hd : busDriver (openIn dst (openOut src s)) = some src := by
    refine busDriver_openOut h src _ fun r => ?_
    rw [reg_openIn]; by_cases hr : r = dst <;> simp [hr]
  have hv : (openIn dst (openOut src s)).val src = s.val src := by
    simp only [State.val, reg_openIn, reg_openOut]; by_cases hr : src = dst <;> simp [hr]
  have hform : move src dst s = closeIn dst (closeOut src (busOrder.foldl (latch (s.val src))
      (setBus (s.val src) (openIn dst (openOut src s))))) := by
    simp only [move, moveAll, List.foldl_cons, List.foldl_nil, transfer, hd, hv]
  rw [hform]
  have hrest := latch_foldl_rest (s.val src) busOrder (setBus (s.val src) (openIn dst (openOut src s)))
  refine State.ext_reg (fun q => ?_) hrest.1 hrest.2.1 hrest.2.2.1 hrest.2.2.2.1 hrest.2.2.2.2.1 hrest.2.2.2.2.2.1
    hrest.2.2.2.2.2.2.1 hrest.2.2.2.2.2.2.2.1 hrest.2.2.2.2.2.2.2.2.1 hrest.2.2.2.2.2.2.2.2.2
  simp only [reg_closeIn, reg_closeOut, reg_latch_foldl, mem_busOrder, true_and, reg_setBus, reg_setReg, reg_openIn,
    reg_openOut]
  obtain ⟨ho, hi⟩ := hidle q
  by_cases h1 : q = dst
  · subst h1
    by_cases h2 : q = src
    · subst h2; simp [ho, hi]
    · simp only [h2, if_true, if_false]
      cases hq : s.reg q; simp_all
  · by_cases h2 : q = src
    · subst h2
      simp only [h1, if_true, if_false]
      cases hq : s.reg q; simp_all
    · simp [h1, h2, hi]

/-- A transfer changes registers and the bus value only. -/
theorem transfer_keeps (s : State) :
    (transfer s).flags = s.flags ∧ (transfer s).mem = s.mem ∧ (transfer s).prog = s.prog ∧ (transfer s).pc = s.pc ∧
    (transfer s).run = s.run ∧ (transfer s).icnt = s.icnt ∧ (transfer s).inbuf = s.inbuf ∧ (transfer s).cur = s.cur ∧
    (transfer s).outlog = s.outlog := by
  simp only [transfer]
  split
  · simp
  · have h := latch_foldl_rest
    simp [h]

/-- A move, on any bus, changes registers and the bus value only. -/
@[simp] theorem move_keeps (src dst : RegName) (s : State) :
    (move src dst s).flags = s.flags ∧ (move src dst s).mem = s.mem ∧ (move src dst s).prog = s.prog ∧
    (move src dst s).pc = s.pc ∧ (move src dst s).run = s.run ∧ (move src dst s).icnt = s.icnt ∧
    (move src dst s).inbuf = s.inbuf ∧ (move src dst s).cur = s.cur ∧ (move src dst s).outlog = s.outlog := by
  simp [move, moveAll, closeIn, closeOut, openIn, openOut, transfer_keeps]

@[simp] theorem val_move {s : State} (h : s.busIdle = true) (src dst q : RegName) :
    (move src dst s).val q = if q = dst then s.val src else s.val q := by
  simp [move_eq h]

@[simp] theorem busIdle_move {s : State} (h : s.busIdle = true) (src dst : RegName) :
    (move src dst s).busIdle = true := by
  simp [move_eq h, h]

@[simp] theorem cell_move (src dst : RegName) (s : State) (a : Byte) : (move src dst s).cell a = s.cell a := by
  simp [State.cell]

/-! ## Memory -/

@[simp] theorem memRead_keeps (s : State) :
    (memRead s).flags = s.flags ∧ (memRead s).mem = s.mem ∧ (memRead s).prog = s.prog ∧ (memRead s).pc = s.pc ∧
    (memRead s).run = s.run ∧ (memRead s).icnt = s.icnt ∧ (memRead s).inbuf = s.inbuf ∧ (memRead s).cur = s.cur ∧
    (memRead s).outlog = s.outlog ∧ (memRead s).busIdle = s.busIdle := by
  simp [memRead]

@[simp] theorem val_memRead (s : State) (q : RegName) :
    (memRead s).val q = if q = .mdr then s.cell (s.val .mar) else s.val q := by
  simp [memRead]

@[simp] theorem cell_memRead (s : State) (a : Byte) : (memRead s).cell a = s.cell a := by
  simp [State.cell]

@[simp] theorem putCell_keeps (a v : Byte) (s : State) :
    (putCell a v s).flags = s.flags ∧ (putCell a v s).prog = s.prog ∧ (putCell a v s).pc = s.pc ∧
    (putCell a v s).run = s.run ∧ (putCell a v s).icnt = s.icnt ∧ (putCell a v s).inbuf = s.inbuf ∧
    (putCell a v s).cur = s.cur ∧ (putCell a v s).outlog = s.outlog ∧ (putCell a v s).busIdle = s.busIdle := by
  simp [putCell]

@[simp] theorem val_putCell (a v : Byte) (s : State) (q : RegName) : (putCell a v s).val q = s.val q := rfl

/-- A byte's value is an address of data memory. -/
theorem toNat_lt_memory (a : Byte) : a.toNat < 2 ^ Config.addrWidth := a.isLt

/-- A write to one cell, read at any address. -/
theorem cell_putCell {s : State} (h : Memory.wf s.mem = true) (a v b : Byte) :
    (putCell a v s).cell b = if b = a then v else s.cell b := by
  simp only [State.cell, putCell, mem_setMem, Memory.get_put h, BitVec.toNat_inj]

@[simp] theorem wf_putCell {s : State} (h : Memory.wf s.mem = true) (a v : Byte) :
    Memory.wf (putCell a v s).mem = true :=
  Memory.wf_put (toNat_lt_memory a) h

@[simp] theorem memWrite_keeps (s : State) :
    (memWrite s).flags = s.flags ∧ (memWrite s).prog = s.prog ∧ (memWrite s).pc = s.pc ∧ (memWrite s).run = s.run ∧
    (memWrite s).icnt = s.icnt ∧ (memWrite s).inbuf = s.inbuf ∧ (memWrite s).cur = s.cur ∧
    (memWrite s).outlog = s.outlog ∧ (memWrite s).busIdle = s.busIdle := by
  simp [memWrite]

@[simp] theorem val_memWrite (s : State) (q : RegName) : (memWrite s).val q = s.val q := rfl

@[simp] theorem cell_memWrite {s : State} (h : Memory.wf s.mem = true) (b : Byte) :
    (memWrite s).cell b = if b = s.val .mar then s.val .mdr else s.cell b :=
  cell_putCell h _ _ _

@[simp] theorem wf_memWrite {s : State} (h : Memory.wf s.mem = true) : Memory.wf (memWrite s).mem = true :=
  wf_putCell h _ _

/-! ## The ALU and the carry flag -/

@[simp] theorem alu_keeps (op : AluOp) (s : State) :
    (alu op s).mem = s.mem ∧ (alu op s).prog = s.prog ∧ (alu op s).pc = s.pc ∧ (alu op s).run = s.run ∧
    (alu op s).icnt = s.icnt ∧ (alu op s).inbuf = s.inbuf ∧ (alu op s).cur = s.cur ∧ (alu op s).outlog = s.outlog ∧
    (alu op s).busIdle = s.busIdle := by
  simp [alu, aluWith]

@[simp] theorem val_alu (op : AluOp) (s : State) (q : RegName) :
    (alu op s).val q = if q = .res then aluResult op (s.val .lop) (s.val .rop) s.flags.c else s.val q := by
  simp [alu, aluWith]

@[simp] theorem flags_alu (op : AluOp) (s : State) :
    (alu op s).flags = aluFlags op .nzvc (s.val .lop) (s.val .rop) s.flags := rfl

/-- Where an operation forces its mask, the caller's makes no difference. -/
theorem aluWith_forced {op : AluOp} (h : ∀ m m', effectiveMask op m = effectiveMask op m') (m : FlagMask) (s : State) :
    aluWith op m s = alu op s := by
  simp only [alu, aluWith, aluFlags, h m .nzvc]

@[simp] theorem cell_alu (op : AluOp) (s : State) (a : Byte) : (alu op s).cell a = s.cell a := rfl

@[simp] theorem clearC_keeps (s : State) :
    (clearC s).mem = s.mem ∧ (clearC s).prog = s.prog ∧ (clearC s).pc = s.pc ∧ (clearC s).run = s.run ∧
    (clearC s).icnt = s.icnt ∧ (clearC s).inbuf = s.inbuf ∧ (clearC s).cur = s.cur ∧ (clearC s).outlog = s.outlog ∧
    (clearC s).busIdle = s.busIdle := by
  simp [clearC]

@[simp] theorem val_clearC (s : State) (q : RegName) : (clearC s).val q = s.val q := rfl

@[simp] theorem flags_clearC (s : State) : (clearC s).flags = { s.flags with c := false } := rfl

@[simp] theorem cell_clearC (s : State) (a : Byte) : (clearC s).cell a = s.cell a := rfl

/-! ## Device hooks -/

@[simp] theorem sourceHook_keeps (s : State) :
    (sourceHook s).flags = s.flags ∧ (sourceHook s).mem = s.mem ∧ (sourceHook s).prog = s.prog ∧
    (sourceHook s).pc = s.pc ∧ (sourceHook s).run = s.run ∧ (sourceHook s).icnt = s.icnt ∧
    (sourceHook s).inbuf = s.inbuf ∧ (sourceHook s).outlog = s.outlog ∧ (sourceHook s).busIdle = s.busIdle := by
  simp only [sourceHook]; split <;> simp

@[simp] theorem sinkHook_keeps (s : State) :
    (sinkHook s).flags = s.flags ∧ (sinkHook s).mem = s.mem ∧ (sinkHook s).prog = s.prog ∧
    (sinkHook s).pc = s.pc ∧ (sinkHook s).run = s.run ∧ (sinkHook s).icnt = s.icnt ∧
    (sinkHook s).inbuf = s.inbuf ∧ (sinkHook s).cur = s.cur ∧ (sinkHook s).busIdle = s.busIdle := by
  simp [sinkHook]

@[simp] theorem val_sinkHook (s : State) (q : RegName) : (sinkHook s).val q = s.val q := rfl

@[simp] theorem outlog_sinkHook (s : State) : (sinkHook s).outlog = s.outlog ++ [s.val .pr1] := rfl

theorem val_sourceHook_other (s : State) {q : RegName} (h : q ≠ .pr0) : (sourceHook s).val q = s.val q := by
  simp only [sourceHook]; split <;> simp [h]

/-- The input is used up: the source gives 0 and its cursor stays (10_state.md R27). -/
theorem sourceHook_exhausted {s : State} (h : s.inbuf.length ≤ s.cur) :
    (sourceHook s).val .pr0 = 0 ∧ (sourceHook s).cur = s.cur := by
  simp [sourceHook, List.getElem?_eq_none h]

/-- The source gives the character at its cursor and moves on (10_state.md R27). -/
theorem sourceHook_next {s : State} (h : s.cur < s.inbuf.length) :
    (sourceHook s).val .pr0 = BitVec.ofNat Config.width s.inbuf[s.cur] ∧ (sourceHook s).cur = s.cur + 1 := by
  simp [sourceHook, List.getElem?_eq_getElem h]

/-! ## The end of an instruction -/

@[simp] theorem raise_keeps (f : CoreFault) (s : State) :
    (raise f s).regs = s.regs ∧ (raise f s).bus = s.bus ∧ (raise f s).flags = s.flags ∧ (raise f s).mem = s.mem ∧
    (raise f s).prog = s.prog ∧ (raise f s).pc = s.pc ∧ (raise f s).run = .faulted f ∧ (raise f s).icnt = s.icnt ∧
    (raise f s).inbuf = s.inbuf ∧ (raise f s).cur = s.cur ∧ (raise f s).outlog = s.outlog := by
  simp [raise]

@[simp] theorem val_raise (f : CoreFault) (s : State) (q : RegName) : (raise f s).val q = s.val q := rfl

@[simp] theorem cell_raise (f : CoreFault) (s : State) (a : Byte) : (raise f s).cell a = s.cell a := rfl

@[simp] theorem busIdle_raise (f : CoreFault) (s : State) : (raise f s).busIdle = s.busIdle := rfl

/-- What `advance` leaves alone: everything but `pc` and `RUN` (41_control_unit.md R114, R115). -/
@[simp] theorem advance_keeps (s : State) :
    (advance s).regs = s.regs ∧ (advance s).bus = s.bus ∧ (advance s).flags = s.flags ∧ (advance s).mem = s.mem ∧
    (advance s).prog = s.prog ∧ (advance s).icnt = s.icnt ∧ (advance s).inbuf = s.inbuf ∧ (advance s).cur = s.cur ∧
    (advance s).outlog = s.outlog := by
  simp only [advance]; split <;> simp

theorem advance_some {s : State} {a : Byte} (h : s.nextAddress = some a) : advance s = setPc a s := by
  simp [advance, h]

theorem advance_none {s : State} (h : s.nextAddress = none) :
    advance s = raise (.malformedProgram (.noNextInstruction s.pc)) s := by
  simp [advance, h]

/-- What the control transfer leaves alone: everything but `pc` and `RUN` (41_control_unit.md R110). -/
@[simp] theorem transferControl_keeps (t : Transfer) (s : State) :
    (transferControl t s).regs = s.regs ∧ (transferControl t s).bus = s.bus ∧ (transferControl t s).flags = s.flags ∧
    (transferControl t s).mem = s.mem ∧ (transferControl t s).prog = s.prog ∧ (transferControl t s).icnt = s.icnt ∧
    (transferControl t s).inbuf = s.inbuf ∧ (transferControl t s).cur = s.cur ∧
    (transferControl t s).outlog = s.outlog := by
  cases t <;> simp [transferControl]

@[simp] theorem val_transferControl (t : Transfer) (s : State) (q : RegName) :
    (transferControl t s).val q = s.val q := by
  simp [State.val, State.reg]

@[simp] theorem cell_transferControl (t : Transfer) (s : State) (a : Byte) :
    (transferControl t s).cell a = s.cell a := by
  simp [State.cell]

@[simp] theorem busIdle_transferControl (t : Transfer) (s : State) : (transferControl t s).busIdle = s.busIdle :=
  busIdle_congr fun r => by simp [State.reg]

end Sys2Proof.Machine
end

