-- ==== Sys2Proof/Laws/Operands.lean ====
section
/-! SUPPORT. What each shared micro-sequence of Operands.lean does to each part of the state, on an idle bus. -/

namespace Sys2Proof.Machine

/-! ## Registers and ports that operand bytes name -/

/-- A register-direct operand names one of four registers (10_state.md R12). -/
theorem xreg?_some {k : Byte} {r : RegName} (h : xreg? k = some r) :
    (k = 0 ∧ r = .ac) ∨ (k = 1 ∧ r = .br) ∨ (k = 2 ∧ r = .cr) ∨ (k = 3 ∧ r = .ior) := by
  simp only [xreg?] at h
  have hk : k = BitVec.ofNat 8 k.toNat := by simp
  split at h <;> simp_all

/-- Exactly the indices 0..3 name a register (10_state.md R12). -/
theorem xreg?_isSome (k : Byte) : (xreg? k).isSome = decide (k.toNat < numNamedRegs) := by
  simp only [xreg?]
  split <;> simp_all [numNamedRegs]
  omega

/-- Exactly the numbers 0 and 1 name a port (10_state.md R24). -/
theorem port?_isSome (p : Byte) : (port? p).isSome = decide (p.toNat < Config.numPorts) := by
  simp only [port?]
  split <;> simp_all
  omega

/-- A port operand names the source or the sink (10_state.md R24). -/
theorem port?_some {p : Byte} {q : Port} (h : port? p = some q) : (p = 0 ∧ q = .source) ∨ (p = 1 ∧ q = .sink) := by
  simp only [port?] at h
  have hp : p = BitVec.ofNat 8 p.toNat := by simp
  split at h <;> simp_all

/-! ## Single bytes -/

@[simp] theorem loadCell_keeps (a : Byte) (dst : RegName) (s : State) :
    (loadCell a dst s).flags = s.flags ∧ (loadCell a dst s).mem = s.mem ∧ (loadCell a dst s).prog = s.prog ∧
    (loadCell a dst s).pc = s.pc ∧ (loadCell a dst s).run = s.run ∧ (loadCell a dst s).icnt = s.icnt ∧
    (loadCell a dst s).inbuf = s.inbuf ∧ (loadCell a dst s).cur = s.cur ∧ (loadCell a dst s).outlog = s.outlog := by
  simp [loadCell]

@[simp] theorem busIdle_loadCell {s : State} (h : s.busIdle = true) (a : Byte) (dst : RegName) :
    (loadCell a dst s).busIdle = true := by
  simp [loadCell, h]

@[simp] theorem val_loadCell {s : State} (h : s.busIdle = true) (a : Byte) (dst q : RegName) :
    (loadCell a dst s).val q =
      if q = dst then s.cell a else if q = .mdr then s.cell a else if q = .mar then a else s.val q := by
  simp [loadCell, h]

@[simp] theorem cell_loadCell (a : Byte) (dst : RegName) (s : State) (b : Byte) :
    (loadCell a dst s).cell b = s.cell b := by
  simp [State.cell]

@[simp] theorem storeCell_keeps (a : Byte) (src : RegName) (s : State) :
    (storeCell a src s).flags = s.flags ∧ (storeCell a src s).prog = s.prog ∧ (storeCell a src s).pc = s.pc ∧
    (storeCell a src s).run = s.run ∧ (storeCell a src s).icnt = s.icnt ∧ (storeCell a src s).inbuf = s.inbuf ∧
    (storeCell a src s).cur = s.cur ∧ (storeCell a src s).outlog = s.outlog := by
  simp [storeCell]

@[simp] theorem busIdle_storeCell {s : State} (h : s.busIdle = true) (a : Byte) (src : RegName) :
    (storeCell a src s).busIdle = true := by
  simp [storeCell, h]

@[simp] theorem val_storeCell {s : State} (h : s.busIdle = true) (a : Byte) {src : RegName} (hs : src ≠ .mar)
    (q : RegName) :
    (storeCell a src s).val q = if q = .mdr then s.val src else if q = .mar then a else s.val q := by
  simp [storeCell, h, hs]

@[simp] theorem cell_storeCell {s : State} (h : s.busIdle = true) (hm : Memory.wf s.mem = true) (a : Byte)
    {src : RegName} (hs : src ≠ .mar) (b : Byte) :
    (storeCell a src s).cell b = if b = a then s.val src else s.cell b := by
  simp [storeCell, h, hm, hs]

@[simp] theorem wf_storeCell {s : State} (hm : Memory.wf s.mem = true) (a : Byte) (src : RegName) :
    Memory.wf (storeCell a src s).mem = true := by
  simp [storeCell, hm]

@[simp] theorem loadVia_keeps (ar dst : RegName) (s : State) :
    (loadVia ar dst s).flags = s.flags ∧ (loadVia ar dst s).mem = s.mem ∧ (loadVia ar dst s).prog = s.prog ∧
    (loadVia ar dst s).pc = s.pc ∧ (loadVia ar dst s).run = s.run ∧ (loadVia ar dst s).icnt = s.icnt ∧
    (loadVia ar dst s).inbuf = s.inbuf ∧ (loadVia ar dst s).cur = s.cur ∧ (loadVia ar dst s).outlog = s.outlog := by
  simp [loadVia]

@[simp] theorem busIdle_loadVia {s : State} (h : s.busIdle = true) (ar dst : RegName) :
    (loadVia ar dst s).busIdle = true := by
  simp [loadVia, h]

@[simp] theorem val_loadVia {s : State} (h : s.busIdle = true) (ar dst q : RegName) :
    (loadVia ar dst s).val q =
      if q = dst then s.cell (s.val ar) else if q = .mdr then s.cell (s.val ar)
      else if q = .mar then s.val ar else s.val q := by
  simp [loadVia, h]

@[simp] theorem cell_loadVia (ar dst : RegName) (s : State) (b : Byte) : (loadVia ar dst s).cell b = s.cell b := by
  simp [State.cell]

@[simp] theorem storeVia_keeps (ar src : RegName) (s : State) :
    (storeVia ar src s).flags = s.flags ∧ (storeVia ar src s).prog = s.prog ∧ (storeVia ar src s).pc = s.pc ∧
    (storeVia ar src s).run = s.run ∧ (storeVia ar src s).icnt = s.icnt ∧ (storeVia ar src s).inbuf = s.inbuf ∧
    (storeVia ar src s).cur = s.cur ∧ (storeVia ar src s).outlog = s.outlog := by
  simp [storeVia]

@[simp] theorem busIdle_storeVia {s : State} (h : s.busIdle = true) (ar src : RegName) :
    (storeVia ar src s).busIdle = true := by
  simp [storeVia, h]

@[simp] theorem val_storeVia {s : State} (h : s.busIdle = true) (ar : RegName) {src : RegName} (hs : src ≠ .mar)
    (q : RegName) :
    (storeVia ar src s).val q = if q = .mdr then s.val src else if q = .mar then s.val ar else s.val q := by
  simp [storeVia, h, hs]

@[simp] theorem cell_storeVia {s : State} (h : s.busIdle = true) (hm : Memory.wf s.mem = true) (ar : RegName)
    {src : RegName} (hs : src ≠ .mar) (b : Byte) :
    (storeVia ar src s).cell b = if b = s.val ar then s.val src else s.cell b := by
  simp [storeVia, h, hm, hs]

@[simp] theorem wf_storeVia {s : State} (hm : Memory.wf s.mem = true) (ar src : RegName) :
    Memory.wf (storeVia ar src s).mem = true := by
  simp [storeVia, hm]

/-! ## Limbs -/

@[simp] theorem openSource_keeps (src : LimbSource) (ar : RegName) (s : State) :
    (openSource src ar s).flags = s.flags ∧ (openSource src ar s).mem = s.mem ∧
    (openSource src ar s).busIdle = s.busIdle ∧ (openSource src ar s).prog = s.prog ∧
    (openSource src ar s).pc = s.pc ∧ (openSource src ar s).run = s.run ∧ (openSource src ar s).icnt = s.icnt ∧
    (openSource src ar s).inbuf = s.inbuf ∧ (openSource src ar s).cur = s.cur ∧
    (openSource src ar s).outlog = s.outlog := by
  cases src <;> simp [openSource]

@[simp] theorem cell_openSource (src : LimbSource) (ar : RegName) (s : State) (b : Byte) :
    (openSource src ar s).cell b = s.cell b := by
  simp [State.cell]

@[simp] theorem fetchLimb_keeps (src : LimbSource) (ar dst : RegName) (i : Nat) (s : State) :
    (fetchLimb src ar dst i s).flags = s.flags ∧ (fetchLimb src ar dst i s).mem = s.mem ∧
    (fetchLimb src ar dst i s).prog = s.prog ∧ (fetchLimb src ar dst i s).pc = s.pc ∧
    (fetchLimb src ar dst i s).run = s.run ∧ (fetchLimb src ar dst i s).icnt = s.icnt ∧
    (fetchLimb src ar dst i s).inbuf = s.inbuf ∧ (fetchLimb src ar dst i s).cur = s.cur ∧
    (fetchLimb src ar dst i s).outlog = s.outlog := by
  cases src <;> simp [fetchLimb]

@[simp] theorem busIdle_fetchLimb {s : State} (h : s.busIdle = true) (src : LimbSource) (ar dst : RegName) (i : Nat) :
    (fetchLimb src ar dst i s).busIdle = true := by
  cases src <;> simp [fetchLimb, h]

@[simp] theorem cell_fetchLimb (src : LimbSource) (ar dst : RegName) (i : Nat) (s : State) (b : Byte) :
    (fetchLimb src ar dst i s).cell b = s.cell b := by
  simp [State.cell]

@[simp] theorem stepAddress_keeps (op : AluOp) (ar : RegName) (s : State) :
    (stepAddress op ar s).mem = s.mem ∧ (stepAddress op ar s).prog = s.prog ∧ (stepAddress op ar s).pc = s.pc ∧
    (stepAddress op ar s).run = s.run ∧ (stepAddress op ar s).icnt = s.icnt ∧
    (stepAddress op ar s).inbuf = s.inbuf ∧ (stepAddress op ar s).cur = s.cur ∧
    (stepAddress op ar s).outlog = s.outlog := by
  simp [stepAddress]

@[simp] theorem busIdle_stepAddress {s : State} (h : s.busIdle = true) (op : AluOp) (ar : RegName) :
    (stepAddress op ar s).busIdle = true := by
  simp [stepAddress, h]

/-- INCR computes from ROP alone (40_datapath_alu.md R95). -/
@[simp] theorem aluResult_incr (l r : Byte) (c : Bool) : aluResult .incr l r c = r + 1 := by
  apply BitVec.eq_of_toNat_eq; simp [aluResult, aluInputs]

/-- DECR computes from ROP alone (40_datapath_alu.md R96). -/
@[simp] theorem aluResult_decr (l r : Byte) (c : Bool) : aluResult .decr l r c = r - 1 := by
  apply BitVec.eq_of_toNat_eq; simp [aluResult, aluInputs, comp, Config.width, BitVec.toNat_sub]; omega

/-- A step up of an address register (40_datapath_alu.md R95). -/
@[simp] theorem val_stepAddress_incr {s : State} (h : s.busIdle = true) (ar q : RegName) :
    (stepAddress .incr ar s).val q =
      if q = ar then s.val ar + 1 else if q = .res then s.val ar + 1 else if q = .rop then s.val ar else s.val q := by
  simp [stepAddress, h]

/-- A step down of an address register (40_datapath_alu.md R96). -/
@[simp] theorem val_stepAddress_decr {s : State} (h : s.busIdle = true) (ar q : RegName) :
    (stepAddress .decr ar s).val q =
      if q = ar then s.val ar - 1 else if q = .res then s.val ar - 1 else if q = .rop then s.val ar else s.val q := by
  simp [stepAddress, h]

@[simp] theorem flags_stepAddress {s : State} (h : s.busIdle = true) (op : AluOp) (ar : RegName) :
    (stepAddress op ar s).flags =
      aluFlags op .nzvc (s.val .lop) (s.val ar) s.flags := by
  simp [stepAddress, h]

@[simp] theorem cell_stepAddress (op : AluOp) (ar : RegName) (s : State) (b : Byte) :
    (stepAddress op ar s).cell b = s.cell b := by
  simp [State.cell]

@[simp] theorem stepSource_keeps (src : LimbSource) (ar : RegName) (s : State) :
    (stepSource src ar s).mem = s.mem ∧ (stepSource src ar s).prog = s.prog ∧ (stepSource src ar s).pc = s.pc ∧
    (stepSource src ar s).run = s.run ∧ (stepSource src ar s).icnt = s.icnt ∧
    (stepSource src ar s).inbuf = s.inbuf ∧ (stepSource src ar s).cur = s.cur ∧
    (stepSource src ar s).outlog = s.outlog := by
  cases src <;> simp [stepSource]

@[simp] theorem busIdle_stepSource {s : State} (h : s.busIdle = true) (src : LimbSource) (ar : RegName) :
    (stepSource src ar s).busIdle = true := by
  cases src <;> simp [stepSource, h]

@[simp] theorem cell_stepSource (src : LimbSource) (ar : RegName) (s : State) (b : Byte) :
    (stepSource src ar s).cell b = s.cell b := by
  simp [State.cell]

end Sys2Proof.Machine
end

