-- ==== Sys2Proof/Laws/Load.lean ====
section
/-! SUPPORT. The load of a core: the order check, the image, and what construction does in each of its cases. -/

namespace Sys2Proof.Machine

/-! ## The order of a program -/

/-- The order check passes exactly the programs whose addresses rise strictly (70_reset_and_hazards.md R204). -/
theorem programOrdered_iff : ∀ l : List Command,
    programOrdered l = true ↔ l.Pairwise (fun x y => x.address < y.address)
  | [] => by simp [programOrdered, orderViolation]
  | [_] => by simp [programOrdered, orderViolation]
  | c :: d :: rest => by
    have ih := programOrdered_iff (d :: rest)
    simp only [programOrdered, orderViolation] at ih ⊢
    by_cases h : d.address ≤ c.address
    · simp [h]
    · have hlt : c.address < d.address := by simpa using h
      rw [if_neg h, ih, List.pairwise_cons (a := c)]
      refine ⟨fun hp => ⟨fun e he => ?_, hp⟩, fun hp => hp.2⟩
      rcases List.mem_cons.1 he with rfl | he
      · exact hlt
      · exact BitVec.lt_trans hlt ((List.pairwise_cons.1 hp).1 e he)

/-- The order check reports the address of the first Command that is not above the one before it
(70_reset_and_hazards.md R204). -/
theorem orderViolation_first (x y : Command) (post : List Command) (hyx : y.address ≤ x.address) :
    ∀ pre : List Command, (pre ++ [x]).Pairwise (fun x y => x.address < y.address) →
      orderViolation (pre ++ x :: y :: post) = some y.address
  | [], _ => by simp [orderViolation, hyx]
  | [c], hp => by
    have hcx : ¬ x.address ≤ c.address := by simpa using hp
    simp [orderViolation, hyx, hcx]
  | c :: d :: pre, hp => by
    have hcd : ¬ d.address ≤ c.address := by simpa using (List.pairwise_cons.1 hp).1 d (by simp)
    have ih := orderViolation_first x y post hyx (d :: pre) (List.pairwise_cons.1 hp).2
    simpa [orderViolation, hcd] using ih

/-! ## The image -/

/-- A loaded image is in canonical form when it fits (70_reset_and_hazards.md R205). -/
theorem wfFrom_imageFrom : ∀ (image : List Byte) (a : Nat), a + image.length ≤ 2 ^ Config.addrWidth →
    Memory.wfFrom a (imageFrom a image) = true
  | [], _, _ => rfl
  | v :: rest, a, h => by
    have ih := wfFrom_imageFrom rest (a + 1) (by simp only [List.length_cons] at h; omega)
    simp only [imageFrom]
    split
    · exact Memory.wfFrom_mono (Nat.le_succ a) ih
    · rename_i hv
      simp only [List.length_cons] at h
      simp only [Memory.wfFrom, Bool.and_eq_true, decide_eq_true_eq]
      exact ⟨⟨⟨le_rfl, by omega⟩, hv⟩, ih⟩

/-- Below its first address an image has no cell (70_reset_and_hazards.md R205). -/
theorem get_imageFrom_below : ∀ (image : List Byte) (a k : Nat), k < a → Memory.get k (imageFrom a image) = 0
  | [], _, _, _ => rfl
  | v :: rest, a, k, h => by
    have ih := get_imageFrom_below rest (a + 1) k (by omega)
    have hne : ¬ k = a := by omega
    simp only [imageFrom]
    split
    · exact ih
    · simpa only [Memory.get, hne, if_false] using ih

/-- Each loaded word is read at its address; every cell above them reads 0 (70_reset_and_hazards.md R205). -/
theorem get_imageFrom (b : Nat) : ∀ (image : List Byte) (a : Nat),
    Memory.get (a + b) (imageFrom a image) = image.getD b 0
  | [], _ => by simp [imageFrom, Memory.get]
  | v :: rest, a => by
    cases b with
    | zero =>
      simp only [imageFrom, Nat.add_zero]
      split
      · rename_i hv; simp [hv, get_imageFrom_below rest (a + 1) a (by omega)]
      · simp [Memory.get]
    | succ b =>
      have ih := get_imageFrom b rest (a + 1)
      rw [show a + 1 + b = a + (b + 1) by omega] at ih
      simp only [imageFrom]
      split
      · simpa using ih
      · simp [Memory.get, ih]

/-! ## Construction -/

/-- A stream that does not decode (70_reset_and_hazards.md R200). -/
theorem construct_of_error {stream image : List Byte} {input : List Nat} {e : MalformedCause}
    (h : decodeProgram stream = .error e) : construct stream image input = loadFault e [] := by
  simp [construct, h]

/-- A program that fails its check (70_reset_and_hazards.md R204). -/
theorem construct_of_check {stream image : List Byte} {input : List Nat} {cmds : List Command} {e : MalformedCause}
    (h : decodeProgram stream = .ok cmds) (hc : checkProgram cmds = some e) :
    construct stream image input = loadFault e [] := by
  simp [construct, h, hc]

/-- A program that passes its check, by whether the image fits (70_reset_and_hazards.md R203, R205). -/
theorem construct_of_ordered {stream image : List Byte} {input : List Nat} {c : Command} {cmds : List Command}
    (h : decodeProgram stream = .ok (c :: cmds)) (ho : programOrdered (c :: cmds) = true) :
    construct stream image input =
      if image.length > 2 ^ Config.addrWidth then loadFault (.imageTooLarge image.length) (c :: cmds)
      else start (c :: cmds) image input := by
  simp only [programOrdered, Option.isNone_iff_eq_none] at ho
  simp [construct, h, checkProgram, ho]

/-- Everything construction can do: a load fault with no program or with a program in order, or a start. -/
theorem construct_cases (stream image : List Byte) (input : List Nat) :
    (∃ e, construct stream image input = loadFault e []) ∨
    (∃ e cmds, programOrdered cmds = true ∧ construct stream image input = loadFault e cmds) ∨
    (∃ c cmds, programOrdered (c :: cmds) = true ∧ image.length ≤ 2 ^ Config.addrWidth ∧
      construct stream image input = start (c :: cmds) image input) := by
  cases h : decodeProgram stream with
  | error e => exact .inl ⟨e, construct_of_error h⟩
  | ok cmds =>
    cases hc : checkProgram cmds with
    | some e => exact .inl ⟨e, construct_of_check h hc⟩
    | none =>
      match cmds, h, hc with
      | c :: cmds, h, hc =>
        have ho : programOrdered (c :: cmds) = true := by
          cases hv : orderViolation (c :: cmds) <;> simp_all [checkProgram, programOrdered]
        rw [construct_of_ordered h ho]
        by_cases hi : image.length > 2 ^ Config.addrWidth
        · exact .inr (.inl ⟨_, _, ho, if_pos hi⟩)
        · exact .inr (.inr ⟨c, cmds, ho, by omega, if_neg hi⟩)

/-! ## A started core -/

@[simp] theorem start_keeps (cmds : List Command) (image : List Byte) (input : List Nat) :
    (start cmds image input).prog = cmds ∧ (start cmds image input).pc = firstAddress cmds ∧
    (start cmds image input).run = .running ∧ (start cmds image input).icnt = 0 ∧
    (start cmds image input).inbuf = input ∧ (start cmds image input).outlog = [] ∧
    (start cmds image input).mem = imageFrom 0 image ∧ (start cmds image input).flags = .reset ∧
    (start cmds image input).busIdle = true := by
  simp only [start, primeSource, Config.sourcePrimed, if_true, sourceHook_keeps, true_and]
  exact ⟨rfl, rfl, rfl, rfl, rfl⟩

/-- With no input the primed source holds 0 (70_reset_and_hazards.md R206). -/
theorem start_source_empty (cmds : List Command) (image : List Byte) :
    (start cmds image []).val .pr0 = 0 ∧ (start cmds image []).cur = 0 :=
  ⟨rfl, rfl⟩

/-- The primed source holds the first character (70_reset_and_hazards.md R206). -/
theorem start_source (cmds : List Command) (image : List Byte) (ch : Nat) (rest : List Nat) :
    (start cmds image (ch :: rest)).val .pr0 = BitVec.ofNat Config.width ch ∧ (start cmds image (ch :: rest)).cur = 1 :=
  ⟨rfl, rfl⟩

/-- Every register but the source's starts at `RESET_REG` (10_state.md R30). -/
theorem start_registers (cmds : List Command) (image : List Byte) (input : List Nat) {r : RegName} (h : r ≠ .pr0) :
    (start cmds image input).val r = Config.resetReg := by
  simp only [start, primeSource, Config.sourcePrimed, if_true, val_sourceHook_other _ h]
  cases r <;> rfl

end Sys2Proof.Machine
end

