-- ==== Sys2Proof/Laws/Sequences.lean ====
section
/-! SUPPORT. What the shared micro-sequences of the instructions do and leave alone: the rounds of the 32-bit
instructions, the control unit, the program, the devices, and, on an idle bus, the signals. -/

namespace Sys2Proof.Machine

/-- Where an operation takes the caller's mask, the mask picks the flags it writes and nothing else. -/
theorem aluWith_masked {op : AluOp} (h : ∀ m, effectiveMask op m = m) (m : FlagMask) (s : State) :
    aluWith op m s = setFlags (maskedFlags m (alu op s).flags s.flags) (alu op s) := by
  simp only [alu, aluWith, aluFlags, h, maskedFlags]
  rfl

/-! ## MOV and MOV4 -/

@[simp] theorem routeImm_keeps (v : Byte) (s : State) :
    (routeImm v s).flags = s.flags ∧ (routeImm v s).mem = s.mem ∧ (routeImm v s).prog = s.prog ∧
    (routeImm v s).pc = s.pc ∧ (routeImm v s).run = s.run ∧ (routeImm v s).icnt = s.icnt ∧
    (routeImm v s).inbuf = s.inbuf ∧ (routeImm v s).cur = s.cur ∧ (routeImm v s).outlog = s.outlog := by
  simp [routeImm]

@[simp] theorem busIdle_routeImm {s : State} (h : s.busIdle = true) (v : Byte) : (routeImm v s).busIdle = true := by
  simp [routeImm, h]

@[simp] theorem val_routeImm {s : State} (h : s.busIdle = true) (v : Byte) (q : RegName) :
    (routeImm v s).val q = if q = .br then v else if q = .ac then v else s.val q := by
  simp [routeImm, h]

@[simp] theorem cell_routeImm (v : Byte) (s : State) (b : Byte) : (routeImm v s).cell b = s.cell b := by
  simp [State.cell]

@[simp] theorem routeCell_keeps (a : Byte) (s : State) :
    (routeCell a s).flags = s.flags ∧ (routeCell a s).mem = s.mem ∧ (routeCell a s).prog = s.prog ∧
    (routeCell a s).pc = s.pc ∧ (routeCell a s).run = s.run ∧ (routeCell a s).icnt = s.icnt ∧
    (routeCell a s).inbuf = s.inbuf ∧ (routeCell a s).cur = s.cur ∧ (routeCell a s).outlog = s.outlog := by
  simp [routeCell]

@[simp] theorem busIdle_routeCell {s : State} (h : s.busIdle = true) (a : Byte) : (routeCell a s).busIdle = true := by
  simp [routeCell, h]

@[simp] theorem val_routeCell {s : State} (h : s.busIdle = true) (a : Byte) (q : RegName) :
    (routeCell a s).val q =
      if q = .br then s.cell a else if q = .ac then s.cell a else if q = .mdr then s.cell a
      else if q = .mar then a else s.val q := by
  simp [routeCell, h]

@[simp] theorem cell_routeCell (a : Byte) (s : State) (b : Byte) : (routeCell a s).cell b = s.cell b := by
  simp [State.cell]

@[simp] theorem mov4_keeps (d : Byte) (src : LimbSource) (s : State) :
    (mov4 d src s).prog = s.prog ∧ (mov4 d src s).pc = s.pc ∧ (mov4 d src s).run = s.run ∧
    (mov4 d src s).icnt = s.icnt ∧ (mov4 d src s).inbuf = s.inbuf ∧ (mov4 d src s).cur = s.cur ∧
    (mov4 d src s).outlog = s.outlog := by
  simp [mov4, mov4Round, mov4Step]

@[simp] theorem busIdle_mov4Round {s : State} (h : s.busIdle = true) (src : LimbSource) (i : Nat) :
    (mov4Round src i s).busIdle = true :=
  busIdle_storeVia (busIdle_move (busIdle_fetchLimb h src .sar .ac i) .ac .br) .dar .br

@[simp] theorem busIdle_mov4Step {s : State} (h : s.busIdle = true) (src : LimbSource) :
    (mov4Step src s).busIdle = true :=
  busIdle_stepAddress (busIdle_stepSource h src .sar) .incr .dar

@[simp] theorem busIdle_mov4 {s : State} (h : s.busIdle = true) (d : Byte) (src : LimbSource) :
    (mov4 d src s).busIdle = true := by
  have h0 : (openSource src .sar (setReg .dar d s)).busIdle = true := by simp [h]
  exact busIdle_mov4Round (busIdle_mov4Step (busIdle_mov4Round (busIdle_mov4Step (busIdle_mov4Round
    (busIdle_mov4Step (busIdle_mov4Round h0 src 0) src) src 1) src) src 2) src) src 3

@[simp] theorem wf_mov4Round {s : State} (h : Memory.wf s.mem = true) (src : LimbSource) (i : Nat) :
    Memory.wf (mov4Round src i s).mem = true :=
  wf_storeVia (by simpa using h) .dar .br

@[simp] theorem mem_mov4Step (src : LimbSource) (s : State) : (mov4Step src s).mem = s.mem := by
  simp [mov4Step]

@[simp] theorem wf_mov4 {s : State} (h : Memory.wf s.mem = true) (d : Byte) (src : LimbSource) :
    Memory.wf (mov4 d src s).mem = true :=
  wf_mov4Round (by
    rw [mem_mov4Step]
    exact wf_mov4Round (by
      rw [mem_mov4Step]
      exact wf_mov4Round (by
        rw [mem_mov4Step]
        exact wf_mov4Round (by simpa using h) src 0) src 1) src 2) src 3

/-- The limb a source delivers in a round: the cell its address register points at, or the immediate's limb
(42_mov.md R128, 43_arith.md R142). -/
def limbAt (src : LimbSource) (ar : RegName) (i : Nat) (s : State) : Byte :=
  match src with
  | .mem _ => s.cell (s.val ar)
  | .imm v => immLimb v i

/-- Where a source's address register stands after a step: one on for a memory source, unmoved for an immediate
(43_arith.md R142). -/
def stepped (src : LimbSource) (a : Byte) : Byte :=
  match src with
  | .mem _ => a + 1
  | .imm _ => a

/-- A round of MOV4 leaves its limb in MDR, AC and BR, and the destination's address in MAR (42_mov.md R128). -/
theorem val_mov4Round {s : State} (h : s.busIdle = true) (src : LimbSource) (i : Nat) (q : RegName) :
    (mov4Round src i s).val q =
      if q = .mdr ∨ q = .ac ∨ q = .br then limbAt src .sar i s else if q = .mar then s.val .dar else s.val q := by
  have hf := busIdle_fetchLimb h src .sar .ac i
  rw [mov4Round, val_storeVia (busIdle_move hf .ac .br) .dar (by decide), val_move hf, val_move hf, val_move hf]
  cases src <;> cases q <;> simp [fetchLimb, limbAt, h]

/-- A round of MOV4 stores its limb at the address in DAR (42_mov.md R128). -/
theorem cell_mov4Round {s : State} (h : s.busIdle = true) (hm : Memory.wf s.mem = true) (src : LimbSource) (i : Nat)
    (b : Byte) :
    (mov4Round src i s).cell b = if b = s.val .dar then limbAt src .sar i s else s.cell b := by
  have hf := busIdle_fetchLimb h src .sar .ac i
  rw [mov4Round, cell_storeVia (busIdle_move hf .ac .br) (by simpa using hm) .dar (by decide), val_move hf, val_move hf]
  cases src <;> simp [fetchLimb, limbAt, h]

@[simp] theorem flags_mov4Round (src : LimbSource) (i : Nat) (s : State) : (mov4Round src i s).flags = s.flags := by
  simp [mov4Round]

/-- The step between rounds of MOV4 advances DAR, and SAR for a memory source (42_mov.md R128). -/
theorem val_mov4Step {s : State} (h : s.busIdle = true) (src : LimbSource) (q : RegName) :
    (mov4Step src s).val q =
      if q = .dar ∨ q = .res then s.val .dar + 1 else if q = .sar then stepped src (s.val .sar)
      else if q = .rop then s.val .dar else s.val q := by
  rw [mov4Step, val_stepAddress_incr (busIdle_stepSource h src .sar)]
  cases src <;> cases q <;> simp [stepSource, stepped, h]

/-- The flags after a step up of an address register: N, Z, V of the step, C kept (40_datapath_alu.md R95). -/
theorem aluFlags_incr (m : FlagMask) (l r : Byte) (f : Flags) : aluFlags .incr m l r f = stepFlags r f.c := by
  have hn : signBit (r + 1) = negative (r + 1) := by revert r; decide
  have hv : overflow r 1 (r + 1) = decide (r.toNat = 127) := by revert r; decide
  show Flags.mk _ _ _ _ = Flags.mk _ _ _ _
  rw [← hn, ← hv, ← aluResult_incr l r f.c]
  rfl

@[simp] theorem stepFlags_c (a : Byte) (c : Bool) : (stepFlags a c).c = c := rfl

@[simp] theorem flags_mov4Step {s : State} (h : s.busIdle = true) (src : LimbSource) :
    (mov4Step src s).flags = stepFlags (s.val .dar) s.flags.c := by
  rw [mov4Step, flags_stepAddress (busIdle_stepSource h src .sar), aluFlags_incr]
  cases src <;> simp [stepSource, h, aluFlags_incr]

@[simp] theorem cell_mov4Step (src : LimbSource) (s : State) (b : Byte) : (mov4Step src s).cell b = s.cell b := by
  simp [mov4Step]

/-! ## Register arithmetic -/

@[simp] theorem inPlaceImm_keeps (op : AluOp) (r : RegName) (v : Byte) (s : State) :
    (inPlaceImm op r v s).mem = s.mem ∧ (inPlaceImm op r v s).prog = s.prog ∧ (inPlaceImm op r v s).pc = s.pc ∧
    (inPlaceImm op r v s).run = s.run ∧ (inPlaceImm op r v s).icnt = s.icnt ∧
    (inPlaceImm op r v s).inbuf = s.inbuf ∧ (inPlaceImm op r v s).cur = s.cur ∧
    (inPlaceImm op r v s).outlog = s.outlog := by
  simp [inPlaceImm]

@[simp] theorem busIdle_inPlaceImm {s : State} (h : s.busIdle = true) (op : AluOp) (r : RegName) (v : Byte) :
    (inPlaceImm op r v s).busIdle = true := by
  simp [inPlaceImm, h]

@[simp] theorem cell_inPlaceImm (op : AluOp) (r : RegName) (v : Byte) (s : State) (b : Byte) :
    (inPlaceImm op r v s).cell b = s.cell b := by
  simp [State.cell]

@[simp] theorem inPlace_keeps (op : AluOp) (r : RegName) (s : State) :
    (inPlace op r s).mem = s.mem ∧ (inPlace op r s).prog = s.prog ∧ (inPlace op r s).pc = s.pc ∧
    (inPlace op r s).run = s.run ∧ (inPlace op r s).icnt = s.icnt ∧ (inPlace op r s).inbuf = s.inbuf ∧
    (inPlace op r s).cur = s.cur ∧ (inPlace op r s).outlog = s.outlog := by
  simp [inPlace]

@[simp] theorem busIdle_inPlace {s : State} (h : s.busIdle = true) (op : AluOp) (r : RegName) :
    (inPlace op r s).busIdle = true := by
  simp [inPlace, h]

@[simp] theorem cell_inPlace (op : AluOp) (r : RegName) (s : State) (b : Byte) :
    (inPlace op r s).cell b = s.cell b := by
  simp [State.cell]

/-! ## ADD, SUB and CMP -/

@[simp] theorem addRound_keeps (left right : LimbSource) (i : Nat) (s : State) :
    (addRound left right i s).prog = s.prog ∧ (addRound left right i s).pc = s.pc ∧
    (addRound left right i s).run = s.run ∧ (addRound left right i s).icnt = s.icnt ∧
    (addRound left right i s).inbuf = s.inbuf ∧ (addRound left right i s).cur = s.cur ∧
    (addRound left right i s).outlog = s.outlog := by
  simp [addRound, addLimb, addStep]

/-- One limb of ADD leaves the sum in RES and MDR, the limbs in LOP and ROP, and the destination's address in MAR
(43_arith.md R142). -/
theorem val_addLimb {s : State} (h : s.busIdle = true) (left right : LimbSource) (i : Nat) (q : RegName) :
    (addLimb left right i s).val q =
      if q = .res ∨ q = .mdr then aluResult .add (limbAt left .sar i s) (limbAt right .tar i s) s.flags.c
      else if q = .lop then limbAt left .sar i s else if q = .rop then limbAt right .tar i s
      else if q = .mar then s.val .dar else s.val q := by
  have hl := busIdle_fetchLimb h left .sar .lop i
  have hr := busIdle_fetchLimb hl right .tar .rop i
  have ha : (alu .add (fetchLimb right .tar .rop i (fetchLimb left .sar .lop i s))).busIdle = true := by simpa using hr
  rw [addLimb, val_storeVia ha .dar (by decide)]
  cases left <;> cases right <;> cases q <;> simp [fetchLimb, limbAt, h, immLimb]

/-- One limb of ADD stores the sum at the address in DAR (43_arith.md R142). -/
theorem cell_addLimb {s : State} (h : s.busIdle = true) (hm : Memory.wf s.mem = true) (left right : LimbSource)
    (i : Nat) (b : Byte) :
    (addLimb left right i s).cell b =
      if b = s.val .dar then aluResult .add (limbAt left .sar i s) (limbAt right .tar i s) s.flags.c else s.cell b := by
  have hl := busIdle_fetchLimb h left .sar .lop i
  have hr := busIdle_fetchLimb hl right .tar .rop i
  have ha : (alu .add (fetchLimb right .tar .rop i (fetchLimb left .sar .lop i s))).busIdle = true := by simpa using hr
  rw [addLimb, cell_storeVia ha (by simpa using hm) .dar (by decide)]
  cases left <;> cases right <;> simp [fetchLimb, limbAt, h, immLimb]

/-- One limb of ADD leaves the sum's flags (43_arith.md R142). -/
theorem flags_addLimb {s : State} (h : s.busIdle = true) (left right : LimbSource) (i : Nat) :
    (addLimb left right i s).flags =
      aluFlags .add .nzvc (limbAt left .sar i s) (limbAt right .tar i s) s.flags := by
  simp only [addLimb, storeVia_keeps, flags_alu, fetchLimb_keeps]
  cases left <;> cases right <;> simp [fetchLimb, limbAt, h, immLimb]

@[simp] theorem busIdle_addLimb {s : State} (h : s.busIdle = true) (left right : LimbSource) (i : Nat) :
    (addLimb left right i s).busIdle = true := by
  have hr := busIdle_fetchLimb (busIdle_fetchLimb h left .sar .lop i) right .tar .rop i
  exact busIdle_storeVia (by simpa using hr) .dar .res

/-- The steps after a limb of ADD (43_arith.md R142). -/
theorem val_addStep {s : State} (h : s.busIdle = true) (left right : LimbSource) (q : RegName) :
    (addStep left right s).val q =
      if q = .dar ∨ q = .res then s.val .dar + 1 else if q = .rop then s.val .dar
      else if q = .sar then stepped left (s.val .sar) else if q = .tar then stepped right (s.val .tar)
      else s.val q := by
  have hl := busIdle_stepSource h left .sar
  have hr := busIdle_stepSource hl right .tar
  rw [addStep, val_stepAddress_incr hr]
  cases left <;> cases right <;> cases q <;> simp [stepSource, stepped, h]

/-- The steps after a limb of ADD leave N, Z, V of the destination's step and keep C (43_arith.md R142). -/
theorem flags_addStep {s : State} (h : s.busIdle = true) (left right : LimbSource) :
    (addStep left right s).flags = stepFlags (s.val .dar) s.flags.c := by
  have hl := busIdle_stepSource h left .sar
  have hr := busIdle_stepSource hl right .tar
  rw [addStep, flags_stepAddress hr, aluFlags_incr]
  cases left <;> cases right <;> simp [stepSource, h, aluFlags_incr]

@[simp] theorem cell_addStep (left right : LimbSource) (s : State) (b : Byte) :
    (addStep left right s).cell b = s.cell b := by
  simp [addStep]

@[simp] theorem busIdle_addRound {s : State} (h : s.busIdle = true) (left right : LimbSource) (i : Nat) :
    (addRound left right i s).busIdle = true := by
  have hf := busIdle_fetchLimb (busIdle_fetchLimb h left .sar .lop i) right .tar .rop i
  exact busIdle_stepAddress (busIdle_stepSource (busIdle_stepSource (busIdle_storeVia
    ((alu_keeps _ _).2.2.2.2.2.2.2.2.trans hf) .dar .res) left .sar) right .tar) .incr .dar

@[simp] theorem wf_addRound {s : State} (h : Memory.wf s.mem = true) (left right : LimbSource) (i : Nat) :
    Memory.wf (addRound left right i s).mem = true := by
  simp only [addRound, addStep, stepAddress_keeps, stepSource_keeps]
  exact wf_storeVia (by simpa using h) .dar .res

@[simp] theorem add4_keeps (d : Byte) (left right : LimbSource) (s : State) :
    (add4 d left right s).prog = s.prog ∧ (add4 d left right s).pc = s.pc ∧ (add4 d left right s).run = s.run ∧
    (add4 d left right s).icnt = s.icnt ∧ (add4 d left right s).inbuf = s.inbuf ∧
    (add4 d left right s).cur = s.cur ∧ (add4 d left right s).outlog = s.outlog := by
  simp [add4]

@[simp] theorem busIdle_add4 {s : State} (h : s.busIdle = true) (d : Byte) (left right : LimbSource) :
    (add4 d left right s).busIdle = true :=
  busIdle_addRound (busIdle_addRound (busIdle_addRound (busIdle_addRound (by simpa using h) left right 0) left right 1)
    left right 2) left right 3

@[simp] theorem wf_add4 {s : State} (h : Memory.wf s.mem = true) (d : Byte) (left right : LimbSource) :
    Memory.wf (add4 d left right s).mem = true :=
  wf_addRound (wf_addRound (wf_addRound (wf_addRound (by simpa using h) left right 0) left right 1) left right 2)
    left right 3

@[simp] theorem sub1_keeps (d left right : Byte) (s : State) :
    (sub1 d left right s).prog = s.prog ∧ (sub1 d left right s).pc = s.pc ∧ (sub1 d left right s).run = s.run ∧
    (sub1 d left right s).icnt = s.icnt ∧ (sub1 d left right s).inbuf = s.inbuf ∧
    (sub1 d left right s).cur = s.cur ∧ (sub1 d left right s).outlog = s.outlog := by
  simp [sub1]

@[simp] theorem busIdle_sub1 {s : State} (h : s.busIdle = true) (d left right : Byte) :
    (sub1 d left right s).busIdle = true := by
  simp [sub1, h]

@[simp] theorem wf_sub1 {s : State} (h : Memory.wf s.mem = true) (d left right : Byte) :
    Memory.wf (sub1 d left right s).mem = true := by
  simp [sub1, h]

@[simp] theorem busIdle_stepAddress3 {s : State} (h : s.busIdle = true) (ar : RegName) :
    (stepAddress3 ar s).busIdle = true :=
  busIdle_stepAddress (busIdle_stepAddress (busIdle_stepAddress h .incr ar) .incr ar) .incr ar

@[simp] theorem cmpLimb_keeps (s : State) :
    (cmpLimb s).mem = s.mem ∧ (cmpLimb s).prog = s.prog ∧ (cmpLimb s).pc = s.pc ∧ (cmpLimb s).run = s.run ∧
    (cmpLimb s).icnt = s.icnt ∧ (cmpLimb s).inbuf = s.inbuf ∧ (cmpLimb s).cur = s.cur ∧
    (cmpLimb s).outlog = s.outlog := by
  simp [cmpLimb]

@[simp] theorem busIdle_cmpLimb {s : State} (h : s.busIdle = true) : (cmpLimb s).busIdle = true := by
  simp [cmpLimb, h]

@[simp] theorem cmpStep_keeps (s : State) :
    (cmpStep s).mem = s.mem ∧ (cmpStep s).prog = s.prog ∧ (cmpStep s).pc = s.pc ∧ (cmpStep s).run = s.run ∧
    (cmpStep s).icnt = s.icnt ∧ (cmpStep s).inbuf = s.inbuf ∧ (cmpStep s).cur = s.cur ∧
    (cmpStep s).outlog = s.outlog := by
  simp [cmpStep]

@[simp] theorem busIdle_cmpStep {s : State} (h : s.busIdle = true) : (cmpStep s).busIdle = true := by
  simp [cmpStep, h]

/-- A property that each compare and each step down keeps is kept by the compare of all limbs. -/
theorem cmpFrom_induct {P : State → Prop} (hl : ∀ s, P s → P (cmpLimb s)) (hs : ∀ s, P s → P (cmpStep s)) :
    ∀ (i : Nat) (s : State), P s → P (cmpFrom i s)
  | 0, s, h => hl s h
  | i + 1, s, h => by
    simp only [cmpFrom]
    split
    · exact cmpFrom_induct hl hs i _ (hs _ (hl _ h))
    · exact hl _ h

@[simp] theorem cmpFrom_keeps (i : Nat) (s : State) :
    (cmpFrom i s).mem = s.mem ∧ (cmpFrom i s).prog = s.prog ∧ (cmpFrom i s).pc = s.pc ∧ (cmpFrom i s).run = s.run ∧
    (cmpFrom i s).icnt = s.icnt ∧ (cmpFrom i s).inbuf = s.inbuf ∧ (cmpFrom i s).cur = s.cur ∧
    (cmpFrom i s).outlog = s.outlog :=
  cmpFrom_induct (P := fun t => t.mem = s.mem ∧ t.prog = s.prog ∧ t.pc = s.pc ∧ t.run = s.run ∧ t.icnt = s.icnt ∧
    t.inbuf = s.inbuf ∧ t.cur = s.cur ∧ t.outlog = s.outlog)
    (fun t h => by simpa using h) (fun t h => by simpa using h) i s (by simp)

@[simp] theorem busIdle_cmpFrom {s : State} (h : s.busIdle = true) (i : Nat) : (cmpFrom i s).busIdle = true :=
  cmpFrom_induct (P := fun t => t.busIdle = true) (fun _ h => busIdle_cmpLimb h) (fun _ h => busIdle_cmpStep h) i s h

@[simp] theorem cmp4_keeps (left right : Byte) (s : State) :
    (cmp4 left right s).mem = s.mem ∧ (cmp4 left right s).prog = s.prog ∧ (cmp4 left right s).pc = s.pc ∧
    (cmp4 left right s).run = s.run ∧ (cmp4 left right s).icnt = s.icnt ∧ (cmp4 left right s).inbuf = s.inbuf ∧
    (cmp4 left right s).cur = s.cur ∧ (cmp4 left right s).outlog = s.outlog := by
  simp [cmp4, stepAddress3]

@[simp] theorem busIdle_cmp4 {s : State} (h : s.busIdle = true) (left right : Byte) :
    (cmp4 left right s).busIdle = true :=
  busIdle_cmpFrom (busIdle_stepAddress3 (busIdle_stepAddress3 (by simpa using h) .sar) .tar) 3

@[simp] theorem cell_cmp4 (left right : Byte) (s : State) (b : Byte) : (cmp4 left right s).cell b = s.cell b := by
  simp [State.cell]

/-! ## The end of an instruction -/

/-- An instruction that ends in `complete` answers a next state. -/
theorem complete_eq (t : Transfer) (s : State) : complete t s = .next (transferControl t (countStep s)) := rfl

/-- What the end of an instruction leaves alone: everything but `pc`, `RUN` and `ICNT` (41_control_unit.md R110, R116). -/
theorem of_complete {t : Transfer} {u s' : State} (h : complete t u = .next s') :
    s'.regs = u.regs ∧ s'.bus = u.bus ∧ s'.flags = u.flags ∧ s'.mem = u.mem ∧ s'.prog = u.prog ∧
    s'.icnt = u.icnt + 1 ∧ s'.inbuf = u.inbuf ∧ s'.cur = u.cur ∧ s'.outlog = u.outlog := by
  cases h
  simp

/-- An instruction whose operand check fails changes `RUN` alone (41_control_unit.md R113). -/
theorem of_unsupported {m : Mnemonic} {s s' : State} (h : unsupported m s = .next s') :
    s' = raise (.unsupportedOperand s.pc (opcodeOf m)) s := by
  cases h
  rfl

end Sys2Proof.Machine
end

