-- ==== Sys2Proof/Laws/Instr.lean ====
section
/-! SUPPORT. Everything an instruction and a step can do, said once: a well-formed instruction completes from a state that
its datapath part reached, any other instruction is unsupported, and a step is one of these or raises a fault. -/

namespace Sys2Proof.Machine

/-- What the datapath part of every instruction leaves alone: the control unit, the program and the input. It keeps the
bus idle, memory canonical and the cursor inside the input. -/
structure DatapathOnly (s u : State) : Prop where
  prog : u.prog = s.prog
  pc : u.pc = s.pc
  run : u.run = s.run
  icnt : u.icnt = s.icnt
  inbuf : u.inbuf = s.inbuf
  busIdle : s.busIdle = true → u.busIdle = true
  memWf : Memory.wf s.mem = true → Memory.wf u.mem = true
  cursor : s.cur ≤ s.inbuf.length → u.cur ≤ u.inbuf.length

namespace DatapathOnly

theorem refl (s : State) : DatapathOnly s s := ⟨rfl, rfl, rfl, rfl, rfl, id, id, id⟩

theorem trans {s u v : State} (h : DatapathOnly s u) (k : DatapathOnly u v) : DatapathOnly s v :=
  ⟨k.prog.trans h.prog, k.pc.trans h.pc, k.run.trans h.run, k.icnt.trans h.icnt, k.inbuf.trans h.inbuf,
    k.busIdle ∘ h.busIdle, k.memWf ∘ h.memWf, k.cursor ∘ h.cursor⟩

theorem ofMove (src dst : RegName) (s : State) : DatapathOnly s (move src dst s) := by
  constructor <;> simp +contextual

theorem ofStoreCell (a : Byte) (src : RegName) (s : State) : DatapathOnly s (storeCell a src s) := by
  constructor <;> simp +contextual

theorem ofLoadVia (ar dst : RegName) (s : State) : DatapathOnly s (loadVia ar dst s) := by
  constructor <;> simp +contextual

theorem ofStoreVia (ar src : RegName) (s : State) : DatapathOnly s (storeVia ar src s) := by
  constructor <;> simp +contextual

theorem ofRouteImm (v : Byte) (s : State) : DatapathOnly s (routeImm v s) := by
  constructor <;> simp +contextual

theorem ofRouteCell (a : Byte) (s : State) : DatapathOnly s (routeCell a s) := by
  constructor <;> simp +contextual

theorem ofClearC (s : State) : DatapathOnly s (clearC s) := by
  constructor <;> simp +contextual

theorem ofInPlaceImm (op : AluOp) (r : RegName) (v : Byte) (s : State) : DatapathOnly s (inPlaceImm op r v s) := by
  constructor <;> simp +contextual

theorem ofInPlace (op : AluOp) (r : RegName) (s : State) : DatapathOnly s (inPlace op r s) := by
  constructor <;> simp +contextual

theorem ofCompare (r : RegName) (v : Byte) (s : State) :
    DatapathOnly s (alu .sub (setReg .rop v (move r .lop s))) := by
  constructor <;> simp +contextual

theorem ofMov4 (d : Byte) (src : LimbSource) (s : State) : DatapathOnly s (mov4 d src s) := by
  constructor <;> simp +contextual

theorem ofAdd4 (d : Byte) (left right : LimbSource) (s : State) : DatapathOnly s (add4 d left right s) := by
  constructor <;> simp +contextual

theorem ofSub1 (d left right : Byte) (s : State) : DatapathOnly s (sub1 d left right s) := by
  constructor <;> simp +contextual

theorem ofCmp4 (left right : Byte) (s : State) : DatapathOnly s (cmp4 left right s) := by
  constructor <;> simp +contextual

theorem ofHook (p : Port) (s : State) : DatapathOnly s (hook p s) := by
  cases p with
  | sink => constructor <;> simp +contextual [hook]
  | source =>
    refine ⟨by simp [hook], by simp [hook], by simp [hook], by simp [hook], by simp [hook], by simp [hook],
      by simp [hook], fun h => ?_⟩
    rcases Nat.lt_or_ge s.cur s.inbuf.length with hl | hl
    · simp only [hook, (sourceHook_next hl).2, sourceHook_keeps]; exact hl
    · simpa only [hook, (sourceHook_exhausted hl).2, sourceHook_keeps] using h

end DatapathOnly

/-- Whether a register operand names a register, as the well-formedness check sees it (10_state.md R12). -/
theorem xreg?_cases (k : Byte) : (xreg? k = none ∧ decide (k.toNat < numNamedRegs) = false) ∨
    ∃ r, xreg? k = some r ∧ decide (k.toNat < numNamedRegs) = true := by
  have h := xreg?_isSome k
  cases hk : xreg? k with
  | none => exact .inl ⟨rfl, by rw [← h, hk]; rfl⟩
  | some r => exact .inr ⟨r, rfl, by rw [← h, hk]; rfl⟩

/-- Whether a port operand names a device, as the well-formedness check sees it (10_state.md R24). -/
theorem port?_cases (p : Byte) : (port? p = none ∧ decide (p.toNat < Config.numPorts) = false) ∨
    ∃ q, port? p = some q ∧ decide (p.toNat < Config.numPorts) = true := by
  have h := port?_isSome p
  cases hp : port? p with
  | none => exact .inl ⟨rfl, by rw [← h, hp]; rfl⟩
  | some q => exact .inr ⟨q, rfl, by rw [← h, hp]; rfl⟩

/-- Everything an instruction can do: well-formed, it completes with its transfer from a state its datapath part reached;
otherwise it is unsupported (41_control_unit.md R110, R113). -/
theorem exec_cases (i : Instr) (s : State) :
    (i.wf = true ∧ ∃ u, exec i s = complete (transferOf s i) u ∧ DatapathOnly s u) ∨
    (i.wf = false ∧ exec i s = unsupported i.mnemonic s) := by
  cases i with
  | nop => exact .inl ⟨rfl, s, rfl, .refl s⟩
  | hlt => exact .inl ⟨rfl, s, rfl, .refl s⟩
  | movRI k v =>
    rcases xreg?_cases k with ⟨h, hw⟩ | ⟨r, h, hw⟩
    · exact .inr ⟨by simp only [Instr.wf, Instr.regsNamed, Instr.portsNamed, Instr.regOperands, Instr.portOperands,
        List.all_cons, List.all_nil, hw, Bool.false_and], by simp only [exec, execMovRI, deliverReg, h]; rfl⟩
    · exact .inl ⟨by simp only [Instr.wf, Instr.regsNamed, Instr.portsNamed, Instr.regOperands, Instr.portOperands,
        List.all_cons, List.all_nil, hw, Bool.and_true],
        _, by simp only [exec, execMovRI, deliverReg, h]; rfl, (DatapathOnly.ofRouteImm v s).trans (.ofMove .br r _)⟩
  | movRM k a =>
    rcases xreg?_cases k with ⟨h, hw⟩ | ⟨r, h, hw⟩
    · exact .inr ⟨by simp only [Instr.wf, Instr.regsNamed, Instr.portsNamed, Instr.regOperands, Instr.portOperands,
        List.all_cons, List.all_nil, hw, Bool.false_and], by simp only [exec, execMovRM, deliverReg, h]; rfl⟩
    · exact .inl ⟨by simp only [Instr.wf, Instr.regsNamed, Instr.portsNamed, Instr.regOperands, Instr.portOperands,
        List.all_cons, List.all_nil, hw, Bool.and_true],
        _, by simp only [exec, execMovRM, deliverReg, h]; rfl, (DatapathOnly.ofRouteCell a s).trans (.ofMove .br r _)⟩
  | movMI d v => exact .inl ⟨rfl, _, rfl, (DatapathOnly.ofRouteImm v s).trans (.ofStoreCell d .br _)⟩
  | movMM d a => exact .inl ⟨rfl, _, rfl, (DatapathOnly.ofRouteCell a s).trans (.ofStoreCell d .br _)⟩
  | movII d v => exact .inl ⟨rfl, _, rfl, (DatapathOnly.ofRouteImm v s).trans (.ofStoreCell d .br _)⟩
  | movIM d a => exact .inl ⟨rfl, _, rfl, (DatapathOnly.ofRouteCell a s).trans (.ofStoreCell d .br _)⟩
  | mov4MI d v => exact .inl ⟨rfl, _, rfl, .ofMov4 d (.imm v) s⟩
  | mov4MM d a => exact .inl ⟨rfl, _, rfl, .ofMov4 d (.mem a) s⟩
  | add1RI k v =>
    rcases xreg?_cases k with ⟨h, hw⟩ | ⟨r, h, hw⟩
    · exact .inr ⟨by simp only [Instr.wf, Instr.regsNamed, Instr.portsNamed, Instr.regOperands, Instr.portOperands,
        List.all_cons, List.all_nil, hw, Bool.false_and], by simp only [exec, execAdd1RI, h]; rfl⟩
    · exact .inl ⟨by simp only [Instr.wf, Instr.regsNamed, Instr.portsNamed, Instr.regOperands, Instr.portOperands,
        List.all_cons, List.all_nil, hw, Bool.and_true],
        _, by simp only [exec, execAdd1RI, h]; rfl, (DatapathOnly.ofClearC s).trans (.ofInPlaceImm .add r v _)⟩
  | addMMM d l r => exact .inl ⟨rfl, _, rfl, .ofAdd4 d (.mem l) (.mem r) s⟩
  | addMMI d l r => exact .inl ⟨rfl, _, rfl, .ofAdd4 d (.mem l) (.imm r) s⟩
  | addMIM d l r => exact .inl ⟨rfl, _, rfl, .ofAdd4 d (.imm l) (.mem r) s⟩
  | addMII d l r => exact .inl ⟨rfl, _, rfl, .ofAdd4 d (.imm l) (.imm r) s⟩
  | subMIM d l r => exact .inl ⟨rfl, _, rfl, .ofSub1 d l r s⟩
  | cmpMM l r => exact .inl ⟨rfl, _, rfl, .ofCmp4 l r s⟩
  | cmpRI k v =>
    rcases xreg?_cases k with ⟨h, hw⟩ | ⟨r, h, hw⟩
    · exact .inr ⟨by simp only [Instr.wf, Instr.regsNamed, Instr.portsNamed, Instr.regOperands, Instr.portOperands,
        List.all_cons, List.all_nil, hw, Bool.false_and], by simp only [exec, execCmpRI, h]; rfl⟩
    · exact .inl ⟨by simp only [Instr.wf, Instr.regsNamed, Instr.portsNamed, Instr.regOperands, Instr.portOperands,
        List.all_cons, List.all_nil, hw, Bool.and_true],
        _, by simp only [exec, execCmpRI, h]; rfl, .ofCompare r v s⟩
  | shlRI k n =>
    rcases xreg?_cases k with ⟨h, hw⟩ | ⟨r, h, hw⟩
    · exact .inr ⟨by simp only [Instr.wf, Instr.regsNamed, Instr.portsNamed, Instr.regOperands, Instr.portOperands,
        List.all_cons, List.all_nil, hw, Bool.false_and], by simp only [exec, execShlRI, h]; rfl⟩
    · exact .inl ⟨by simp only [Instr.wf, Instr.regsNamed, Instr.portsNamed, Instr.regOperands, Instr.portOperands,
        List.all_cons, List.all_nil, hw, Bool.and_true],
        _, by simp only [exec, execShlRI, h]; rfl, .ofInPlaceImm .shl r n s⟩
  | shrRI k n =>
    rcases xreg?_cases k with ⟨h, hw⟩ | ⟨r, h, hw⟩
    · exact .inr ⟨by simp only [Instr.wf, Instr.regsNamed, Instr.portsNamed, Instr.regOperands, Instr.portOperands,
        List.all_cons, List.all_nil, hw, Bool.false_and], by simp only [exec, execShrRI, h]; rfl⟩
    · exact .inl ⟨by simp only [Instr.wf, Instr.regsNamed, Instr.portsNamed, Instr.regOperands, Instr.portOperands,
        List.all_cons, List.all_nil, hw, Bool.and_true],
        _, by simp only [exec, execShrRI, h]; rfl, .ofInPlaceImm .shr r n s⟩
  | incR k =>
    rcases xreg?_cases k with ⟨h, hw⟩ | ⟨r, h, hw⟩
    · exact .inr ⟨by simp only [Instr.wf, Instr.regsNamed, Instr.portsNamed, Instr.regOperands, Instr.portOperands,
        List.all_cons, List.all_nil, hw, Bool.false_and], by simp only [exec, execIncR, h]; rfl⟩
    · exact .inl ⟨by simp only [Instr.wf, Instr.regsNamed, Instr.portsNamed, Instr.regOperands, Instr.portOperands,
        List.all_cons, List.all_nil, hw, Bool.and_true], _, by simp only [exec, execIncR, h]; rfl, .ofInPlace .incl r s⟩
  | decR k =>
    rcases xreg?_cases k with ⟨h, hw⟩ | ⟨r, h, hw⟩
    · exact .inr ⟨by simp only [Instr.wf, Instr.regsNamed, Instr.portsNamed, Instr.regOperands, Instr.portOperands,
        List.all_cons, List.all_nil, hw, Bool.false_and], by simp only [exec, execDecR, h]; rfl⟩
    · exact .inl ⟨by simp only [Instr.wf, Instr.regsNamed, Instr.portsNamed, Instr.regOperands, Instr.portOperands,
        List.all_cons, List.all_nil, hw, Bool.and_true], _, by simp only [exec, execDecR, h]; rfl, .ofInPlace .decl r s⟩
  | ldRR a k =>
    rcases xreg?_cases a with ⟨h, hw⟩ | ⟨r, h, hw⟩
    · exact .inr ⟨by simp only [Instr.wf, Instr.regsNamed, Instr.portsNamed, Instr.regOperands, Instr.portOperands,
        List.all_cons, List.all_nil, hw, Bool.false_and], by simp only [exec, execLdRR, h]; rfl⟩
    · rcases xreg?_cases k with ⟨h', hw'⟩ | ⟨t, h', hw'⟩
      · exact .inr ⟨by simp only [Instr.wf, Instr.regsNamed, Instr.portsNamed, Instr.regOperands, Instr.portOperands,
          List.all_cons, List.all_nil, hw', Bool.and_false, Bool.false_and],
          by simp only [exec, execLdRR, h, h']; rfl⟩
      · exact .inl ⟨by simp only [Instr.wf, Instr.regsNamed, Instr.portsNamed, Instr.regOperands, Instr.portOperands,
          List.all_cons, List.all_nil, hw, hw', Bool.and_true],
          _, by simp only [exec, execLdRR, h, h']; rfl, .ofLoadVia r t s⟩
  | stRR a k =>
    rcases xreg?_cases a with ⟨h, hw⟩ | ⟨r, h, hw⟩
    · exact .inr ⟨by simp only [Instr.wf, Instr.regsNamed, Instr.portsNamed, Instr.regOperands, Instr.portOperands,
        List.all_cons, List.all_nil, hw, Bool.false_and], by simp only [exec, execStRR, h]; rfl⟩
    · rcases xreg?_cases k with ⟨h', hw'⟩ | ⟨t, h', hw'⟩
      · exact .inr ⟨by simp only [Instr.wf, Instr.regsNamed, Instr.portsNamed, Instr.regOperands, Instr.portOperands,
          List.all_cons, List.all_nil, hw', Bool.and_false, Bool.false_and],
          by simp only [exec, execStRR, h, h']; rfl⟩
      · exact .inl ⟨by simp only [Instr.wf, Instr.regsNamed, Instr.portsNamed, Instr.regOperands, Instr.portOperands,
          List.all_cons, List.all_nil, hw, hw', Bool.and_true],
          _, by simp only [exec, execStRR, h, h']; rfl, .ofStoreVia r t s⟩
  | inI p =>
    rcases port?_cases p with ⟨h, hw⟩ | ⟨q, h, hw⟩
    · exact .inr ⟨by simp only [Instr.wf, Instr.regsNamed, Instr.portsNamed, Instr.regOperands, Instr.portOperands,
        List.all_cons, List.all_nil, hw, Bool.false_and, Bool.and_false], by simp only [exec, execInI, h]; rfl⟩
    · exact .inl ⟨by simp only [Instr.wf, Instr.regsNamed, Instr.portsNamed, Instr.regOperands, Instr.portOperands,
        List.all_cons, List.all_nil, hw, Bool.and_true],
        _, by simp only [exec, execInI, h]; rfl, (DatapathOnly.ofMove q.reg .ior s).trans (.ofHook q _)⟩
  | outI p =>
    rcases port?_cases p with ⟨h, hw⟩ | ⟨q, h, hw⟩
    · exact .inr ⟨by simp only [Instr.wf, Instr.regsNamed, Instr.portsNamed, Instr.regOperands, Instr.portOperands,
        List.all_cons, List.all_nil, hw, Bool.false_and, Bool.and_false], by simp only [exec, execOutI, h]; rfl⟩
    · exact .inl ⟨by simp only [Instr.wf, Instr.regsNamed, Instr.portsNamed, Instr.regOperands, Instr.portOperands,
        List.all_cons, List.all_nil, hw, Bool.and_true],
        _, by simp only [exec, execOutI, h]; rfl, (DatapathOnly.ofMove .ior q.reg s).trans (.ofHook q _)⟩
  | jeI t => exact .inl ⟨rfl, s, rfl, .refl s⟩
  | jneI t => exact .inl ⟨rfl, s, by cases h : s.flags.z <;> simp [exec, execJneI, jumpIf, transferOf, h], .refl s⟩
  | jaeI t => exact .inl ⟨rfl, s, by cases h : s.flags.n <;> simp [exec, execJaeI, jumpIf, transferOf, h], .refl s⟩
  | jmpI t => exact .inl ⟨rfl, s, rfl, .refl s⟩

/-- Everything a step that leaves a state can do: raise a fault, or complete an instruction from a state its datapath part
reached (41_control_unit.md R110). -/
theorem step_cases {s t : State} (h : step s = .next t) :
    (∃ f, t = raise f s) ∨
    ∃ i u, exec i s = .next t ∧ complete (transferOf s i) u = .next t ∧ DatapathOnly s u := by
  have ofInstr : ∀ i, exec i s = .next t → (∃ f, t = raise f s) ∨
      ∃ i u, exec i s = .next t ∧ complete (transferOf s i) u = .next t ∧ DatapathOnly s u := fun i hi => by
    rcases exec_cases i s with ⟨_, u, hu, hd⟩ | ⟨_, hu⟩
    · exact .inr ⟨i, u, hi, hu ▸ hi, hd⟩
    · exact .inl ⟨_, of_unsupported (hu ▸ hi)⟩
  simp only [step] at h
  split at h
  · cases h
  · cases h
  · split at h
    · cases h; exact .inl ⟨_, rfl⟩
    · rename_i cmd _
      simp only [runCommand] at h
      split at h
      · rename_i reject _
        cases h
        cases reject <;> exact .inl ⟨_, rfl⟩
      · exact ofInstr _ h

end Sys2Proof.Machine
end

