-- ==== Sys2Proof/Laws/PerInstr.lean ====
section
/-! SUPPORT. The statements made for all instructions, one lemma per constructor.
Family `Form`: the Command an instruction stands for can be encoded, and it is dispatched back to that instruction. -/

namespace Sys2Proof.Laws.Form

/-- Placed at any address, the instruction's Command fits the format and is dispatched to the instruction
(spec/30_encoding.md R65, R68; spec/41_control_unit.md R112, R113). -/
def Statement (i : Instr) : Prop :=
  ∀ address : Byte, (i.toCommand address).encodable = true ∧ classify (i.toCommand address) = .ok i

theorem nop : Statement .nop := fun _ => ⟨rfl, rfl⟩
theorem hlt : Statement .hlt := fun _ => ⟨rfl, rfl⟩
theorem movRI (dst src : Byte) : Statement (.movRI dst src) := fun _ => ⟨rfl, rfl⟩
theorem movRM (dst src : Byte) : Statement (.movRM dst src) := fun _ => ⟨rfl, rfl⟩
theorem movMI (dst src : Byte) : Statement (.movMI dst src) := fun _ => ⟨rfl, rfl⟩
theorem movMM (dst src : Byte) : Statement (.movMM dst src) := fun _ => ⟨rfl, rfl⟩
theorem movII (dst src : Byte) : Statement (.movII dst src) := fun _ => ⟨rfl, rfl⟩
theorem movIM (dst src : Byte) : Statement (.movIM dst src) := fun _ => ⟨rfl, rfl⟩
theorem mov4MI (dst src : Byte) : Statement (.mov4MI dst src) := fun _ => ⟨rfl, rfl⟩
theorem mov4MM (dst src : Byte) : Statement (.mov4MM dst src) := fun _ => ⟨rfl, rfl⟩
theorem add1RI (reg imm : Byte) : Statement (.add1RI reg imm) := fun _ => ⟨rfl, rfl⟩
theorem addMMM (dst left right : Byte) : Statement (.addMMM dst left right) := fun _ => ⟨rfl, rfl⟩
theorem addMMI (dst left right : Byte) : Statement (.addMMI dst left right) := fun _ => ⟨rfl, rfl⟩
theorem addMIM (dst left right : Byte) : Statement (.addMIM dst left right) := fun _ => ⟨rfl, rfl⟩
theorem addMII (dst left right : Byte) : Statement (.addMII dst left right) := fun _ => ⟨rfl, rfl⟩
theorem subMIM (dst left right : Byte) : Statement (.subMIM dst left right) := fun _ => ⟨rfl, rfl⟩
theorem cmpMM (left right : Byte) : Statement (.cmpMM left right) := fun _ => ⟨rfl, rfl⟩
theorem cmpRI (left right : Byte) : Statement (.cmpRI left right) := fun _ => ⟨rfl, rfl⟩
theorem shlRI (reg amount : Byte) : Statement (.shlRI reg amount) := fun _ => ⟨rfl, rfl⟩
theorem shrRI (reg amount : Byte) : Statement (.shrRI reg amount) := fun _ => ⟨rfl, rfl⟩
theorem incR (reg : Byte) : Statement (.incR reg) := fun _ => ⟨rfl, rfl⟩
theorem decR (reg : Byte) : Statement (.decR reg) := fun _ => ⟨rfl, rfl⟩
theorem ldRR (addrReg dstReg : Byte) : Statement (.ldRR addrReg dstReg) := fun _ => ⟨rfl, rfl⟩
theorem stRR (addrReg srcReg : Byte) : Statement (.stRR addrReg srcReg) := fun _ => ⟨rfl, rfl⟩
theorem inI (port : Byte) : Statement (.inI port) := fun _ => ⟨rfl, rfl⟩
theorem outI (port : Byte) : Statement (.outI port) := fun _ => ⟨rfl, rfl⟩
theorem jeI (target : Byte) : Statement (.jeI target) := fun _ => ⟨rfl, rfl⟩
theorem jneI (target : Byte) : Statement (.jneI target) := fun _ => ⟨rfl, rfl⟩
theorem jaeI (target : Byte) : Statement (.jaeI target) := fun _ => ⟨rfl, rfl⟩
theorem jmpI (target : Byte) : Statement (.jmpI target) := fun _ => ⟨rfl, rfl⟩

end Sys2Proof.Laws.Form
end

