-- ==== Sys2Proof/Tests/Slice0.lean ====
section
/-! SUPPORT. Tests of the model. Expected results are those of spec/95_test_vectors.md, by its section numbers, of the
encodings of spec/30_encoding.md and of spec/opcode_table.json; and the witnesses that the hypotheses of the statements
can be met. -/

set_option maxRecDepth 20000

namespace Sys2Proof.Tests

open Sys2Proof.Machine

/-! ## Well-formedness: each check refuses an ill-formed term -/

theorem test_wf_accepts : (Instr.ldRR 3 3).wf = true ∧ (Instr.outI 1).wf = true := by decide
theorem test_wf_refuses_register : (Instr.incR 4).regsNamed = false ∧ (Instr.ldRR 0 4).wf = false := by decide
theorem test_wf_refuses_port : (Instr.inI 2).portsNamed = false ∧ (Instr.outI 255).wf = false := by decide
theorem test_encodable_refuses_bare_operands : (Command.mk 0x01 [⟨.imm, 0⟩] 0).encodable = false := by decide
theorem test_encodable_refuses_five :
    (Command.mk 0x02 [⟨.imm, 0⟩, ⟨.imm, 0⟩, ⟨.imm, 0⟩, ⟨.imm, 0⟩, ⟨.imm, 0⟩] 0).encodable = false := by decide
theorem test_memory_wf_refuses : Memory.wf [(1, 0)] = false ∧ Memory.wf [(2, 1), (1, 1)] = false ∧
    Memory.wf [(1, 1), (1, 2)] = false ∧ Memory.wf [(256, 1)] = false := by decide
theorem test_state_wf_refuses : (setCur 1 State.reset).wf = false ∧ (openIn .ac State.reset).wf = false ∧
    ({ State.reset with prog := [⟨0, [], 1⟩, ⟨0, [], 1⟩] } : State).wf = false := by decide

/-! ## Decoding, section 2.2 -/

/-- The Commands of a stream, each with its address and the instruction it is dispatched to. -/
def decoded (stream : List Byte) : Option (List (Byte × Option Instr)) :=
  match decodeProgram stream with
  | .error _ => none
  | .ok cmds => some (cmds.map fun c => (c.address, match classify c with
    | .ok i => some i
    | .error _ => none))

/-- Why a stream is refused. -/
def refusal (stream : List Byte) : Option MalformedCause :=
  match decodeProgram stream with
  | .error e => some e
  | .ok _ => none

/-- A record at address 0 is the instruction's, in both directions. -/
def recordOf (record : List Byte) (i : Instr) : Prop := decoded record = some [(0, some i)] ∧ encode 0 i = record

theorem test_decode_nop : recordOf [0x00, 0x00] .nop := ⟨by decide, by decide⟩
theorem test_decode_hlt : recordOf [0x00, 0x01] .hlt := ⟨by decide, by decide⟩
theorem test_decode_movRI : recordOf [0x00, 0x02, 0xE0, 0x02, 0x2A] (.movRI 2 0x2A) := ⟨by decide, by decide⟩
theorem test_decode_movRM : recordOf [0x00, 0x02, 0xD0, 0x00, 0x10] (.movRM 0 0x10) := ⟨by decide, by decide⟩
theorem test_decode_movMI : recordOf [0x00, 0x02, 0x60, 0x20, 0x07] (.movMI 0x20 7) := ⟨by decide, by decide⟩
theorem test_decode_movMM : recordOf [0x00, 0x02, 0x50, 0x20, 0x10] (.movMM 0x20 0x10) := ⟨by decide, by decide⟩
theorem test_decode_movII : recordOf [0x00, 0x02, 0xA0, 0x20, 0x07] (.movII 0x20 7) := ⟨by decide, by decide⟩
theorem test_decode_movIM : recordOf [0x00, 0x02, 0x90, 0x20, 0x10] (.movIM 0x20 0x10) := ⟨by decide, by decide⟩
theorem test_decode_mov4MI : recordOf [0x00, 0x03, 0x60, 0x10, 0x07] (.mov4MI 0x10 7) := ⟨by decide, by decide⟩
theorem test_decode_mov4MM : recordOf [0x00, 0x03, 0x50, 0x20, 0x10] (.mov4MM 0x20 0x10) := ⟨by decide, by decide⟩
theorem test_decode_add1RI : recordOf [0x00, 0x04, 0xE0, 0x02, 0x05] (.add1RI 2 5) := ⟨by decide, by decide⟩
theorem test_decode_addMMM : recordOf [0x00, 0x05, 0x54, 0x30, 0x10, 0x14] (.addMMM 0x30 0x10 0x14) :=
  ⟨by decide, by decide⟩
theorem test_decode_addMMI : recordOf [0x00, 0x05, 0x58, 0x20, 0x20, 0x01] (.addMMI 0x20 0x20 1) :=
  ⟨by decide, by decide⟩
theorem test_decode_addMIM : recordOf [0x00, 0x05, 0x64, 0x30, 0xC8, 0x14] (.addMIM 0x30 0xC8 0x14) :=
  ⟨by decide, by decide⟩
theorem test_decode_addMII : recordOf [0x00, 0x05, 0x68, 0x30, 0xC8, 0x64] (.addMII 0x30 0xC8 0x64) :=
  ⟨by decide, by decide⟩
theorem test_decode_subMIM : recordOf [0x00, 0x06, 0x64, 0x31, 0x0A, 0x30] (.subMIM 0x31 0x0A 0x30) :=
  ⟨by decide, by decide⟩
theorem test_decode_cmpMM : recordOf [0x00, 0x07, 0x50, 0x40, 0x44] (.cmpMM 0x40 0x44) := ⟨by decide, by decide⟩
theorem test_decode_cmpRI : recordOf [0x00, 0x07, 0xE0, 0x02, 0x05] (.cmpRI 2 5) := ⟨by decide, by decide⟩
theorem test_decode_shlRI : recordOf [0x00, 0x08, 0xE0, 0x02, 0x01] (.shlRI 2 1) := ⟨by decide, by decide⟩
theorem test_decode_shrRI : recordOf [0x00, 0x09, 0xE0, 0x02, 0x04] (.shrRI 2 4) := ⟨by decide, by decide⟩
theorem test_decode_incR : recordOf [0x00, 0x0A, 0xC0, 0x02] (.incR 2) := ⟨by decide, by decide⟩
theorem test_decode_decR : recordOf [0x00, 0x0B, 0xC0, 0x02] (.decR 2) := ⟨by decide, by decide⟩
theorem test_decode_ldRR : recordOf [0x00, 0x0C, 0xF0, 0x02, 0x03] (.ldRR 2 3) := ⟨by decide, by decide⟩
theorem test_decode_stRR : recordOf [0x00, 0x0D, 0xF0, 0x02, 0x03] (.stRR 2 3) := ⟨by decide, by decide⟩
theorem test_decode_inI : recordOf [0x00, 0x0E, 0x80, 0x00] (.inI 0) := ⟨by decide, by decide⟩
theorem test_decode_outI : recordOf [0x00, 0x0F, 0x80, 0x01] (.outI 1) := ⟨by decide, by decide⟩
theorem test_decode_jeI : recordOf [0x00, 0x10, 0x80, 0x15] (.jeI 0x15) := ⟨by decide, by decide⟩
theorem test_decode_jneI : recordOf [0x00, 0x11, 0x80, 0x0A] (.jneI 0x0A) := ⟨by decide, by decide⟩
theorem test_decode_jaeI : recordOf [0x00, 0x12, 0x80, 0x0E] (.jaeI 0x0E) := ⟨by decide, by decide⟩
theorem test_decode_jmpI : recordOf [0x00, 0x13, 0x80, 0x00] (.jmpI 0) := ⟨by decide, by decide⟩

theorem test_decode_two_records : decoded [0x00, 0x00, 0x02, 0x01] = some [(0, some .nop), (2, some .hlt)] := by decide
theorem test_decode_ignored_fields : decoded [0x00, 0x0A, 0xC7, 0x02] = some [(0, some (.incR 2))] := by decide
theorem test_decode_four_operands : decoded [0x00, 0x02, 0xFF, 0x01, 0x02, 0x03, 0x04] = some [(0, none)] := by decide
theorem test_decode_no_operands : decoded [0x00, 0x02, 0x00] = some [(0, none)] := by decide
theorem test_decode_unknown_opcode : decoded [0x00, 0x2A, 0x80, 0x05] = some [(0, none)] := by decide
theorem test_encode_four_operands : encodeCommand ⟨0x02, [⟨.reg, 1⟩, ⟨.imm, 2⟩, ⟨.mem, 3⟩, ⟨.reg, 4⟩], 0x07⟩ =
    [0x07, 0x02, 0xE7, 0x01, 0x02, 0x03, 0x04] := by decide
theorem test_refuse_truncated : refusal [0x00] = some (.truncatedRecord 0) ∧
    refusal [0x00, 0x02] = some (.truncatedRecord 2) ∧ refusal [0x00, 0x2A] = some (.truncatedRecord 2) ∧
    refusal [0x00, 0x02, 0xE0, 0x02] = some (.truncatedRecord 4) ∧
    refusal [0x00, 0x05, 0x54, 0x18] = some (.truncatedRecord 4) := by decide

/-- The rows of spec/opcode_table.json, by their own numbering, with operand bits 0. -/
theorem test_table_words : decodeTableWord 8 0x00 = some .nop ∧ decodeTableWord 8 0x01 = some .hlt ∧
    decodeTableWord 16 0x02D0 = some (.movRM 0 0) ∧ decodeTableWord 16 0x0554 = some (.addMMM 0 0 0) ∧
    decodeTableWord 16 0x1380 = some (.jmpI 0) ∧ decodeTableWord 32 0x2A0202E0 = some (.movRI 2 0x2A) ∧
    decodeTableWord 16 0x1480 = none := by decide

/-- A word placed where the first step after reset fetches is what that step runs (spec/41_control_unit.md R116). -/
theorem test_fetch_word : stateAfter (step (State.reset.withFetchWord 8 0x01)) =
    some { State.reset.withFetchWord 8 0x01 with run := .halted, icnt := 1 } := by decide

/-! ## Load checks, section 2.2 -/

theorem test_load_empty : (construct [] [] []).run = .faulted (.malformedProgram .emptyProgram) := by decide
theorem test_load_duplicate :
    (construct [0x04, 0x01, 0x04, 0x01] [] []).run = .faulted (.malformedProgram (.addressOrder 4)) := by decide
theorem test_load_decreasing :
    (construct [0x04, 0x01, 0x02, 0x01] [] []).run = .faulted (.malformedProgram (.addressOrder 2)) := by decide
theorem test_load_image_too_large : (construct [0x00, 0x01] (List.replicate 257 0) []).run =
    .faulted (.malformedProgram (.imageTooLarge 257)) := by decide
theorem test_load_full_image : (construct [0x00, 0x01] (List.replicate 256 0) []).run = .running := by decide
theorem test_load_first_address : (construct [0x05, 0x00, 0x09, 0x01] [] []).pc = 5 := by decide
theorem test_load_primes_source :
    (construct [0x00, 0x0E, 0x80, 0x00] [] [0x48, 0x69]).val .pr0 = 0x48 ∧
      (construct [0x00, 0x0E, 0x80, 0x00] [] [0x48, 0x69]).cur = 1 := by decide

/-! ## One step, sections 1.2 and 2.3 to 2.6 -/

/-- A core at a record followed by HLT at 0xF0, with the given changes. -/
def at0 (record : List Byte) (change : State → State) : State := change (construct (record ++ [0xF0, 0x01]) [] [])

/-- Some values of the state after one step. -/
def after {α : Type} (f : State → α) (s : State) : Option α := (stateAfter (step s)).map f

/-- Changes: registers, cells, and all four flags at once. -/
def regs (l : List (RegName × Byte)) (s : State) : State := l.foldl (fun t x => setReg x.1 x.2 t) s
def cells (l : List (Byte × Byte)) (s : State) : State := l.foldl (fun t x => putCell x.1 x.2 t) s
def flagged (n z v c : Bool) (s : State) : State := setFlags ⟨n, z, v, c⟩ s

theorem test_movRI_and_flags :
    after (fun t => ([t.val .ac, t.val .br, t.val .ior], t.flags))
      (at0 [0x00, 0x02, 0xE0, 0x03, 0x41] (flagged true true true true)) =
    some ([0x41, 0x41, 0x41], ⟨true, true, true, true⟩) := by decide
theorem test_movRM :
    after (fun t => [t.val .ac, t.val .br, t.val .mar, t.val .mdr])
      (at0 [0x00, 0x02, 0xD0, 0x00, 0x10] (cells [(0x10, 0x99)] ∘ regs [(.br, 0x11)])) =
    some [0x99, 0x99, 0x10, 0x99] := by decide
theorem test_movMI :
    after (fun t => ([t.val .ac, t.val .br, t.val .mar, t.val .mdr], [t.cell 0x20]))
      (at0 [0x00, 0x02, 0x60, 0x20, 0x07] id) =
    some ([0x07, 0x07, 0x20, 0x07], [0x07]) := by decide
theorem test_movMM :
    after (fun t => ([t.val .ac, t.val .br, t.val .mar, t.val .mdr], [t.cell 0x10, t.cell 0x20]))
      (at0 [0x00, 0x02, 0x50, 0x20, 0x10] (cells [(0x10, 0x99)])) =
    some ([0x99, 0x99, 0x20, 0x99], [0x99, 0x99]) := by decide
theorem test_movII :
    after (fun t => ([t.val .ac, t.val .br, t.val .mar, t.val .mdr], [t.cell 0x20]))
      (at0 [0x00, 0x02, 0xA0, 0x20, 0x07] id) =
    some ([0x07, 0x07, 0x20, 0x07], [0x07]) := by decide
theorem test_movIM :
    after (fun t => ([t.val .ac, t.val .br, t.val .mar, t.val .mdr], [t.cell 0x20]))
      (at0 [0x00, 0x02, 0x90, 0x20, 0x10] (cells [(0x10, 0x99)])) =
    some ([0x99, 0x99, 0x20, 0x99], [0x99]) := by decide
theorem test_mov4MI :
    after (fun t => ([t.val .ac, t.val .br, t.val .mdr, t.val .dar, t.val .mar, t.val .res, t.val .rop],
        [t.cell 0x10, t.cell 0x11, t.cell 0x12, t.cell 0x13], t.flags))
      (at0 [0x00, 0x03, 0x60, 0x10, 0x07] (cells [(0x11, 0xAA), (0x13, 0xCC)] ∘ flagged false false false true)) =
    some ([0x00, 0x00, 0x00, 0x13, 0x13, 0x13, 0x12],
      [0x07, 0x00, 0x00, 0x00], ⟨false, false, false, true⟩) := by decide
theorem test_mov4MM :
    after (fun t => ([t.val .ac, t.val .mdr, t.val .sar, t.val .dar, t.val .mar, t.val .res, t.val .rop],
        [t.cell 0x20, t.cell 0x21, t.cell 0x22, t.cell 0x23]))
      (at0 [0x00, 0x03, 0x50, 0x20, 0x10] (cells [(0x10, 0x78), (0x11, 0x56), (0x12, 0x34), (0x13, 0x12)])) =
    some ([0x12, 0x12, 0x13, 0x23, 0x23, 0x23, 0x22], [0x78, 0x56, 0x34, 0x12]) := by decide
/-- Section 1.2, S7. -/
theorem test_add1RI :
    after (fun t => ([t.val .cr, t.val .lop, t.val .rop, t.val .res], t.flags))
      (at0 [0x00, 0x04, 0xE0, 0x02, 0x05] (regs [(.cr, 0x0A)] ∘ flagged false false false true)) =
    some ([0x0F, 0x0A, 0x05, 0x0F], ⟨false, false, false, false⟩) := by decide
theorem test_addMMM :
    after (fun t => ([t.cell 0x30, t.cell 0x31, t.cell 0x32, t.cell 0x33],
        [t.val .sar, t.val .tar, t.val .dar, t.val .res, t.val .mar, t.val .rop, t.val .mdr, t.val .lop], t.flags))
      (at0 [0x00, 0x05, 0x54, 0x30, 0x10, 0x14]
        (cells [(0x10, 0x78), (0x11, 0x56), (0x12, 0x34), (0x13, 0x12), (0x14, 0xF0), (0x15, 0xDE), (0x16, 0xBC),
        (0x17, 0x9A)])) =
    some ([0x68, 0x35, 0xF1, 0xAC],
      [0x14, 0x18, 0x34, 0x34, 0x33, 0x33, 0xAC, 0x12], ⟨false, false, false, false⟩) := by decide
theorem test_addMMI_overlap :
    after (fun t => ([t.cell 0x11, t.cell 0x12, t.cell 0x13, t.cell 0x14],
        [t.val .sar, t.val .dar, t.val .mar, t.val .lop]))
      (at0 [0x00, 0x05, 0x58, 0x11, 0x10, 0x00] (cells [(0x10, 0x01), (0x11, 0x02), (0x12, 0x03), (0x13, 0x04)])) =
    some ([0x01, 0x01, 0x01, 0x01], [0x14, 0x15, 0x14, 0x01]) := by decide
theorem test_addMIM :
    after (fun t => ([t.cell 0x30, t.cell 0x31, t.cell 0x32, t.cell 0x33], [t.val .sar, t.val .tar]))
      (at0 [0x00, 0x05, 0x64, 0x30, 0xC8, 0x14] (cells [(0x14, 0x64), (0x15, 0x01)] ∘ regs [(.sar, 0x55)])) =
    some ([0x2C, 0x02, 0x00, 0x00], [0x55, 0x18]) := by decide
theorem test_addMII_address_flags :
    after (fun t => ([t.cell 0x7C], [t.val .dar, t.val .res, t.val .mar, t.val .rop], t.flags))
      (at0 [0x00, 0x05, 0x68, 0x7C, 0x01, 0x01] id) =
    some ([0x02], [0x80, 0x80, 0x7F, 0x7F], ⟨true, false, true, false⟩) := by decide
theorem test_subMIM_in_place :
    after (fun t => ([t.cell 0x30, t.cell 0x31], [t.val .dar, t.val .mar, t.val .tar, t.val .lop, t.val .rop]))
      (at0 [0x00, 0x06, 0x64, 0x30, 0x0A, 0x30] (cells [(0x30, 0x03), (0x31, 0xEE)])) =
    some ([0x07, 0xEE], [0x30, 0x30, 0x30, 0x0A, 0x03]) := by decide
theorem test_subMIM_zero :
    after (fun t => ([t.cell 0x31], t.flags))
      (at0 [0x00, 0x06, 0x64, 0x31, 0x05, 0x30] (cells [(0x30, 0x05)])) =
    some ([0x00], ⟨false, true, false, true⟩) := by decide
theorem test_cmpMM_limb3 :
    after (fun t => ([t.val .res, t.val .sar, t.val .tar, t.val .mar, t.val .lop, t.val .rop, t.val .mdr], t.flags))
      (at0 [0x00, 0x07, 0x50, 0x40, 0x44] (cells [(0x40, 0xFF), (0x43, 0x01), (0x47, 0x02)])) =
    some ([0xFF, 0x43, 0x47, 0x47, 0x01, 0x02, 0x02], ⟨true, false, false, false⟩) := by decide
theorem test_cmpMM_wrap :
    after (fun t => ([t.val .res, t.val .sar, t.val .tar, t.val .lop], t.flags))
      (at0 [0x00, 0x07, 0x50, 0xFE, 0x10] (cells [(0xFE, 0x01), (0x01, 0x02), (0x10, 0x01), (0x13, 0x02)])) =
    some ([0x00, 0xFE, 0x10, 0x01], ⟨false, true, false, true⟩) := by decide
theorem test_cmpRI :
    after (fun t => ([t.val .cr, t.val .res], t.flags))
      (at0 [0x00, 0x07, 0xE0, 0x02, 0x01] (regs [(.cr, 0xC8)])) =
    some ([0xC8, 0xC7], ⟨true, false, false, true⟩) := by decide
theorem test_shlRI :
    after (fun t => ([t.val .cr, t.val .lop, t.val .rop, t.val .res], t.flags))
      (at0 [0x00, 0x08, 0xE0, 0x02, 0x01] (regs [(.cr, 0xC1)] ∘ flagged true true false false)) =
    some ([0x82, 0xC1, 0x01, 0x82], ⟨true, true, false, true⟩) := by decide
theorem test_shlRI_by_eight :
    after (fun t => ([t.val .cr], t.flags))
      (at0 [0x00, 0x08, 0xE0, 0x02, 0x08] (regs [(.cr, 0x01)])) =
    some ([0x00], ⟨false, false, false, true⟩) := by decide
theorem test_shrRI :
    after (fun t => ([t.val .cr], t.flags))
      (at0 [0x00, 0x09, 0xE0, 0x02, 0x04] (regs [(.cr, 0xC1)] ∘ flagged false false false true)) =
    some ([0x0C], ⟨false, false, false, false⟩) := by decide
theorem test_incR :
    after (fun t => ([t.val .cr, t.val .lop, t.val .res], t.flags))
      (at0 [0x00, 0x0A, 0xC0, 0x02] (regs [(.cr, 0x7F)])) =
    some ([0x80, 0x7F, 0x80], ⟨true, false, true, false⟩) := by decide
theorem test_incR_wrap :
    after (fun t => ([t.val .cr, t.val .lop], t.flags))
      (at0 [0x00, 0x0A, 0xC0, 0x02] (regs [(.cr, 0xFF)] ∘ flagged false false false true)) =
    some ([0x00, 0xFF], ⟨false, true, false, true⟩) := by decide
theorem test_decR :
    after (fun t => ([t.val .cr], t.flags))
      (at0 [0x00, 0x0B, 0xC0, 0x02] (regs [(.cr, 0x80)])) =
    some ([0x7F], ⟨false, false, true, false⟩) := by decide
theorem test_decR_wrap :
    after (fun t => ([t.val .cr], t.flags))
      (at0 [0x00, 0x0B, 0xC0, 0x02] (regs [(.cr, 0x00)] ∘ flagged false false false true)) =
    some ([0xFF], ⟨true, false, false, true⟩) := by decide
theorem test_ldRR_same_register :
    after (fun t => [t.val .cr, t.val .mar, t.val .mdr])
      (at0 [0x00, 0x0C, 0xF0, 0x02, 0x02] (regs [(.cr, 0x10)] ∘ cells [(0x10, 0x48)])) =
    some [0x48, 0x10, 0x48] := by decide
theorem test_ldRR :
    after (fun t => [t.val .cr, t.val .ior])
      (at0 [0x00, 0x0C, 0xF0, 0x02, 0x03] (regs [(.cr, 0x10)] ∘ cells [(0x10, 0x48)])) =
    some [0x10, 0x48] := by decide
theorem test_stRR :
    after (fun t => ([t.val .mar, t.val .mdr], [t.cell 0x11]))
      (at0 [0x00, 0x0D, 0xF0, 0x02, 0x03] (regs [(.cr, 0x11), (.ior, 0x69)])) =
    some ([0x11, 0x69], [0x69]) := by decide
theorem test_inI_sink :
    after (fun t => ([t.val .ior], t.outlog))
      (at0 [0x00, 0x0E, 0x80, 0x01] (regs [(.pr1, 0x41), (.ior, 0x55)])) =
    some ([0x41], [0x41]) := by decide
/-- Section 1.2, S9, its first step. -/
theorem test_outI_sink :
    after (fun t => ([t.val .pr1], t.outlog))
      (at0 [0x00, 0x0F, 0x80, 0x01] (regs [(.ior, 0x41)])) =
    some ([0x41], [0x41]) := by decide
theorem test_inI_source : after (fun t => (t.val .ior, t.val .pr0, t.cur))
    (construct [0x00, 0x0E, 0x80, 0x00, 0xF0, 0x01] [] [0x48, 0x69]) = some (0x48, 0x69, 2) := by decide
theorem test_outI_source : after (fun t => (t.val .pr0, t.cur, t.outlog))
    (setReg .ior 0x41 (construct [0x00, 0x0F, 0x80, 0x00, 0xF0, 0x01] [] [0x48, 0x69])) = some (0x69, 2, []) :=
    by decide

/-- The jump programs of section 2.6: `pc` after one step for (Z, N) = 00, 10, 01, 11. -/
def jumpPcs (opcode : Byte) : List (Option Byte) :=
  [(false, false), (true, false), (false, true), (true, true)].map fun (z, n) =>
    after (·.pc) (setFlags ⟨n, z, true, true⟩ (construct [0x00, opcode, 0x80, 0xF0, 0x04, 0x00, 0xF0, 0x01] [] []))

theorem test_jeI : jumpPcs 0x10 = [some 0x04, some 0xF0, some 0x04, some 0xF0] := by decide
theorem test_jneI : jumpPcs 0x11 = [some 0xF0, some 0x04, some 0xF0, some 0x04] := by decide
theorem test_jaeI : jumpPcs 0x12 = [some 0xF0, some 0xF0, some 0x04, some 0x04] := by decide
theorem test_jmpI : jumpPcs 0x13 = [some 0xF0, some 0xF0, some 0xF0, some 0xF0] := by decide
theorem test_nop_alone : after (fun t => (t.run, t.pc, t.icnt)) (construct [0x00, 0x00] [] []) =
    some (.faulted (.malformedProgram (.noNextInstruction 0)), 0, 1) := by decide
theorem test_hlt : after (fun t => (t.run, t.pc, t.icnt)) (construct [0x00, 0x01] [] []) =
    some (.halted, 0, 1) := by decide

/-! ## Faults, sections 2.3 to 2.6 -/

/-- How a step of a record faults, and how many instructions were counted. -/
def faultOf (record : List Byte) : Option (RunState × Nat) := after (fun t => (t.run, t.icnt)) (at0 record id)

theorem test_fault_unknown_opcode :
    faultOf [0x00, 0x2A, 0x80, 0x00] = some (.faulted (.unknownOpcode 0 0x2A), 0) := by decide
theorem test_fault_missing : after (fun t => (t.run, t.pc)) (setPc 0x55 (construct [0x00, 0x01] [] [])) =
    some (.faulted (.malformedProgram (.missingInstruction 0x55)), 0x55) := by decide
theorem test_fault_mov_register_source :
    faultOf [0x00, 0x02, 0xF0, 0x02, 0x02] = some (.faulted (.unsupportedOperand 0 2), 0) := by decide
theorem test_fault_mov_register_four :
    faultOf [0x00, 0x02, 0xE0, 0x04, 0x01] = some (.faulted (.unsupportedOperand 0 2), 0) := by decide
theorem test_fault_add_register_destination :
    faultOf [0x00, 0x05, 0xE8, 0x02, 0x01, 0x01] = some (.faulted (.unsupportedOperand 0 5), 0) := by decide
theorem test_fault_sub_memory_left :
    faultOf [0x00, 0x06, 0x54, 0x31, 0x32, 0x30] = some (.faulted (.unsupportedOperand 0 6), 0) := by decide
theorem test_fault_cmp_reversed :
    faultOf [0x00, 0x07, 0xB0, 0x05, 0x02] = some (.faulted (.unsupportedOperand 0 7), 0) := by decide
theorem test_fault_inc_register_seven :
    faultOf [0x00, 0x0A, 0xC0, 0x07] = some (.faulted (.unsupportedOperand 0 0x0A), 0) := by decide
theorem test_fault_inc_two_operands :
    faultOf [0x00, 0x0A, 0xF0, 0x02, 0x02] = some (.faulted (.unsupportedOperand 0 0x0A), 0) := by decide
theorem test_fault_ld_immediate :
    faultOf [0x00, 0x0C, 0xE0, 0x02, 0x01] = some (.faulted (.unsupportedOperand 0 0x0C), 0) := by decide
theorem test_fault_in_port_two :
    faultOf [0x00, 0x0E, 0x80, 0x02] = some (.faulted (.unsupportedOperand 0 0x0E), 0) := by decide
theorem test_fault_out_register :
    faultOf [0x00, 0x0F, 0xC0, 0x02] = some (.faulted (.unsupportedOperand 0 0x0F), 0) := by decide
theorem test_fault_je_register :
    faultOf [0x00, 0x10, 0xC0, 0x02] = some (.faulted (.unsupportedOperand 0 0x10), 0) := by decide

/-! ## ALU, section 2.1 -/

/-- RES and the flags after an operation. -/
def aluOf (op : AluOp) (l r : Byte) (f : Flags) : Byte × Flags :=
  let t := alu op (setFlags f (setReg .rop r (setReg .lop l State.reset)))
  (t.val .res, t.flags)

theorem test_alu_add : aluOf .add 0x80 0x80 ⟨false, false, false, false⟩ = (0x00, ⟨false, true, true, true⟩) ∧
    aluOf .add 0x7F 0x00 ⟨false, false, false, true⟩ = (0x80, ⟨true, false, true, false⟩) := by decide
theorem test_alu_sub : aluOf .sub 0x80 0x80 ⟨false, false, false, true⟩ = (0x00, ⟨false, true, true, true⟩) ∧
    aluOf .sub 0x00 0x00 ⟨false, false, false, true⟩ = (0x00, ⟨false, true, false, false⟩) := by decide
theorem test_alu_and : aluOf .and 0xF0 0x3C ⟨true, true, true, true⟩ = (0x30, ⟨false, false, false, false⟩) := by decide
theorem test_alu_or : aluOf .or 0xF0 0x0F ⟨true, true, true, true⟩ = (0xFF, ⟨true, false, false, false⟩) := by decide
theorem test_alu_decr : aluOf .decr 0x55 0x80 ⟨false, false, false, true⟩ = (0x7F, ⟨false, false, true, true⟩) := by
  decide
theorem test_alu_shl : aluOf .shl 0x80 255 ⟨true, true, true, true⟩ = (0x00, ⟨true, true, true, true⟩) ∧
    aluOf .shl 0xFF 0 ⟨true, true, true, true⟩ = (0xFF, ⟨true, true, true, false⟩) := by decide

/-- 40_datapath_alu.md R90: a caller's mask is ignored where the operation forces its own. -/
theorem test_alu_mask_forced :
    (aluWith .incl ⟨false, false, false, true⟩ (setReg .lop 0x7F State.reset)).flags = ⟨true, false, true, false⟩ ∧
    (aluWith .shl ⟨true, true, true, false⟩ (setReg .rop 1 (setReg .lop 0x80 State.reset))).flags =
      ⟨false, false, false, true⟩ := by decide

/-- Section 1.1, S5: a transfer with no driver changes nothing. -/
theorem test_transfer_without_driver : transfer (openIn .cr (setReg .cr 0x33 State.reset)) =
    openIn .cr (setReg .cr 0x33 State.reset) := by decide

/-! ## Reset -/

/-- 70_reset_and_hazards.md R200, R204. -/
theorem test_reset : State.reset = construct [] [] [] ∧ State.reset.wf = true := by decide

/-! ## Witnesses: concrete states and operands that meet the hypotheses of each statement, clause by clause -/

/-- NOP at 0 and HLT at 0xF0, running, with nothing else. -/
def plain : State := construct [0x00, 0x00, 0xF0, 0x01] [] []

/-- The same with cells, two characters of input, the first of them loaded, and a register. -/
def busy : State := setReg .cr 0x10 (construct [0x00, 0x00, 0xF0, 0x01] [0x11, 0x22] [0x48, 0x69])

/-- The same with the input used up. -/
def spent : State := setCur 2 busy

/-- A one-character input, its only character loaded. -/
def lastChar : State := construct [0x00, 0x0E, 0x80, 0x00, 0xF0, 0x01] [] [0x148]

theorem plain_meets : plain.wf = true ∧ plain.busIdle = true ∧ plain.run = .running := by decide
theorem busy_meets : busy.wf = true ∧ busy.busIdle = true ∧ busy.run = .running := by decide
theorem spent_meets : spent.wf = true ∧ spent.inbuf[spent.cur]? = none := by decide

/-- Register indices at both ends of their range. -/
theorem named_meets : xreg? 0 = some .ac ∧ xreg? 1 = some .br ∧ xreg? 2 = some .cr ∧ xreg? 3 = some .ior := by decide

theorem witness_CodecRoundTrip :
    (Command.mk 0x00 [] 0).encodable = true ∧ (Command.mk 0x01 [] 0xFF).encodable = true ∧
    (Command.mk 0x02 [] 7).encodable = true ∧
    (Command.mk 0x02 [⟨.reg, 1⟩, ⟨.imm, 2⟩, ⟨.mem, 3⟩, ⟨.reg, 4⟩] 7).encodable = true ∧
    readRecord 0 [0x00, 0x0A, 0xC0, 0x02] = .ok (⟨0x0A, [⟨.reg, 2⟩], 0⟩, []) ∧
    readRecord 0 [0x00, 0x0A, 0xC7, 0x02, 0x09] = .ok (⟨0x0A, [⟨.reg, 2⟩], 0⟩, [0x09]) ∧
    readRecord 0 [0x00, 0x01] = .ok (⟨0x01, [], 0⟩, []) :=
  ⟨by decide, by decide, by decide, by decide, rfl, rfl, rfl⟩
theorem witness_SupportedFormsAreExactlyTheTable :
    ((Instr.incR 3).wf = true ∧ Command.mk 0x0A [⟨.reg, 3⟩] 0 = (Instr.incR 3).toCommand 0) ∧
    0x14 ≤ (Command.mk 0x14 [⟨.imm, 5⟩] 0).opcode.toNat ∧
    ((Command.mk 0x0A [⟨.reg, 7⟩] 0).opcode.toNat < 0x14 ∧
      ∀ i : Instr, i.wf = true → Command.mk 0x0A [⟨.reg, 7⟩] 0 ≠ i.toCommand 0) ∧
    ∀ i : Instr, Command.mk 0x0A [⟨.imm, 2⟩] 0 ≠ i.toCommand 0 := by
  refine ⟨by decide, by decide, ⟨by decide, fun i h e => ?_⟩, fun i => ?_⟩
  · cases i <;> simp [Instr.toCommand, Instr.mnemonic, Instr.operands, opcodeOf] at e
    subst e
    exact absurd h (by decide)
  · cases i <;> simp [Instr.toCommand, Instr.mnemonic, Instr.operands, opcodeOf]
theorem witness_TruncatedStreamIsRejected :
    (∀ d ∈ [Command.mk 0x01 [] 0], d.encodable = true) ∧ (Command.mk 0x0A [⟨.reg, 2⟩] 4).encodable = true ∧
    (encodeCommand (Command.mk 0x0A [⟨.reg, 2⟩] 4)).length = 4 ∧ 0 < 1 ∧ 1 < 4 ∧ 0 < 2 ∧ 2 < 4 ∧ 0 < 3 ∧ 3 < 4 :=
    by decide
theorem witness_FieldsAfterNoneAreIgnored : sameModes 0xC7 0xC0 ∧ sameModes 0x3F 0x00 ∧ sameModes 0xE4 0xE4 := by
  unfold sameModes; decide
theorem witness_ProgramIsLoadedUnderItsAddresses :
    decodeProgram [0x05, 0x00, 0x09, 0x01] = .ok [⟨0x00, [], 5⟩, ⟨0x01, [], 9⟩] ∧
    [Command.mk 0x00 [] 5, ⟨0x01, [], 9⟩].Pairwise (fun x y => x.address < y.address) ∧
    (List.replicate 256 (1 : Byte)).length ≤ 256 := ⟨rfl, by decide, by decide⟩
theorem witness_ResetValues :
    decodeProgram [0xFF, 0x01] = .ok [⟨0x01, [], 0xFF⟩] ∧
    [Command.mk 0x01 [] 0xFF].Pairwise (fun x y => x.address < y.address) ∧
    (List.replicate 256 (1 : Byte)).length ≤ 256 ∧ ([] : List Nat) = [] ∧ [0x148, 0x69] = 0x148 :: [0x69] :=
  ⟨rfl, by decide, by decide, rfl, rfl⟩
theorem witness_BadLoadsNeverRun :
    decodeProgram [0x00] = .error (.truncatedRecord 0) ∧ decodeProgram [] = .ok [] ∧
    (decodeProgram [0x02, 0x00, 0x04, 0x00, 0x04, 0x01] = .ok ([⟨0x00, [], 2⟩] ++ ⟨0x00, [], 4⟩ :: ⟨0x01, [],
    4⟩ :: []) ∧
      ([Command.mk 0x00 [] 2] ++ [Command.mk 0x00 [] 4]).Pairwise (fun x y => x.address < y.address) ∧ (4 : Byte) ≤ 4) ∧
    (decodeProgram [0x00, 0x01] = .ok [⟨0x01, [], 0⟩] ∧
      [Command.mk 0x01 [] 0].Pairwise (fun x y => x.address < y.address) ∧
      256 < (List.replicate 257 (0 : Byte)).length) ∧
    (construct [] [] []).run = .faulted (.malformedProgram .emptyProgram) :=
  ⟨rfl, rfl, ⟨rfl, by decide, by decide⟩, ⟨rfl, by decide, by decide⟩, by decide⟩

theorem witness_StepRunsTheDecodedInstruction :
    plain.run = .running ∧ fetch plain = some ⟨0x00, [], 0⟩ ∧ classify ⟨0x00, [], 0⟩ = .ok .nop :=
  ⟨by decide, by decide, rfl⟩
theorem witness_StepRaisesTheFirstFault_fetch :
    (setPc 0x55 plain).run = .running ∧ ∀ c ∈ (setPc 0x55 plain).prog, c.address ≠ (setPc 0x55 plain).pc := by decide
theorem witness_StepRaisesTheFirstFault_opcode :
    (construct [0x00, 0x14, 0x80, 0x05] [] []).run = .running ∧
    fetch (construct [0x00, 0x14, 0x80, 0x05] [] []) = some ⟨0x14, [⟨.imm, 5⟩], 0⟩ ∧ 0x14 ≤ (0x14 : Byte).toNat := by
  decide
theorem witness_StepRaisesTheFirstFault_operands :
    (construct [0x00, 0x13, 0xC0, 0x05] [] []).run = .running ∧
    fetch (construct [0x00, 0x13, 0xC0, 0x05] [] []) = some ⟨0x13, [⟨.reg, 5⟩], 0⟩ ∧ (0x13 : Byte).toNat < 0x14 ∧
    ∀ i : Instr, Command.mk 0x13 [⟨.reg, 5⟩] 0 ≠ i.toCommand 0 := by
  refine ⟨by decide, by decide, by decide, fun i => ?_⟩
  cases i <;> simp [Instr.toCommand, Instr.mnemonic, Instr.operands, opcodeOf]
theorem witness_OperandCheckComesBeforeAnyEffect :
    (Instr.incR 4).wf = false ∧ (Instr.stRR 3 0xFF).wf = false ∧ (Instr.inI 2).wf = false ∧
    (Instr.outI 0xFF).wf = false := by
  decide
theorem witness_NoStepAfterTheEnd :
    (setRun .halted plain).run = .halted ∧ State.reset.run = .faulted (.malformedProgram .emptyProgram) ∧
    plain.run = .running := by decide
theorem witness_StepKeepsWellFormed : busy.wf = true ∧ ∃ t, step busy = .next t := ⟨by decide, _, rfl⟩
theorem witness_StepKeepsProgramAndInput : ∃ t, step busy = .next t := ⟨_, rfl⟩
theorem witness_SourceHoldsTheNextCharacter :
    (construct [0x00, 0x01] [] []).run = .running ∧
    (busy.wf = true ∧ busy.sourceLoaded ∧ ∃ t, step busy = .next t) ∧
    (busy.delivered 0 ∧ busy.inbuf[0]? = some 0x48 ∧ 0 + 1 < busy.inbuf.length) ∧
    ((lastChar.wf = true ∧ lastChar.delivered 0) ∧ lastChar.inbuf[0]? = some 0x148 ∧ 0 + 1 = lastChar.inbuf.length) ∧
    (plain.wf = true ∧ plain.delivered 0 ∧ plain.inbuf.length ≤ 0) :=
  ⟨by decide, ⟨by decide, .inr ⟨0, 0x48, by decide, by decide, by decide⟩, _, rfl⟩,
    ⟨.inr ⟨0x48, by decide, by decide, by decide⟩, by decide, by decide⟩,
    ⟨⟨by decide, .inr ⟨0x148, by decide, by decide, by decide⟩⟩, by decide, by decide⟩,
    by decide, .inl ⟨by decide, by decide, by decide⟩, by decide⟩
theorem witness_EveryInstructionCompletes : (Instr.ldRR 0 3).wf = true ∧ (Instr.inI 0).wf = true ∧
    (Instr.outI 1).wf = true := by
  decide
theorem witness_FileOrderIsAddressOrder :
    (programOrdered plain.prog = true ∧ plain.pc ∈ plain.order) ∧
    (programOrdered (setPc 0xF0 plain).prog = true ∧ (setPc 0xF0 plain).pc ∈ (setPc 0xF0 plain).order) := by decide

theorem witness_OnlyListedRegistersChange : busy.busIdle = true ∧ ∃ t, exec (.incR 3) busy = .next t := ⟨by decide,
    _, rfl⟩
theorem witness_OnlyStoredCellsChange :
    busy.wf = true ∧ (∃ t, exec (.mov4MM 0xFE 0) busy = .next t) ∧ (∃ t, exec (.stRR 2 0) busy = .next t) ∧
    (0x02 : Byte) ∉ storedCells busy (.mov4MM 0xFE 0) ∧ (0x01 : Byte) ∈ storedCells busy (.mov4MM 0xFE 0) ∧
    storedCells busy (.stRR 2 0) = [0x10] := ⟨by decide, ⟨_, rfl⟩, ⟨_, rfl⟩, by decide, by decide, by decide⟩
theorem witness_OnlyListedFlagsChange :
    (∃ t, exec (.shlRI 2 1) busy = .next t) ∧ (writtenFlags (Instr.shlRI 2 1).mnemonic).n = false ∧
    (writtenFlags (Instr.shlRI 2 1).mnemonic).z = false ∧ (writtenFlags (Instr.shlRI 2 1).mnemonic).v = false ∧
    (writtenFlags (Instr.incR 2).mnemonic).c = false := ⟨⟨_, rfl⟩, by decide, by decide, by decide, by decide⟩
theorem witness_DevicesActOnlyInInAndOut :
    busy.busIdle = true ∧ (∃ t, exec (.incR 3) busy = .next t) ∧ (Instr.incR 3).mnemonic ≠ .IN ∧
    (Instr.incR 3).mnemonic ≠ .OUT ∧ Instr.inI 0 ≠ .inI 1 ∧ Instr.inI 0 ≠ .outI 1 ∧ Instr.outI 1 ≠ .inI 0 ∧
    Instr.outI 1 ≠ .outI 0 := ⟨by decide, ⟨_, rfl⟩, by decide, by decide, by decide, by decide, by decide, by decide⟩
theorem witness_HiddenRegistersCarryNothing :
    SameButHidden busy (setBus 7 (setReg .mar 1 (setReg .res 2 busy))) ∧
    busy ≠ setBus 7 (setReg .mar 1 (setReg .res 2 busy)) ∧ busy.run = .running :=
  ⟨{ registers := by intro r; cases r <;> decide, signals := by decide, flags := rfl, memory := rfl, program := rfl,
     control := ⟨rfl, rfl, rfl⟩, devices := ⟨rfl, rfl, rfl⟩ }, by decide, by decide⟩
theorem witness_OverflowAndCarrySteerNothing :
    SameButVC busy (setFlags ⟨false, false, true, true⟩ busy) ∧ busy ≠ setFlags ⟨false, false, true, true⟩ busy ∧
    busy.run = .running :=
  ⟨{ registers := rfl, bus := rfl, flags := ⟨rfl, rfl⟩, memory := rfl, program := rfl,
     control := ⟨rfl, rfl, rfl⟩, devices := ⟨rfl, rfl, rfl⟩ }, by decide, by decide⟩

/-- CR drives, AC and IOR listen, and so does CR itself. -/
def open3 : State := openIn .cr (openIn .ior (openIn .ac (openOut .res (openOut .cr busy))))

theorem witness_ClosedRegisterIgnoresTransfers :
    (open3.reg .mar).outputEnable = false ∧ (open3.reg .mar).inputEnable = false := by decide
theorem witness_TransferBroadcastsTheFirstDriver :
    (∀ r, ((openIn .ac busy).reg r).outputEnable = false) ∧
    ([RegName.ac, .br, .cr, .ior, .sar, .tar, .dar, .mar, .mdr, .lop, .rop, .res, .pr0, .pr1] =
        [.ac, .br] ++ .cr :: [.ior, .sar, .tar, .dar, .mar, .mdr, .lop, .rop, .res, .pr0, .pr1] ∧
      (∀ r ∈ [RegName.ac, .br], (open3.reg r).outputEnable = false) ∧ (open3.reg .cr).outputEnable = true) :=
  ⟨by intro r; cases r <;> decide, rfl, by decide, by decide⟩
theorem witness_MoveCopiesTheSource : busy.busIdle = true ∧ RegName.ac ∈ [RegName.ac] ∧ RegName.br ∉ [RegName.ac] :=
    by decide
theorem witness_SetTruncatesAndFailsOnlyOnNegatives :
    (0 : Int) ≤ 0 ∧ (0 : Int) ≤ 256 ∧ (-1 : Int) < 0 ∧ RegName.br ≠ .ac := by decide
theorem witness_MemoryReadsAndWrites :
    Memory.wf busy.mem = true ∧ (∀ v, ((2 : Byte).toNat, v) ∉ busy.mem) ∧ (3 : Byte) ≠ busy.val .mar ∧
    RegName.mar ≠ .mdr := by
  refine ⟨by decide, fun v => ?_, by decide, by decide⟩
  have : busy.mem = [(0, 0x11), (1, 0x22)] := by decide
  simp [this]
theorem witness_DataMemoryIsCanonical :
    Memory.wf busy.mem = true ∧ Memory.wf (putCell 5 0 busy).mem = true ∧ ∀ a : Byte, busy.cell a = (putCell 5 0 busy).cell a :=
  ⟨by decide, by decide, fun _ => rfl⟩
theorem witness_AluAddsAndSubtracts : RegName.lop ≠ .res := by decide
theorem witness_AluStepsByOne :
    AluOp.incl ∈ [AluOp.incl, .incr, .decl, .decr] ∧ AluOp.decr ∈ [AluOp.incl, .incr, .decl, .decr] ∧ RegName.lop ≠ .res := by
  decide
theorem witness_AluShiftsAndLogic :
    (AluOp.and = .and ∧ busy.val .lop &&& busy.val .rop = busy.val .lop &&& busy.val .rop) ∧
    (AluOp.or = .or ∧ busy.val .lop ||| busy.val .rop = busy.val .lop ||| busy.val .rop) := by decide
theorem witness_HooksAdvanceAndLog :
    spent.inbuf.length ≤ spent.cur ∧ busy.cur < busy.inbuf.length ∧ RegName.pr1 ≠ .pr0 := by decide

theorem witness_ConditionalJumps :
    (setFlags ⟨true, true, false, false⟩ busy).flags.z = true ∧ busy.flags.z = false ∧ busy.flags.n = false ∧
    (setFlags ⟨true, true, false, false⟩ busy).flags.n = true := by decide
theorem witness_UnconditionalJump : busy.run = .running ∧ ∀ c ∈ busy.prog, c.address ≠ 0x33 := by decide

theorem witness_MovToRegister :
    busy.wf = true ∧ xreg? 0 = some .ac ∧ xreg? 1 = some .br ∧ xreg? 2 = some .cr ∧ xreg? 3 = some .ior := by decide
theorem witness_MovToMemory :
    busy.wf = true ∧ (Instr.movMI 5 7 = .movMI 5 7 ∧ (7 : Byte) = 7) ∧ (Instr.movII 5 7 = .movII 5 7 ∧ (7 : Byte) = 7) ∧
    (Instr.movMM 5 1 = .movMM 5 1 ∧ 0x22 = busy.cell 1) ∧ (Instr.movIM 1 1 = .movIM 1 1 ∧ 0x22 = busy.cell 1) :=
    by decide
theorem witness_Mov4Immediate : busy.wf = true := by decide
theorem witness_Mov4MemoryLimbByLimb : busy.wf = true ∧ 0 < 4 ∧ 3 < 4 := by decide
theorem witness_Mov4MovesThe32BitValue :
    busy.wf = true ∧ (∃ t, exec (.mov4MM 0 0) busy = .next t) ∧ (∃ t, exec (.mov4MM 4 0) busy = .next t) ∧
    ((0 : Byte) ≠ 0 + 1 ∧ (0 : Byte) ≠ 0 + 2 ∧ (0 : Byte) ≠ 0 + 3) ∧
    ((4 : Byte) ≠ 0 + 1 ∧ (4 : Byte) ≠ 0 + 2 ∧ (4 : Byte) ≠ 0 + 3) ∧
    (∃ t, exec (.mov4MM 1 0) busy = .next t) ∧ (1 : Byte) = 0 + 1 ∧ (4 : Byte) ∈ fourCells 1 :=
  ⟨by decide, ⟨_, rfl⟩, ⟨_, rfl⟩, by decide, by decide, ⟨_, rfl⟩, by decide, by decide⟩

/-- A register operand outside the range, and a missing operand, are other operand lists for the two-operand forms. -/
theorem other_lists_register_immediate :
    (¬ ∃ k v : Byte, k.toNat < 4 ∧ [Operand.mk .reg 4, ⟨.imm, 1⟩] = [⟨.reg, k⟩, ⟨.imm, v⟩]) ∧
    (¬ ∃ k v : Byte, k.toNat < 4 ∧ ([] : List Operand) = [⟨.reg, k⟩, ⟨.imm, v⟩]) := by
  constructor
  · rintro ⟨k, v, h, e⟩
    cases e
    exact absurd h (by decide)
  · rintro ⟨k, v, -, e⟩
    cases e

theorem witness_Add1AddsAnImmediate :
    busy.wf = true ∧ xreg? 0 = some .ac ∧ xreg? 3 = some .ior ∧
    ¬ ∃ k v : Byte, k.toNat < 4 ∧ [Operand.mk .reg 4, ⟨.imm, 1⟩] = [⟨.reg, k⟩, ⟨.imm, v⟩] :=
  ⟨by decide, by decide, by decide, other_lists_register_immediate.1⟩
theorem witness_AddLimbByLimb : busy.wf = true ∧ 0 < 4 ∧ 3 < 4 := by decide
theorem witness_AddIs32BitAddition :
    busy.wf = true ∧ noFeedback 0 (.mem 0) ∧ noFeedback 4 (.mem 0) ∧ noFeedback 0xFF (.mem 0) ∧
    noFeedback 1 (.imm 0) := by
  unfold noFeedback; decide
theorem witness_SubOneLimb :
    busy.wf = true ∧
    ¬ ∃ d v r : Byte, [Operand.mk .mem 1, ⟨.mem, 2⟩, ⟨.mem, 3⟩] = [⟨.mem, d⟩, ⟨.imm, v⟩, ⟨.mem, r⟩] := by
  refine ⟨by decide, ?_⟩
  rintro ⟨d, v, r, e⟩
  cases e
theorem witness_CmpMemory : busy.wf = true ∧ busy.cell4 0 = busy.cell4 0 ∧ busy.cell4 0 ≠ busy.cell4 1 := by decide
theorem witness_CmpRegister :
    busy.wf = true ∧ xreg? 0 = some .ac ∧ xreg? 3 = some .ior ∧
    ¬ ((∃ l r : Byte, [Operand.mk .imm 5, ⟨.reg, 2⟩] = [⟨.mem, l⟩, ⟨.mem, r⟩]) ∨
      ∃ k v : Byte, k.toNat < 4 ∧ [Operand.mk .imm 5, ⟨.reg, 2⟩] = [⟨.reg, k⟩, ⟨.imm, v⟩]) := by
  refine ⟨by decide, by decide, by decide, ?_⟩
  rintro (⟨l, r, e⟩ | ⟨k, v, -, e⟩) <;> cases e

/-- CR with a value. -/
def withCr (v : Byte) : State := setReg .cr v plain

theorem witness_JaeAfterCmp :
    (∀ v ∈ [(0 : Byte), 0x7F, 0x80], (withCr v).wf = true) ∧ xreg? 2 = some .cr ∧
    ((withCr 0x7F).val .cr - 0 < 128 ∧
    (((withCr 0x7F).val .cr).toNat - (0 : Byte).toNat : Int) ∈ Set.Icc (-128 : Int) 127) ∧
    (128 ≤ (withCr 0).val .cr - 0x80 ∧
    (((withCr 0).val .cr).toNat - (0x80 : Byte).toNat : Int) ∈ Set.Icc (-128 : Int) 127) ∧
    (128 ≤ (withCr 0x80).val .cr - 0 ∧
    (((withCr 0x80).val .cr).toNat - (0 : Byte).toNat : Int) ∉ Set.Icc (-128 : Int) 127) ∧
    ((withCr 0).val .cr - 0x81 < 128 ∧
    (((withCr 0).val .cr).toNat - (0x81 : Byte).toNat : Int) ∉ Set.Icc (-128 : Int) 127) := by
  simp only [Set.mem_Icc]; decide
theorem witness_ShlShiftsLeft :
    busy.wf = true ∧ xreg? 0 = some .ac ∧ xreg? 3 = some .ior ∧ (0 : Byte) = 0 ∧ 8 ≤ (8 : Byte).toNat ∧
    ¬ ∃ k n : Byte, k.toNat < 4 ∧ ([] : List Operand) = [⟨.reg, k⟩, ⟨.imm, n⟩] :=
  ⟨by decide, by decide, by decide, rfl, by decide, other_lists_register_immediate.2⟩
theorem witness_ShrShiftsRight :
    busy.wf = true ∧ xreg? 0 = some .ac ∧ xreg? 3 = some .ior ∧ (0 : Byte) = 0 ∧ 8 ≤ (8 : Byte).toNat ∧
    ¬ ∃ k n : Byte, k.toNat < 4 ∧ [Operand.mk .reg 4, ⟨.imm, 1⟩] = [⟨.reg, k⟩, ⟨.imm, n⟩] :=
  ⟨by decide, by decide, by decide, rfl, by decide, other_lists_register_immediate.1⟩
theorem witness_IncAddsOne :
    busy.wf = true ∧ xreg? 0 = some .ac ∧ xreg? 3 = some .ior ∧
    ¬ ∃ k : Byte, k.toNat < 4 ∧ [Operand.mk .reg 4] = [⟨.reg, k⟩] := by
  refine ⟨by decide, by decide, by decide, ?_⟩
  rintro ⟨k, h, e⟩
  cases e
  exact absurd h (by decide)
theorem witness_DecSubtractsOne :
    busy.wf = true ∧ xreg? 0 = some .ac ∧ xreg? 3 = some .ior ∧
    ¬ ∃ k : Byte, k.toNat < 4 ∧ [Operand.mk .imm 0] = [⟨.reg, k⟩] := by
  refine ⟨by decide, by decide, by decide, ?_⟩
  rintro ⟨k, -, e⟩
  cases e

/-- A register operand outside the range, in either place, for the forms of two registers. -/
theorem other_lists_two_registers :
    (¬ ∃ a k : Byte, a.toNat < 4 ∧ k.toNat < 4 ∧ [Operand.mk .reg 4, ⟨.reg, 0⟩] = [⟨.reg, a⟩, ⟨.reg, k⟩]) ∧
    (¬ ∃ a k : Byte, a.toNat < 4 ∧ k.toNat < 4 ∧ [Operand.mk .reg 3, ⟨.reg, 4⟩] = [⟨.reg, a⟩, ⟨.reg, k⟩]) := by
  constructor
  · rintro ⟨a, k, h, -, e⟩
    cases e
    exact absurd h (by decide)
  · rintro ⟨a, k, -, h, e⟩
    cases e
    exact absurd h (by decide)

theorem witness_LdLoadsFromTheNamedCell :
    busy.wf = true ∧ xreg? 0 = some .ac ∧ xreg? 3 = some .ior ∧
    ¬ ∃ a k : Byte, a.toNat < 4 ∧ k.toNat < 4 ∧ [Operand.mk .reg 4, ⟨.reg, 0⟩] = [⟨.reg, a⟩, ⟨.reg, k⟩] :=
  ⟨by decide, by decide, by decide, other_lists_two_registers.1⟩
theorem witness_StStoresToTheNamedCell :
    busy.wf = true ∧ xreg? 0 = some .ac ∧ xreg? 3 = some .ior ∧
    ¬ ∃ a k : Byte, a.toNat < 4 ∧ k.toNat < 4 ∧ [Operand.mk .reg 3, ⟨.reg, 4⟩] = [⟨.reg, a⟩, ⟨.reg, k⟩] :=
  ⟨by decide, by decide, by decide, other_lists_two_registers.2⟩
theorem witness_InReadsThePort :
    busy.wf = true ∧ busy.inbuf[busy.cur]? = some 0x69 ∧ spent.wf = true ∧ spent.inbuf[spent.cur]? = none ∧
    ¬ ([Operand.mk .imm 2] = [⟨.imm, 0⟩] ∨ [Operand.mk .imm 2] = [⟨.imm, 1⟩]) := by decide
theorem witness_OutWritesThePort :
    busy.wf = true ∧ busy.inbuf[busy.cur]? = some 0x69 ∧ spent.wf = true ∧ spent.inbuf[spent.cur]? = none ∧
    ¬ ([Operand.mk .reg 1] = [⟨.imm, 0⟩] ∨ [Operand.mk .reg 1] = [⟨.imm, 1⟩]) := by decide

end Sys2Proof.Tests
end

section
/-! PROOFS. Data memory: `mem_read` and `mem_write` (20_memory.md R42, R43). -/

namespace Sys2Proof.Machine

/-! ## Loading a register twice -/

/-- A register loaded twice holds the later value, and the first load leaves no trace. -/
theorem setReg_setReg_same (r : RegName) (v w : Byte) (s : State) : setReg r v (setReg r w s) = setReg r v s := by
  refine State.ext_reg (fun q => ?_) rfl rfl rfl rfl rfl rfl rfl rfl rfl rfl
  by_cases hq : q = r <;> simp [hq]

/-! ## Cells that memory does not list -/

/-- An address that no entry of the list carries reads 0, in canonical form or not. -/
theorem Memory.get_of_unlisted {a : Nat} : ∀ {m : Memory}, (∀ v, (a, v) ∉ m) → Memory.get a m = 0
  | [], _ => rfl
  | (b, w) :: rest, h => by
    have hab : a ≠ b := by
      rintro rfl
      exact h w List.mem_cons_self
    have hrest : ∀ v, (a, v) ∉ rest := fun v hv => h v (List.mem_cons_of_mem _ hv)
    simpa [Memory.get, hab] using Memory.get_of_unlisted hrest

/-! ## `mem_read` -/

/-- `mem_read` replaces the value of `MDR` and no signal; every other register keeps its whole record. -/
theorem reg_memRead (s : State) (q : RegName) :
    (memRead s).reg q = if q = .mdr then { s.reg .mdr with value := s.cell (s.val .mar) } else s.reg q :=
  reg_setReg s _ .mdr q

/-- `mem_read` changes neither its address nor the cell it reads, so a second one loads the same value. -/
theorem memRead_memRead (s : State) : memRead (memRead s) = memRead s :=
  calc memRead (memRead s)
      = setReg .mdr ((memRead s).cell ((memRead s).val .mar)) (memRead s) := rfl
    _ = setReg .mdr (s.cell (s.val .mar)) (memRead s) := by simp
    _ = memRead s := setReg_setReg_same ..

/-! ## The obligation -/

/-- Settles O31, from the law of each operation: what the registers read after `mem_read`, what the cells read after
`mem_write` (the only place the canonical form is needed), and that each is an update of one field of the state. -/
theorem memoryReadsAndWrites : Obligations.MemoryReadsAndWrites := by
  intro s hwf
  refine ⟨⟨?mdr, ?mdrRecord, ?otherRegs, rfl, memRead_memRead s⟩, ⟨?written, ?otherCells, rfl⟩, ?unlisted⟩
  case mdr => simp
  case mdrRecord => simp [reg_memRead]
  case otherRegs => exact fun r hr => by simp [reg_memRead, hr]
  case written => simp [hwf]
  case otherCells => exact fun a ha => by simp [hwf, ha]
  case unlisted => exact fun a ha => Memory.get_of_unlisted ha

end Sys2Proof.Machine
end

section
/-! PROOFS. The bus: what a transfer and a register move do to each register (40_datapath_alu.md R83, R84, R86). -/

namespace Sys2Proof.Machine

/-! ## The driver of the bus -/

theorem busDriver_eq_none_iff (s : State) : busDriver s = none ↔ ∀ r, (s.reg r).outputEnable = false := by
  simp [busDriver, mem_busOrder]

/-- The driver is the register of `BUSORDER` that drives while none before it does (40_datapath_alu.md R84). -/
theorem busDriver_eq_some_iff (s : State) (d : RegName) :
    busDriver s = some d ↔ (s.reg d).outputEnable = true ∧
      ∃ pre post, busOrder = pre ++ d :: post ∧ ∀ r ∈ pre, (s.reg r).outputEnable = false := by
  simp [busDriver, List.find?_eq_some_iff_append]

/-! ## One transfer -/

theorem transfer_of_noDriver {s : State} (h : busDriver s = none) : transfer s = s := by
  simp only [transfer, h]

theorem transfer_of_driver {s : State} {d : RegName} (h : busDriver s = some d) :
    transfer s = busOrder.foldl (latch (s.val d)) (setBus (s.val d) s) := by
  simp only [transfer, h]

theorem bus_transfer_of_driver {s : State} {d : RegName} (h : busDriver s = some d) :
    (transfer s).bus = s.val d := by
  obtain ⟨hbus, -⟩ := latch_foldl_rest (s.val d) busOrder (setBus (s.val d) s)
  rw [transfer_of_driver h, hbus, bus_setBus]

/-- Fan-out: every register with its input enabled takes the driver's value, and keeps its signals. -/
theorem reg_transfer_of_driver {s : State} {d : RegName} (h : busDriver s = some d) (r : RegName) :
    (transfer s).reg r = if (s.reg r).inputEnable = true then { s.reg r with value := s.val d } else s.reg r := by
  simp [transfer_of_driver h, reg_latch_foldl, mem_busOrder]

/-- Settles O28: the split of the registration order names the driver, and the laws of one transfer say the rest. -/
theorem transferBroadcastsTheFirstDriver : Obligations.TransferBroadcastsTheFirstDriver := by
  intro s
  refine ⟨fun hoff => transfer_of_noDriver ((busDriver_eq_none_iff s).2 hoff), fun pre d post horder hpre hd => ?_⟩
  have hdriver : busDriver s = some d := (busDriver_eq_some_iff s d).2 ⟨hd, pre, post, horder, hpre⟩
  exact ⟨bus_transfer_of_driver hdriver, reg_transfer_of_driver hdriver⟩

/-! ## Any number of transfers -/

/-- A closed input alone shields a register from a transfer: whether it drives makes no difference to itself. -/
theorem reg_transfer_of_inputClosed {s : State} {r : RegName} (hin : (s.reg r).inputEnable = false) :
    (transfer s).reg r = s.reg r := by
  cases hd : busDriver s with
  | none => rw [transfer_of_noDriver hd]
  | some d => simp [reg_transfer_of_driver hd, hin]

theorem reg_iterate_transfer_of_inputClosed {s : State} {r : RegName} (hin : (s.reg r).inputEnable = false) (n : Nat) :
    (transfer^[n] s).reg r = s.reg r := by
  induction n with
  | zero => rfl
  | succ n ih => rw [Function.iterate_succ_apply', reg_transfer_of_inputClosed (by rwa [ih]), ih]

/-- Settles O27: one transfer leaves the register's whole record alone, its closed input with it, so the next one does
too. -/
theorem closedRegisterIgnoresTransfers : Obligations.ClosedRegisterIgnoresTransfers :=
  fun n _ _ _ hin => reg_iterate_transfer_of_inputClosed hin n

/-! ## An operation on every register of a list -/

/-- An idempotent change of one register's record, made on each register of a list, changes exactly the records of those
registers, however often the list names them. -/
theorem reg_foldl_update {op : RegName → State → State} {f : Register → Register} (hf : ∀ x, f (f x) = f x)
    (hop : ∀ (s : State) (r q : RegName), (op r s).reg q = if q = r then f (s.reg r) else s.reg q) (q : RegName) :
    ∀ (l : List RegName) (s : State), (l.foldl (fun t r => op r t) s).reg q = if q ∈ l then f (s.reg q) else s.reg q
  | [], s => by simp
  | r :: l, s => by
    rw [List.foldl_cons, reg_foldl_update hf hop q l, hop]
    by_cases hqr : q = r
    · subst hqr
      simp [hf]
    · simp [hqr]

theorem reg_foldl_openIn (l : List RegName) (s : State) (q : RegName) :
    (l.foldl (fun t r => openIn r t) s).reg q = if q ∈ l then { s.reg q with inputEnable := true } else s.reg q :=
  reg_foldl_update (f := fun x => { x with inputEnable := true }) (fun _ => rfl) reg_openIn q l s

theorem reg_foldl_closeIn (l : List RegName) (s : State) (q : RegName) :
    (l.foldl (fun t r => closeIn r t) s).reg q = if q ∈ l then { s.reg q with inputEnable := false } else s.reg q :=
  reg_foldl_update (f := fun x => { x with inputEnable := false }) (fun _ => rfl) reg_closeIn q l s

/-! ## A move to any list of destinations -/

/-- On an idle bus a register's record is its value with both signals closed. -/
theorem reg_eq_of_busIdle {s : State} (h : s.busIdle = true) (r : RegName) : s.reg r = ⟨s.val r, false, false⟩ := by
  obtain ⟨hout, hin⟩ : (s.reg r).outputEnable = false ∧ (s.reg r).inputEnable = false := by
    simpa [Register.idle] using (busIdle_iff s).1 h r
  calc s.reg r = ⟨(s.reg r).value, (s.reg r).outputEnable, (s.reg r).inputEnable⟩ := rfl
    _ = ⟨s.val r, false, false⟩ := by simp only [hout, hin, State.val]

/-- In a move the source drives the bus, whatever the destinations, itself among them (40_datapath_alu.md R86, R87). -/
theorem busDriver_opened {s : State} (h : s.busIdle = true) (src : RegName) (dsts : List RegName) :
    busDriver (dsts.foldl (fun t d => openIn d t) (openOut src s)) = some src :=
  busDriver_openOut h src _ fun r => by rw [reg_foldl_openIn]; split <;> rfl

/-- A move on an idle bus gives each destination the source's value, and leaves every record's signals closed. -/
theorem reg_moveAll {s : State} (h : s.busIdle = true) (src : RegName) (dsts : List RegName) (q : RegName) :
    (moveAll src dsts s).reg q = if q ∈ dsts then { s.reg q with value := s.val src } else s.reg q := by
  have hval : (dsts.foldl (fun t d => openIn d t) (openOut src s)).val src = s.val src := by
    rw [State.val, reg_foldl_openIn]
    split <;> simp [State.val]
  simp only [moveAll, reg_foldl_closeIn, reg_closeOut, reg_transfer_of_driver (busDriver_opened h src dsts), hval,
    reg_foldl_openIn, reg_openOut, reg_eq_of_busIdle h]
  obtain rfl | hsrc := eq_or_ne q src
  · by_cases hdst : q ∈ dsts <;> simp [hdst]
  · by_cases hdst : q ∈ dsts <;> simp [hdst, hsrc]

/-- All of a state but its registers and the bus value: what no operation of the bus reaches. -/
def State.beyondBus (s : State) :=
  (s.flags, s.mem, s.prog, s.pc, s.run, s.icnt, s.inbuf, s.cur, s.outlog)

theorem beyondBus_transfer (s : State) : (transfer s).beyondBus = s.beyondBus := by
  simp [State.beyondBus, transfer_keeps]

theorem beyondBus_foldl {op : RegName → State → State} (hop : ∀ r s, (op r s).beyondBus = s.beyondBus)
    (l : List RegName) (s : State) : (l.foldl (fun t r => op r t) s).beyondBus = s.beyondBus :=
  List.foldlRecOn l _ (motive := fun t => t.beyondBus = s.beyondBus) rfl fun t ht r _ => (hop r t).trans ht

theorem beyondBus_moveAll (src : RegName) (dsts : List RegName) (s : State) :
    (moveAll src dsts s).beyondBus = s.beyondBus := by
  have hopened : (dsts.foldl (fun t d => openIn d t) (openOut src s)).beyondBus = s.beyondBus :=
    beyondBus_foldl (op := openIn) (fun _ _ => rfl) dsts (openOut src s)
  calc (moveAll src dsts s).beyondBus
      = (transfer (dsts.foldl (fun t d => openIn d t) (openOut src s))).beyondBus :=
        beyondBus_foldl (op := closeIn) (fun _ _ => rfl) dsts (closeOut src _)
    _ = s.beyondBus := by rw [beyondBus_transfer, hopened]

/-- Settles O29: the registers by the law of `moveAll`, which also gives that no signal stays open, the rest by its
frame. -/
theorem moveCopiesTheSource : Obligations.MoveCopiesTheSource := by
  intro src dsts s h
  refine ⟨_, rfl, fun r => ?value, ?idle, ?frame⟩
  case value =>
    simp only [State.val, reg_moveAll h]
    split <;> rfl
  case idle =>
    have hsignals : ∀ r, ((moveAll src dsts s).reg r).idle = (s.reg r).idle := fun r => by
      rw [reg_moveAll h]
      split <;> rfl
    rw [busIdle_congr hsignals, h]
  case frame => simpa only [State.beyondBus, Prod.mk.injEq] using beyondBus_moveAll src dsts s

end Sys2Proof.Machine
end

section
/-! PROOFS. The ALU's steps by one (40_datapath_alu.md R95, R96). -/

namespace Sys2Proof.Machine

/-! ## The left operand's steps are the right operand's, with the operands exchanged -/

theorem aluResult_incl (l r : Byte) (c : Bool) : aluResult .incl l r c = l + 1 :=
  aluResult_incr r l c

theorem aluResult_decl (l r : Byte) (c : Bool) : aluResult .decl l r c = l - 1 :=
  aluResult_decr r l c

theorem aluFlags_incl (m : FlagMask) (l r : Byte) (f : Flags) : aluFlags .incl m l r f = stepFlags l f.c :=
  aluFlags_incr m r l f

/-! ## The flags of a step down -/

theorem signBit_eq_negative (v : Byte) : signBit v = negative v :=
  BitVec.msb_eq_decide v

/-- The one step down that overflows is the one from the least signed value, 128. -/
theorem overflow_pred (a : Byte) : overflow a (comp 1) (a - 1) = decide (a = 128) := by
  have hbits : (128 ≤ a.toNat ∧ ¬(128 ≤ (a - 1).toNat ↔ 128 ≤ a.toNat)) ↔ a = 128 := by bv_omega
  have hcomp : negative (comp 1) = true := by decide
  simp only [overflow, signBit_eq_negative, hcomp]
  rw [Bool.eq_iff_iff]
  simpa [negative] using hbits

theorem aluFlags_decr (m : FlagMask) (l r : Byte) (f : Flags) :
    aluFlags .decr m l r f = ⟨negative (r - 1), decide (r = 1), decide (r = 128), f.c⟩ := by
  have hz : r - 1 = 0 ↔ r = 1 := sub_eq_zero
  simp only [aluFlags, effectiveMask, FlagMask.nzv, aluResult_decr, aluInputs, signBit_eq_negative, overflow_pred, hz,
    if_true, Bool.false_eq_true, if_false]

theorem aluFlags_decl (m : FlagMask) (l r : Byte) (f : Flags) :
    aluFlags .decl m l r f = ⟨negative (l - 1), decide (l = 1), decide (l = 128), f.c⟩ :=
  aluFlags_decr m r l f

/-- Settles O33: result and flags of each operation by its own law, the masks because the four force theirs. -/
theorem aluStepsByOne : Obligations.AluStepsByOne := by
  intro s
  refine ⟨?incl, ?incr, ?decl, ?decr, fun op hop => ⟨?masks, fun r hr => ?others⟩⟩
  case incl => simp [aluResult_incl, aluFlags_incl]
  case incr => simp [aluFlags_incr]
  case decl => simp [aluResult_decl, aluFlags_decl]
  case decr => simp [aluFlags_decr]
  case masks =>
    have hforced : ∀ m m', effectiveMask op m = effectiveMask op m' := fun _ _ => by
      fin_cases hop <;> rfl
    exact fun m => aluWith_forced hforced m s
  case others => simp [hr]

end Sys2Proof.Machine
end

section
/-! PROOFS. The control unit: the record of an instruction without operands, the end of an instruction, NOP and HLT
(30_encoding.md R61; 41_control_unit.md R110, R114 to R118). -/

namespace Sys2Proof.Machine

/-! ## The record of a bare opcode -/

/-- The record of NOP or HLT ends behind the opcode byte (30_encoding.md R61). -/
theorem readRecord_bare {opcode : Byte} (h : isBare opcode = true) (offset : Nat) (address : Byte) (rest : List Byte) :
    readRecord offset (address :: opcode :: rest) = .ok (⟨opcode, [], address⟩, rest) := by
  simp [readRecord, h]

theorem encodedAs_bare {i : Instr} (hbare : isBare (opcodeOf i.mnemonic) = true) (hops : i.operands = [])
    (hform : Laws.Form.Statement i) : EncodedAs [opcodeOf i.mnemonic] i := by
  intro offset address rest
  obtain ⟨-, hclassify⟩ := hform address
  refine ⟨i.toCommand address, ?_, rfl, hclassify⟩
  simpa [Instr.toCommand, hops] using readRecord_bare hbare offset address rest

/-! ## The end of an instruction -/

/-- The end of an instruction touches `pc`, `RUN` and `ICNT` alone. -/
theorem sameDatapath_of_complete {x : Transfer} {s t : State} (h : complete x s = .next t) : SameDatapath s t := by
  obtain ⟨hregs, hbus, hflags, hmem, hprog, -, hinbuf, hcur, houtlog⟩ := of_complete h
  exact ⟨hregs, hbus, hflags, hmem, hprog, hinbuf, hcur, houtlog⟩

/-- Whatever the datapath part did, an instruction that ends in an advance goes to the address after its own, or raises
NoNextInstruction with `pc` unchanged (41_control_unit.md R114, R115). -/
theorem advanced_of_complete {s u t : State} (hu : DatapathOnly s u) (h : complete .advance u = .next t) :
    Advanced s t := by
  obtain ⟨-, -, -, -, -, hicnt, -⟩ := of_complete h
  have ht : advance (countStep u) = t := Host.Outcome.next.inj h
  have hnext : (countStep u).nextAddress = s.nextAddress := by
    simp [State.nextAddress, State.order, hu.pc, hu.prog]
  subst ht
  refine ⟨hicnt.trans (by rw [hu.icnt]), fun a ha => ?next, fun hnone => ?noNext⟩
  case next => simp [advance_some (hnext.trans ha), hu.run]
  case noNext => simp [advance_none (hnext.trans hnone), hu.pc]

/-! ## The obligations -/

/-- Settles O36: NOP is the end of an instruction that advances, and nothing before it. -/
theorem nopOnlyAdvances : Obligations.NopOnlyAdvances :=
  ⟨encodedAs_bare rfl rfl Laws.Form.nop,
    fun _ => ⟨_, rfl, sameDatapath_of_complete (x := .advance) rfl, advanced_of_complete (.refl _) rfl⟩⟩

/-- Settles O37: HLT is the end of an instruction that halts, and nothing before it. -/
theorem hltEndsTheRun : Obligations.HltEndsTheRun :=
  ⟨encodedAs_bare rfl rfl Laws.Form.hlt,
    fun _ => ⟨_, rfl, sameDatapath_of_complete (x := .halt) rfl, rfl, rfl, rfl, rfl⟩⟩

end Sys2Proof.Machine
end

section
/-! PROOFS. Records with operands, and the operand lists an opcode rejects (30_encoding.md R61 to R64, R68;
41_control_unit.md R112, R113). -/

namespace Sys2Proof.Machine

/-! ## The record of an instruction with operands -/

theorem modeOf_modeCode (m : Mode) : modeOf (modeCode m) = some m := by
  cases m <;> rfl

/-- The operands end at the first "none" field, and no field behind it is looked at (30_encoding.md R62, R64). -/
theorem readOperands_fields (ignored : List (BitVec 2)) (rest : List Byte) : ∀ (ops : List Operand) (offset : Nat),
    readOperands (ops.map (fun o => modeCode o.mode) ++ 0#2 :: ignored) offset (ops.map (·.value) ++ rest) =
      .ok (ops, rest)
  | [], _ => rfl
  | o :: ops, offset => by
    simp [readOperands, modeOf_modeCode, readOperands_fields ignored rest ops (offset + 1)]

theorem encodedAs_of_modeFields {i : Instr} {modes : Byte} {ignored : List (BitVec 2)}
    (hbare : isBare (opcodeOf i.mnemonic) = false)
    (hfields : modeFields modes = i.operands.map (fun o => modeCode o.mode) ++ 0#2 :: ignored)
    (hform : Laws.Form.Statement i) :
    EncodedAs (opcodeOf i.mnemonic :: modes :: i.operands.map (·.value)) i := by
  intro offset address rest
  obtain ⟨-, hclassify⟩ := hform address
  refine ⟨i.toCommand address, ?_, rfl, hclassify⟩
  simp [readRecord, hbare, hfields, readOperands_fields, Instr.toCommand]

/-- The fields of a mode byte for a register and an immediate. -/
theorem modeFields_regImm (x : BitVec 2) : modeFields (0b111000#6 ++ x) = [0b11, 0b10, 0#2, x] := by
  revert x; decide

/-- The fields of a mode byte for a register alone. -/
theorem modeFields_reg (x : BitVec 4) :
    modeFields (0b1100#4 ++ x) = [0b11, 0#2, x.extractLsb' 2 2, x.extractLsb' 0 2] := by
  revert x; decide

/-! ## The operand lists an opcode rejects -/

theorem mnemonicOf_opcodeOf (m : Mnemonic) : mnemonicOf (opcodeOf m) = some m := by
  cases m <;> rfl

/-- A supported form has the mnemonic and the operands it was made of (30_encoding.md R68). -/
theorem formOf_some {m : Mnemonic} {ops : List Operand} {i : Instr} (h : formOf m ops = some i) :
    i.mnemonic = m ∧ i.operands = ops := by
  cases m <;> simp only [formOf] at h <;> split at h <;> cases h <;> exact ⟨rfl, rfl⟩

/-- An opcode rejects every operand list but those of its instructions that pass the operand check: the others make no
form, or one whose register or port operands name nothing (41_control_unit.md R113). -/
theorem rejectsOthers_of_forms {m : Mnemonic} {supported : List Operand → Prop}
    (h : ∀ i : Instr, i.mnemonic = m → i.wf = true → supported i.operands) :
    RejectsOthers (opcodeOf m) supported := by
  intro ops address s hops
  cases hform : formOf m ops with
  | none => simp [runCommand, classify, mnemonicOf_opcodeOf, hform, raiseReject, raiseUnsupported, raise, setRun]
  | some i =>
    obtain ⟨hm, rfl⟩ := formOf_some hform
    have hexec : exec i s = unsupported m s := by
      rcases exec_cases i s with ⟨hwf, -⟩ | ⟨-, hexec⟩
      · exact absurd (h i hm hwf) hops
      · rw [hexec, hm]
    simp [runCommand, classify, mnemonicOf_opcodeOf, hform, hexec, unsupported, raiseUnsupported, raise, setRun]

theorem regOperand_lt_of_wf {i : Instr} (hwf : i.wf = true) {k : Byte} (hk : k ∈ i.regOperands) : k.toNat < 4 := by
  obtain ⟨hregs, -⟩ : i.regsNamed = true ∧ i.portsNamed = true := by simpa [Instr.wf] using hwf
  exact of_decide_eq_true (List.all_eq_true.1 hregs k hk)

/-! ## The effect of an instruction that advances -/

theorem busIdle_of_wf {s : State} (h : s.wf = true) : s.busIdle = true := by
  simp only [State.wf, Bool.and_eq_true] at h
  exact h.1.1.1

/-- An instruction that ends in an advance leaves what its datapath part left, and advances: its frame is that of the
datapath part. -/
theorem exec_advance {i : Instr} {s u : State} {regs : List RegName} {cells : List Byte}
    (hs : s.wf = true) (hexec : exec i s = complete .advance u) (hu : DatapathOnly s u)
    (hregs : ∀ r, r ∉ regs → u.val r = s.val r) (hcells : ∀ a, a ∉ cells → u.cell a = s.cell a) :
    ∃ t, exec i s = .next t ∧ Advanced s t ∧ (∀ r, t.val r = u.val r) ∧ t.cell = u.cell ∧ t.flags = u.flags ∧
      t.cur = u.cur ∧ t.outlog = u.outlog ∧ Frame regs cells s t := by
  have hval : ∀ r, (transferControl .advance (countStep u)).val r = u.val r := fun r => by simp
  have hcell : ∀ a, (transferControl .advance (countStep u)).cell a = u.cell a := fun a => by simp
  refine ⟨transferControl .advance (countStep u), hexec, advanced_of_complete hu rfl, hval, funext hcell, by simp,
    by simp, by simp, ?_⟩
  exact {
    registers := fun r hr => (hval r).trans (hregs r hr)
    memory := fun a ha => (hcell a).trans (hcells a ha)
    program := by simp [hu.prog]
    input := by simp [hu.inbuf]
    signals := by simp [hu.busIdle (busIdle_of_wf hs)] }

end Sys2Proof.Machine
end

section
/-! PROOFS. The in-place register instructions ADD1, SHL, SHR, INC and DEC (43_arith.md R140, R150 to R153). -/

namespace Sys2Proof.Machine

/-! ## The micro-sequences -/

theorem val_inPlaceImm {s : State} (h : s.busIdle = true) (op : AluOp) (r : RegName) (v : Byte) (q : RegName) :
    (inPlaceImm op r v s).val q =
      if q = r ∨ q = .res then aluResult op (s.val r) v s.flags.c else if q = .rop then v
      else if q = .lop then s.val r else s.val q := by
  by_cases hr : q = r <;> simp [inPlaceImm, h, hr]

theorem flags_inPlaceImm {s : State} (h : s.busIdle = true) (op : AluOp) (r : RegName) (v : Byte) :
    (inPlaceImm op r v s).flags = aluFlags op .nzvc (s.val r) v s.flags := by
  simp [inPlaceImm, h]

theorem val_inPlace {s : State} (h : s.busIdle = true) (op : AluOp) (r q : RegName) :
    (inPlace op r s).val q =
      if q = r ∨ q = .res then aluResult op (s.val r) (s.val .rop) s.flags.c else if q = .lop then s.val r
      else s.val q := by
  by_cases hr : q = r <;> simp [inPlace, h, hr]

theorem flags_inPlace {s : State} (h : s.busIdle = true) (op : AluOp) (r : RegName) :
    (inPlace op r s).flags = aluFlags op .nzvc (s.val r) (s.val .rop) s.flags := by
  simp [inPlace, h]

theorem ne_lop_rop_of_named {k : Byte} {r : RegName} (h : xreg? k = some r) : r ≠ .lop ∧ r ≠ .rop := by
  rcases xreg?_some h with ⟨-, rfl⟩ | ⟨-, rfl⟩ | ⟨-, rfl⟩ | ⟨-, rfl⟩ <;> decide

/-! ## The two shapes of instruction -/

theorem DatapathOnly.ofSetFlags (f : Flags) (s : State) : DatapathOnly s (setFlags f s) := by
  constructor <;> simp +contextual

/-- An instruction that works on a register with an immediate, from whatever flags it sets up first: the ALU's result
and flags, and the operands it leaves in LOP and ROP (43_arith.md R140, R150, R151). -/
theorem exec_inPlaceImm {i : Instr} {op : AluOp} {k v : Byte} {r : RegName} {f : Flags} {s : State} (hs : s.wf = true)
    (hk : xreg? k = some r) (hexec : exec i s = complete .advance (inPlaceImm op r v (setFlags f s))) :
    ∃ t, exec i s = .next t ∧ Advanced s t ∧ t.val r = aluResult op (s.val r) v f.c ∧ t.val .lop = s.val r ∧
      t.val .rop = v ∧ t.val .res = t.val r ∧ t.flags = aluFlags op .nzvc (s.val r) v f ∧ SameDevices s t ∧
      Frame [.lop, .rop, .res, r] [] s t := by
  have hidle : (setFlags f s).busIdle = true := busIdle_of_wf hs
  obtain ⟨hlop, hrop⟩ := ne_lop_rop_of_named hk
  have hothers : ∀ q, q ∉ [.lop, .rop, .res, r] → (inPlaceImm op r v (setFlags f s)).val q = s.val q := fun q hq => by
    simp only [List.mem_cons, List.not_mem_nil, or_false, not_or] at hq
    simp [val_inPlaceImm hidle, hq]
  obtain ⟨t, ht, hadv, hval, -, hflags, hcur, hlog, hframe⟩ := exec_advance (cells := []) hs hexec
    ((DatapathOnly.ofSetFlags f s).trans (.ofInPlaceImm op r v _)) hothers (fun a _ => by simp)
  refine ⟨t, ht, hadv, ?_, ?_, ?_, ?_, ?_, ⟨?_, ?_⟩, hframe⟩
  all_goals simp [hval, hflags, hcur, hlog, val_inPlaceImm hidle, flags_inPlaceImm hidle, hlop.symm, hrop.symm]

/-- An instruction that works on a register alone: as with an immediate, with ROP untouched (43_arith.md R152, R153). -/
theorem exec_inPlace {i : Instr} {op : AluOp} {k : Byte} {r : RegName} {s : State} (hs : s.wf = true)
    (hk : xreg? k = some r) (hexec : exec i s = complete .advance (inPlace op r s)) :
    ∃ t, exec i s = .next t ∧ Advanced s t ∧ t.val r = aluResult op (s.val r) (s.val .rop) s.flags.c ∧
      t.val .lop = s.val r ∧ t.val .res = t.val r ∧ t.flags = aluFlags op .nzvc (s.val r) (s.val .rop) s.flags ∧
      SameDevices s t ∧ Frame [.lop, .res, r] [] s t := by
  have hidle := busIdle_of_wf hs
  obtain ⟨hlop, -⟩ := ne_lop_rop_of_named hk
  have hothers : ∀ q, q ∉ [.lop, .res, r] → (inPlace op r s).val q = s.val q := fun q hq => by
    simp only [List.mem_cons, List.not_mem_nil, or_false, not_or] at hq
    simp [val_inPlace hidle, hq]
  obtain ⟨t, ht, hadv, hval, -, hflags, hcur, hlog, hframe⟩ := exec_advance (cells := []) hs hexec
    (.ofInPlace op r s) hothers (fun a _ => by simp)
  refine ⟨t, ht, hadv, ?_, ?_, ?_, ?_, ⟨?_, ?_⟩, hframe⟩
  all_goals simp [hval, hflags, hcur, hlog, val_inPlace hidle, flags_inPlace hidle, hlop.symm]

/-! ## The ALU's results and flags -/

theorem carry_eq (raw : Nat) : carry raw = decide (256 ≤ raw) := rfl

/-- ADD with the carry flag clear is addition of words (40_datapath_alu.md R91). -/
theorem aluResult_add_noCarry (l r : Byte) : aluResult .add l r false = l + r := by
  apply BitVec.eq_of_toNat_eq
  simp [aluResult, aluInputs]

theorem aluFlags_add_noCarry (l r : Byte) (f : Flags) :
    aluFlags .add .nzvc l r { f with c := false } = addFlags l r := by
  simp [aluFlags, effectiveMask, FlagMask.nzvc, aluResult_add_noCarry, aluInputs, overflow, signBit_eq_negative,
    carry_eq, addFlags]

/-- The shift amount is not reduced (40_datapath_alu.md R97). -/
theorem toNat_aluResult_shl (l r : Byte) (c : Bool) : (aluResult .shl l r c).toNat = l.toNat * 2 ^ r.toNat % 256 := by
  simp [aluResult, aluInputs]

theorem aluFlags_shl (m : FlagMask) (l r : Byte) (f : Flags) :
    aluFlags .shl m l r f = { f with c := decide (256 ≤ l.toNat * 2 ^ r.toNat) } := by
  simp [aluFlags, effectiveMask, FlagMask.onlyC, aluInputs, carry_eq]

/-- A right shift never leaves the word (40_datapath_alu.md R98). -/
theorem shr_lt (l r : Byte) : l.toNat / 2 ^ r.toNat < 256 :=
  (Nat.div_le_self ..).trans_lt l.isLt

theorem toNat_aluResult_shr (l r : Byte) (c : Bool) : (aluResult .shr l r c).toNat = l.toNat / 2 ^ r.toNat := by
  simp [aluResult, aluInputs, Nat.mod_eq_of_lt (shr_lt l r)]

theorem aluFlags_shr (m : FlagMask) (l r : Byte) (f : Flags) : aluFlags .shr m l r f = { f with c := false } := by
  simp [aluFlags, effectiveMask, FlagMask.onlyC, aluInputs, carry_eq, shr_lt l r]

/-- The step up that leaves 0 is from 255, and the one that overflows is from 127 (40_datapath_alu.md R95). -/
theorem stepFlags_eq (a : Byte) (c : Bool) :
    stepFlags a c = ⟨negative (a + 1), decide (a = 255), decide (a = 127), c⟩ := by
  have hz : a + 1 = 0 ↔ a = 255 := by bv_omega
  have hv : a.toNat = 127 ↔ a = 127 := by bv_omega
  simp only [stepFlags, hz, hv]

/-! ## Shifts by the width of a word and more -/

theorem le_two_pow_of_eight_le {n : Nat} (h : 8 ≤ n) : 256 ≤ 2 ^ n :=
  Nat.pow_le_pow_right two_pos h

/-- Eight places and more shift every bit out on the left, so the carry says whether there was one. -/
theorem le_mul_two_pow_iff {v : Byte} {n : Nat} (h : 8 ≤ n) : 256 ≤ v.toNat * 2 ^ n ↔ v ≠ 0 := by
  obtain rfl | hv := eq_or_ne v 0
  · simp
  · have hpos : 0 < v.toNat := by bv_omega
    exact iff_of_true ((le_two_pow_of_eight_le h).trans (Nat.le_mul_of_pos_left _ hpos)) hv

/-- Eight places and more shift every bit out on the right. -/
theorem div_two_pow_eq_zero (v : Byte) {n : Nat} (h : 8 ≤ n) : v.toNat / 2 ^ n = 0 :=
  Nat.div_eq_of_lt (v.isLt.trans_le (le_two_pow_of_eight_le h))

/-! ## The obligations -/

/-- Settles O45: the micro-sequence from a state with the carry flag cleared, which makes ADD the addition of words. -/
theorem add1AddsAnImmediate : Obligations.Add1AddsAnImmediate := by
  refine ⟨fun k v x => encodedAs_of_modeFields rfl (modeFields_regImm x) (Laws.Form.add1RI k v),
    fun k v r s hs hk => ?effect, rejectsOthers_of_forms (m := .ADD1) fun i hm hwf => ?forms⟩
  case effect =>
    have hexec : exec (.add1RI k v) s = complete .advance (inPlaceImm .add r v (clearC s)) := by
      simp [exec, execAdd1RI, hk]
    obtain ⟨t, ht, hadv, hr, hlop, hrop, hres, hflags, hdev, hframe⟩ := exec_inPlaceImm hs hk hexec
    refine ⟨t, ht, hadv, ?_, hlop, hrop, hres, hflags.trans (aluFlags_add_noCarry ..), hdev, hframe⟩
    rw [hr, aluResult_add_noCarry, BitVec.toNat_add]
  case forms =>
    cases i with
    | add1RI k v => exact ⟨k, v, regOperand_lt_of_wf hwf List.mem_cons_self, rfl⟩
    | _ => cases hm

/-- Settles O52: the micro-sequence with the flags as they are; the corner cases are facts about `v * 2 ^ n`. -/
theorem shlShiftsLeft : Obligations.ShlShiftsLeft := by
  refine ⟨fun k n x => encodedAs_of_modeFields rfl (modeFields_regImm x) (Laws.Form.shlRI k n),
    fun k n r s hs hk => ?effect, rejectsOthers_of_forms (m := .SHL) fun i hm hwf => ?forms⟩
  case effect =>
    have hexec : exec (.shlRI k n) s = complete .advance (inPlaceImm .shl r n (setFlags s.flags s)) := by
      simp only [exec, execShlRI, hk]
      rfl
    obtain ⟨t, ht, hadv, hr, hlop, hrop, hres, hflags, hdev, hframe⟩ := exec_inPlaceImm hs hk hexec
    have hval : (t.val r).toNat = (s.val r).toNat * 2 ^ n.toNat % 256 := by rw [hr, toNat_aluResult_shl]
    rw [aluFlags_shl] at hflags
    refine ⟨t, ht, hadv, hval, hlop, hrop, hres, hflags, fun hn => ⟨?_, ?_⟩, fun hn => ⟨?_, ?_⟩, hdev, hframe⟩
    · exact BitVec.eq_of_toNat_eq (by simpa [hn, Nat.mod_eq_of_lt (s.val r).isLt] using hval)
    · simp [hflags, hn, (s.val r).isLt]
    · have hdvd : 256 ∣ (s.val r).toNat * 2 ^ n.toNat := (pow_dvd_pow 2 hn).mul_left _
      exact BitVec.eq_of_toNat_eq (hval.trans (Nat.mod_eq_zero_of_dvd hdvd))
    · simp only [hflags, decide_eq_true_eq, le_mul_two_pow_iff hn]
  case forms =>
    cases i with
    | shlRI k n => exact ⟨k, n, regOperand_lt_of_wf hwf List.mem_cons_self, rfl⟩
    | _ => cases hm

/-- Settles O53: the micro-sequence with the flags as they are; a quotient never leaves the word, so C is cleared. -/
theorem shrShiftsRight : Obligations.ShrShiftsRight := by
  refine ⟨fun k n x => encodedAs_of_modeFields rfl (modeFields_regImm x) (Laws.Form.shrRI k n),
    fun k n r s hs hk => ?effect, rejectsOthers_of_forms (m := .SHR) fun i hm hwf => ?forms⟩
  case effect =>
    have hexec : exec (.shrRI k n) s = complete .advance (inPlaceImm .shr r n (setFlags s.flags s)) := by
      simp only [exec, execShrRI, hk]
      rfl
    obtain ⟨t, ht, hadv, hr, hlop, hrop, hres, hflags, hdev, hframe⟩ := exec_inPlaceImm hs hk hexec
    have hval : (t.val r).toNat = (s.val r).toNat / 2 ^ n.toNat := by rw [hr, toNat_aluResult_shr]
    refine ⟨t, ht, hadv, hval, hlop, hrop, hres, hflags.trans (aluFlags_shr ..), fun hn => ?_, fun hn => ?_, hdev,
      hframe⟩
    · exact BitVec.eq_of_toNat_eq (by simpa [hn] using hval)
    · exact BitVec.eq_of_toNat_eq (hval.trans (div_two_pow_eq_zero _ hn))
  case forms =>
    cases i with
    | shrRI k n => exact ⟨k, n, regOperand_lt_of_wf hwf List.mem_cons_self, rfl⟩
    | _ => cases hm

/-- Settles O54: the micro-sequence with the ALU's step up from LOP, which neither reads nor writes C. -/
theorem incAddsOne : Obligations.IncAddsOne := by
  refine ⟨fun k x => encodedAs_of_modeFields rfl (modeFields_reg x) (Laws.Form.incR k),
    fun k r s hs hk => ?effect, rejectsOthers_of_forms (m := .INC) fun i hm hwf => ?forms⟩
  case effect =>
    have hexec : exec (.incR k) s = complete .advance (inPlace .incl r s) := by
      simp [exec, execIncR, hk]
    obtain ⟨t, ht, hadv, hr, hlop, hres, hflags, hdev, hframe⟩ := exec_inPlace hs hk hexec
    rw [aluResult_incl] at hr
    rw [aluFlags_incl, stepFlags_eq, ← hr] at hflags
    exact ⟨t, ht, hadv, by rw [hr, BitVec.toNat_add]; rfl, hlop, hres, hflags, hdev, hframe⟩
  case forms =>
    cases i with
    | incR k => exact ⟨k, regOperand_lt_of_wf hwf List.mem_cons_self, rfl⟩
    | _ => cases hm

/-- Settles O55: as INC, with the ALU's step down. -/
theorem decSubtractsOne : Obligations.DecSubtractsOne := by
  refine ⟨fun k x => encodedAs_of_modeFields rfl (modeFields_reg x) (Laws.Form.decR k),
    fun k r s hs hk => ?effect, rejectsOthers_of_forms (m := .DEC) fun i hm hwf => ?forms⟩
  case effect =>
    have hexec : exec (.decR k) s = complete .advance (inPlace .decl r s) := by
      simp [exec, execDecR, hk]
    obtain ⟨t, ht, hadv, hr, hlop, hres, hflags, hdev, hframe⟩ := exec_inPlace hs hk hexec
    rw [aluResult_decl] at hr
    rw [aluFlags_decl, ← hr] at hflags
    exact ⟨t, ht, hadv, by rw [hr]; bv_omega, hlop, hres, hflags, hdev, hframe⟩
  case forms =>
    cases i with
    | decR k => exact ⟨k, regOperand_lt_of_wf hwf List.mem_cons_self, rfl⟩
    | _ => cases hm

end Sys2Proof.Machine
end

section
/-! PROOFS. LD and ST (44_ldst_io.md R160, R161). -/

namespace Sys2Proof.Machine

/-! ## The operands and the state -/

/-- The fields of a mode byte for two registers. -/
theorem modeFields_regReg (x : BitVec 2) : modeFields (0b111100#6 ++ x) = [0b11, 0b11, 0#2, x] := by
  revert x; decide

/-- No operand names a register of the memory interface (10_state.md R12). -/
theorem ne_mar_mdr_of_named {k : Byte} {r : RegName} (h : xreg? k = some r) : r ≠ .mar ∧ r ≠ .mdr := by
  rcases xreg?_some h with ⟨-, rfl⟩ | ⟨-, rfl⟩ | ⟨-, rfl⟩ | ⟨-, rfl⟩ <;> decide

theorem regOperands_lt_of_wf {i : Instr} (hwf : i.wf = true) {a k : Byte} (hregs : i.regOperands = [a, k]) :
    a.toNat < 4 ∧ k.toNat < 4 :=
  ⟨regOperand_lt_of_wf hwf (by simp [hregs]), regOperand_lt_of_wf hwf (by simp [hregs])⟩

theorem memWf_of_wf {s : State} (h : s.wf = true) : Memory.wf s.mem = true := by
  simp only [State.wf, Bool.and_eq_true] at h
  exact h.1.1.2

/-! ## The obligations -/

/-- Settles O56: what the registers hold after the micro-sequence, in which the address reaches MAR before the data
register is loaded, so that the two may be one. -/
theorem ldLoadsFromTheNamedCell : Obligations.LdLoadsFromTheNamedCell := by
  refine ⟨fun a k x => encodedAs_of_modeFields rfl (modeFields_regReg x) (Laws.Form.ldRR a k),
    fun a k ra rt s hs ha hk => ?effect, rejectsOthers_of_forms (m := .LD) fun i hm hwf => ?forms⟩
  case effect =>
    have hidle := busIdle_of_wf hs
    obtain ⟨hmar, hmdr⟩ := ne_mar_mdr_of_named hk
    have hexec : exec (.ldRR a k) s = complete .advance (loadVia ra rt s) := by
      simp [exec, execLdRR, ha, hk]
    have hothers : ∀ q, q ∉ [.mar, .mdr, rt] → (loadVia ra rt s).val q = s.val q := fun q hq => by
      simp only [List.mem_cons, List.not_mem_nil, or_false, not_or] at hq
      simp [hidle, hq]
    obtain ⟨t, ht, hadv, hval, -, hflags, hcur, hlog, hframe⟩ := exec_advance (cells := []) hs hexec
      (.ofLoadVia ra rt s) hothers (fun b _ => by simp)
    refine ⟨t, ht, hadv, ?_, ?_, ?_, ?_, ⟨?_, ?_⟩, hframe⟩
    all_goals simp [hval, hflags, hcur, hlog, hidle, hmar.symm, hmdr.symm]
  case forms =>
    cases i with
    | ldRR a k =>
      obtain ⟨ha, hk⟩ := regOperands_lt_of_wf hwf rfl
      exact ⟨a, k, ha, hk, rfl⟩
    | _ => cases hm

/-- Settles O57: what registers and cells hold after the micro-sequence; the data register is not MAR, so MDR gets its
value from before the address went there. -/
theorem stStoresToTheNamedCell : Obligations.StStoresToTheNamedCell := by
  refine ⟨fun a k x => encodedAs_of_modeFields rfl (modeFields_regReg x) (Laws.Form.stRR a k),
    fun a k ra rt s hs ha hk => ?effect, rejectsOthers_of_forms (m := .ST) fun i hm hwf => ?forms⟩
  case effect =>
    have hidle := busIdle_of_wf hs
    have hmem := memWf_of_wf hs
    obtain ⟨hmar, -⟩ := ne_mar_mdr_of_named hk
    have hexec : exec (.stRR a k) s = complete .advance (storeVia ra rt s) := by
      simp [exec, execStRR, ha, hk]
    have hothers : ∀ q, q ∉ [.mar, .mdr] → (storeVia ra rt s).val q = s.val q := fun q hq => by
      simp only [List.mem_cons, List.not_mem_nil, or_false, not_or] at hq
      simp [hidle, hmar, hq]
    have hcells : ∀ b, b ∉ [s.val ra] → (storeVia ra rt s).cell b = s.cell b := fun b hb => by
      simp [hidle, hmem, hmar, List.mem_singleton.not.1 hb]
    obtain ⟨t, ht, hadv, hval, hcell, hflags, hcur, hlog, hframe⟩ := exec_advance hs hexec
      (.ofStoreVia ra rt s) hothers hcells
    refine ⟨t, ht, hadv, ?_, ?_, ?_, ?_, ⟨?_, ?_⟩, hframe⟩
    all_goals simp [hval, hcell, hflags, hcur, hlog, hidle, hmem, hmar]
  case forms =>
    cases i with
    | stRR a k =>
      obtain ⟨ha, hk⟩ := regOperands_lt_of_wf hwf rfl
      exact ⟨a, k, ha, hk, rfl⟩
    | _ => cases hm

end Sys2Proof.Machine
end

section
/-! PROOFS. The jumps JE, JNE, JAE and JMP, and the fetch behind a jump (45_jumps.md R171 to R174;
41_control_unit.md R110, R111). -/

namespace Sys2Proof.Machine

/-! ## The mode byte -/

/-- The fields of a mode byte for an immediate alone. -/
theorem modeFields_imm (x : BitVec 4) :
    modeFields (0b1000#4 ++ x) = [0b10, 0#2, x.extractLsb' 2 2, x.extractLsb' 0 2] := by
  revert x; decide

/-! ## A conditional jump -/

/-- An instruction that is nothing but a conditional jump goes to its target or to the address after its own, as the
condition says, and leaves the datapath alone. -/
theorem exec_jumpIf {i : Instr} {taken : Bool} {target : Byte} {s : State}
    (h : exec i s = complete (jumpIf taken target) s) :
    ∃ t, exec i s = .next t ∧ SameDatapath s t ∧ (taken = true → JumpedTo target s t) ∧
      (taken = false → Advanced s t) := by
  refine ⟨_, h, sameDatapath_of_complete rfl, ?jump, ?advance⟩
  case jump =>
    rintro rfl
    exact ⟨rfl, rfl, rfl⟩
  case advance =>
    rintro rfl
    exact advanced_of_complete (.refl s) rfl

/-- Settles O38: each of the three is a conditional jump on one flag, read as it is by JE and negated by JNE and JAE. -/
theorem conditionalJumps : Obligations.ConditionalJumps := by
  refine fun target x => ⟨encodedAs_of_modeFields rfl (modeFields_imm x) (Laws.Form.jeI target),
    encodedAs_of_modeFields rfl (modeFields_imm x) (Laws.Form.jneI target),
    encodedAs_of_modeFields rfl (modeFields_imm x) (Laws.Form.jaeI target), fun s => ⟨exec_jumpIf rfl, ?jne, ?jae⟩⟩
  case jne =>
    have hjne : exec (.jneI target) s = complete (jumpIf (!s.flags.z) target) s := rfl
    simpa only [Bool.not_eq_true', Bool.not_eq_false'] using exec_jumpIf hjne
  case jae =>
    have hjae : exec (.jaeI target) s = complete (jumpIf (!s.flags.n) target) s := rfl
    simpa only [Bool.not_eq_true', Bool.not_eq_false'] using exec_jumpIf hjae

/-! ## The fetch behind a jump -/

theorem fetch_eq_none_iff (s : State) : fetch s = none ↔ ∀ c ∈ s.prog, c.address ≠ s.pc := by
  simp [fetch]

/-- A running core whose program has no instruction at `pc` raises MissingInstruction (41_control_unit.md R111). -/
theorem step_of_fetch_none {s : State} (hrun : s.run = .running) (hfetch : fetch s = none) :
    step s = .next { s with run := .faulted (.malformedProgram (.missingInstruction s.pc)) } := by
  simp [step, hrun, hfetch, raiseMissing, raise, setRun]

/-- A jump does not look at its target: the program is as before and `pc` is the target, so the next fetch finds nothing
there. -/
theorem step_of_jumpedTo_missing {target : Byte} {s t : State} (hsame : SameDatapath s t) (hjump : JumpedTo target s t)
    (hrun : s.run = .running) (hmissing : ∀ c ∈ s.prog, c.address ≠ target) :
    step t = .next { t with run := .faulted (.malformedProgram (.missingInstruction target)) } := by
  obtain ⟨-, -, -, -, hprog, -⟩ := hsame
  obtain ⟨-, rfl, htrun⟩ := hjump
  exact step_of_fetch_none (htrun.trans hrun) ((fetch_eq_none_iff t).2 (hprog ▸ hmissing))

/-- Settles O39: JMP is the end of an instruction that jumps, and nothing before it; the fetch behind it is that of any
jump. -/
theorem unconditionalJump : Obligations.UnconditionalJump := by
  refine fun target x => ⟨encodedAs_of_modeFields rfl (modeFields_imm x) (Laws.Form.jmpI target), fun s => ?_⟩
  have hsame : SameDatapath s (transferControl (.jumpTo target) (countStep s)) := sameDatapath_of_complete rfl
  have hjump : JumpedTo target s (transferControl (.jumpTo target) (countStep s)) := ⟨rfl, rfl, rfl⟩
  exact ⟨_, rfl, hsame, hjump, step_of_jumpedTo_missing hsame hjump⟩

end Sys2Proof.Machine
end

section
/-! PROOFS. A good load: the program under its addresses (70_reset_and_hazards.md R203). -/

namespace Sys2Proof.Machine

/-! ## Fetching from a program in order -/

/-- With rising addresses every Command is the one fetched at its address: those before it in file order have smaller
ones. -/
theorem fetch_eq_some_of_ordered {s : State} {d : Command}
    (hrise : s.prog.Pairwise (fun x y => x.address < y.address)) (hd : d ∈ s.prog) (hpc : s.pc = d.address) :
    fetch s = some d := by
  obtain ⟨before, after, hsplit⟩ := List.append_of_mem hd
  have hbefore : ∀ c ∈ before, c.address < d.address := fun c hc =>
    (List.pairwise_append.1 (hsplit ▸ hrise)).2.2 c hc d List.mem_cons_self
  refine List.find?_eq_some_iff_append.2 ⟨beq_iff_eq.2 hpc.symm, before, after, hsplit, fun c hc => ?_⟩
  have hne : c.address ≠ s.pc := hpc ▸ BitVec.ne_of_lt (hbefore c hc)
  simpa using hne

/-! ## A good load -/

/-- A stream with rising addresses and an image that fits start the core (70_reset_and_hazards.md R200, R203). -/
theorem construct_eq_start {stream image : List Byte} {input : List Nat} {c : Command} {cmds : List Command}
    (hdecode : decodeProgram stream = .ok (c :: cmds))
    (hrise : (c :: cmds).Pairwise (fun x y => x.address < y.address)) (himage : image.length ≤ 256) :
    construct stream image input = start (c :: cmds) image input :=
  (construct_of_ordered hdecode ((programOrdered_iff _).2 hrise)).trans (if_neg (Nat.not_lt.2 himage))

/-- Settles O7: a good load is a start, whose program is the decoded one; in it each Command is fetched at its address. -/
theorem programIsLoadedUnderItsAddresses : Obligations.ProgramIsLoadedUnderItsAddresses := by
  intro stream image input c cmds hdecode hrise himage
  obtain ⟨hprog, hpc, -⟩ := start_keeps (c :: cmds) image input
  rw [construct_eq_start hdecode hrise himage]
  refine ⟨fun d hd => ?fetched, ?order, hpc⟩
  case fetched => exact fetch_eq_some_of_ordered (hprog.symm ▸ hrise) (hprog.symm ▸ hd) rfl
  case order => rw [State.order, hprog]

end Sys2Proof.Machine
end

section
/-! PROOFS. The codec: what is encoded is read back, what is read gives its bytes back, and where a stream breaks off
(30_encoding.md R61 to R65, R68 to R70; 41_control_unit.md R112, R113). -/

namespace Sys2Proof.Machine

/-! ## The fields of a mode byte -/

theorem modeFields_append (a b c d : BitVec 2) : modeFields (a ++ b ++ c ++ d) = [a, b, c, d] := by
  revert a b c d; decide

theorem modeFields_injective {m m' : Byte} (h : modeFields m = modeFields m') : m = m' := by
  have hbytes : ∀ x : Byte, x.extractLsb' 6 2 ++ x.extractLsb' 4 2 ++ x.extractLsb' 2 2 ++ x.extractLsb' 0 2 = x := by
    decide
  simp only [modeFields, List.cons.injEq, and_true] at h
  obtain ⟨h0, h1, h2, h3⟩ := h
  rw [← hbytes m, ← hbytes m', h0, h1, h2, h3]

/-- The encoder puts the operands' codes first and `00` in the fields past the last operand (30_encoding.md R65). -/
theorem modeFields_modeByte {ops : List Operand} (h : ops.length ≤ 4) :
    modeFields (modeByte ops) = ops.map (fun o => modeCode o.mode) ++ List.replicate (4 - ops.length) 0#2 := by
  match ops, h with
  | [], _ => exact modeFields_append ..
  | [_], _ => exact modeFields_append ..
  | [_, _], _ => exact modeFields_append ..
  | [_, _, _], _ => exact modeFields_append ..
  | [_, _, _, _], _ => exact modeFields_append ..

/-- Field `f` of a mode byte, as the number 30_encoding.md R62 gives. -/
theorem toNat_modeFields (m : Byte) {f : Nat} (h : f < (modeFields m).length) :
    ((modeFields m)[f]).toNat = m.toNat / 4 ^ (3 - f) % 4 := by
  have hf : f < 4 := h
  interval_cases f <;> simp [modeFields, Nat.shiftRight_eq_div_pow]

theorem modeFields_eq_zero_iff (m : Byte) {f : Nat} (h : f < (modeFields m).length) :
    (modeFields m)[f] = 0#2 ↔ m.toNat / 4 ^ (3 - f) % 4 = 0 := by
  rw [← toNat_modeFields m h, ← BitVec.toNat_inj]
  rfl

theorem modeOf_eq_none_iff (code : BitVec 2) : modeOf code = none ↔ code = 0#2 := by
  revert code; decide

theorem modeCode_of_modeOf {code : BitVec 2} {m : Mode} (h : modeOf code = some m) : modeCode m = code := by
  revert code m; decide

theorem modeCode_ne_zero (m : Mode) : modeCode m ≠ 0#2 := by
  cases m <;> decide

theorem toNat_modeCode (m : Mode) : (modeCode m).toNat = modeNumber m := by
  cases m <;> rfl

/-! ## Reading operands -/

/-- Operands are read for the fields that carry their codes; what stands behind is read on. -/
theorem readOperands_codes {tail : List (BitVec 2)} {rest : List Byte}
    (htail : ∀ offset, readOperands tail offset rest = .ok ([], rest)) : ∀ (ops : List Operand) (offset : Nat),
    readOperands (ops.map (fun o => modeCode o.mode) ++ tail) offset (ops.map (·.value) ++ rest) = .ok (ops, rest)
  | [], offset => htail offset
  | o :: ops, offset => by
    simp [readOperands, modeOf_modeCode, readOperands_codes htail ops (offset + 1)]

theorem readOperands_zeros (n offset : Nat) (bytes : List Byte) :
    readOperands (List.replicate n 0#2) offset bytes = .ok ([], bytes) := by
  cases n <;> rfl

/-- Where the bytes break off among the operands, the fault names the offset behind the last one
(30_encoding.md R64). -/
theorem readOperands_take (tail : List (BitVec 2)) : ∀ (ops : List Operand) (offset j : Nat), j < ops.length →
    readOperands (ops.map (fun o => modeCode o.mode) ++ tail) offset ((ops.map (·.value)).take j) =
      .error (.truncatedRecord (offset + j))
  | o :: ops, offset, 0, _ => by simp [readOperands, modeOf_modeCode]
  | o :: ops, offset, j + 1, h => by
    have ih := readOperands_take tail ops (offset + 1) j (Nat.lt_of_succ_lt_succ h)
    simp [readOperands, modeOf_modeCode, ih, Nat.add_assoc, Nat.add_comm 1 j]

/-- Fields behind the first `00` field are not looked at (30_encoding.md R62). -/
theorem readOperands_takeWhile : ∀ (fields : List (BitVec 2)) (offset : Nat) (bytes : List Byte),
    readOperands (fields.takeWhile (· ≠ 0#2)) offset bytes = readOperands fields offset bytes
  | [], _, _ => rfl
  | field :: fields, offset, bytes => by
    cases hmode : modeOf field with
    | none => simp [readOperands, (modeOf_eq_none_iff field).1 hmode, modeOf]
    | some mode =>
      have hne : field ≠ 0#2 := fun h0 => by simp [(modeOf_eq_none_iff field).2 h0] at hmode
      cases bytes with
      | nil => simp [readOperands, hmode, hne]
      | cons value rest => simp [readOperands, hmode, hne, ← readOperands_takeWhile fields (offset + 1) rest]

/-- Operands that were read account for the fields up to the first `00` field and for the bytes taken
(30_encoding.md R64). -/
theorem of_readOperands_ok : ∀ {fields : List (BitVec 2)} {offset : Nat} {bytes rest : List Byte} {ops : List Operand},
    readOperands fields offset bytes = .ok (ops, rest) →
      ops.map (fun o => modeCode o.mode) = fields.takeWhile (· ≠ 0#2) ∧ ops.map (·.value) ++ rest = bytes
  | [], _, _, _, _, h => by
    cases h; exact ⟨rfl, rfl⟩
  | field :: fields, offset, bytes, rest, ops, h => by
    cases hmode : modeOf field with
    | none =>
      simp only [readOperands, hmode, Except.ok.injEq, Prod.mk.injEq] at h
      obtain ⟨rfl, rfl⟩ := h
      simp [(modeOf_eq_none_iff field).1 hmode]
    | some mode =>
      cases bytes with
      | nil => simp [readOperands, hmode] at h
      | cons value bytes =>
        cases hread : readOperands fields (offset + 1) bytes with
        | error e => simp [readOperands, hmode, hread] at h
        | ok result =>
          obtain ⟨hcodes, hvalues⟩ := of_readOperands_ok hread
          simp only [readOperands, hmode, hread, Except.ok.injEq, Prod.mk.injEq] at h
          obtain ⟨rfl, rfl⟩ := h
          have hcode := modeCode_of_modeOf hmode
          have hne : field ≠ 0#2 := hcode ▸ modeCode_ne_zero mode
          simp [hcode, hcodes, hvalues, hne]

/-! ## Reading records -/

theorem isBare_iff (opcode : Byte) : isBare opcode = true ↔ opcode = 0x00 ∨ opcode = 0x01 := by
  simp [isBare, opcodeOf]

theorem encodeCommand_bare {c : Command} (h : isBare c.opcode = true) : encodeCommand c = [c.address, c.opcode] := by
  simp [encodeCommand, h]

theorem encodeCommand_full {c : Command} (h : isBare c.opcode = false) :
    encodeCommand c = c.address :: c.opcode :: modeByte c.operands :: c.operands.map (·.value) := by
  simp [encodeCommand, h]

theorem encodeCommand_ne_nil (c : Command) : encodeCommand c ≠ [] := by
  cases h : isBare c.opcode <;> simp [encodeCommand, h]

theorem readRecord_full {opcode : Byte} (h : isBare opcode = false) (offset : Nat) (address modes : Byte)
    (bytes : List Byte) :
    readRecord offset (address :: opcode :: modes :: bytes) =
      (readOperands (modeFields modes) (offset + 3) bytes).map fun x => (⟨opcode, x.1, address⟩, x.2) := by
  simp only [readRecord, h, Bool.false_eq_true, if_false]
  cases readOperands (modeFields modes) (offset + 3) bytes <;> rfl

theorem encodable_iff (c : Command) :
    c.encodable = true ↔ c.operands.length ≤ 4 ∧ (isBare c.opcode = true → c.operands = []) := by
  cases h : isBare c.opcode <;> simp [Command.encodable, h]

/-- What the encoder wrote is read back, wherever it stands and whatever follows (30_encoding.md R65). -/
theorem readRecord_encodeCommand {c : Command} (h : c.encodable = true) (offset : Nat) (rest : List Byte) :
    readRecord offset (encodeCommand c ++ rest) = .ok (c, rest) := by
  obtain ⟨hlen, hops⟩ := (encodable_iff c).1 h
  cases hbare : isBare c.opcode with
  | true =>
    rw [encodeCommand_bare hbare, List.cons_append, List.cons_append, List.nil_append, readRecord_bare hbare,
      ← hops hbare]
  | false =>
    rw [encodeCommand_full hbare, List.cons_append, List.cons_append, List.cons_append, readRecord_full hbare,
      modeFields_modeByte hlen, readOperands_codes fun o => readOperands_zeros _ o rest]
    rfl

/-- A record that breaks off is reported at its lone address byte, or else where the bytes end (30_encoding.md R64). -/
theorem readRecord_take_encodeCommand {c : Command} (h : c.encodable = true) (offset : Nat) {k : Nat} (hk : 0 < k)
    (hlt : k < (encodeCommand c).length) :
    readRecord offset ((encodeCommand c).take k) = .error (.truncatedRecord (offset + if k = 1 then 0 else k)) := by
  obtain ⟨hlen, -⟩ := (encodable_iff c).1 h
  cases hbare : isBare c.opcode with
  | true =>
    rw [encodeCommand_bare hbare] at hlt ⊢
    obtain rfl : k = 1 := by simp only [List.length_cons, List.length_nil] at hlt; omega
    rfl
  | false =>
    rw [encodeCommand_full hbare] at hlt ⊢
    match k, hk with
    | 1, _ => rfl
    | 2, _ => simp [readRecord, hbare]
    | j + 3, _ =>
      have hj : j < c.operands.length := by simpa using hlt
      simp only [List.take_succ_cons, readRecord_full hbare, modeFields_modeByte hlen, readOperands_take _ _ _ j hj]
      simp [Except.map, Nat.add_assoc, Nat.add_comm 3 j]

/-! ## Reading streams -/

theorem decodeFrom_cons {total fuel : Nat} {bytes rest : List Byte} {c : Command} (hne : bytes ≠ [])
    (h : readRecord (total - bytes.length) bytes = .ok (c, rest)) :
    decodeFrom total (fuel + 1) bytes = (decodeFrom total fuel rest).map (c :: ·) := by
  cases bytes with
  | nil => exact absurd rfl hne
  | cons b bytes =>
    simp only [decodeFrom, h]
    cases decodeFrom total fuel rest <;> rfl

theorem decodeFrom_error {total fuel : Nat} {bytes : List Byte} {e : MalformedCause} (hne : bytes ≠ [])
    (h : readRecord (total - bytes.length) bytes = .error e) : decodeFrom total (fuel + 1) bytes = .error e := by
  cases bytes with
  | nil => exact absurd rfl hne
  | cons b bytes => simp only [decodeFrom, h]

/-- Encoded Commands at the front of a stream are decoded one after the other; then the rest of it decides. -/
theorem decodeFrom_encoded (total fuel : Nat) (tail : List Byte) : ∀ cmds : List Command,
    (∀ c ∈ cmds, c.encodable = true) →
    decodeFrom total (fuel + cmds.length) (cmds.flatMap encodeCommand ++ tail) =
      (decodeFrom total fuel tail).map (cmds ++ ·)
  | [], _ => by
    cases h : decodeFrom total fuel tail <;> simp [h, Except.map]
  | c :: cmds, h => by
    have hne : encodeCommand c ++ (cmds.flatMap encodeCommand ++ tail) ≠ [] :=
      List.append_ne_nil_of_left_ne_nil (encodeCommand_ne_nil c) _
    rw [List.flatMap_cons, List.append_assoc, List.length_cons, ← Nat.add_assoc,
      decodeFrom_cons hne (readRecord_encodeCommand (h c List.mem_cons_self) _ _),
      decodeFrom_encoded total fuel tail cmds fun d hd => h d (List.mem_cons_of_mem _ hd)]
    cases decodeFrom total fuel tail <;> rfl

theorem length_le_length_flatMap_encodeCommand : ∀ cmds : List Command,
    cmds.length ≤ (cmds.flatMap encodeCommand).length
  | [] => Nat.le_refl 0
  | c :: cmds => by
    have ih := length_le_length_flatMap_encodeCommand cmds
    have hc : 0 < (encodeCommand c).length := List.length_pos_of_ne_nil (encodeCommand_ne_nil c)
    simp only [List.length_cons, List.flatMap_cons, List.length_append]
    omega

theorem decodeProgram_encoded {cmds : List Command} (h : ∀ c ∈ cmds, c.encodable = true) :
    decodeProgram (cmds.flatMap encodeCommand) = .ok cmds := by
  have hdecode := decodeFrom_encoded (cmds.flatMap encodeCommand).length
    ((cmds.flatMap encodeCommand).length - cmds.length) [] cmds h
  rw [Nat.sub_add_cancel (length_le_length_flatMap_encodeCommand cmds), List.append_nil] at hdecode
  simpa [decodeProgram, decodeFrom, Except.map] using hdecode

/-! ## Ignored fields -/

/-- A list is its part before the first `00` and zeros exactly when only zeros follow a zero. -/
theorem takeWhile_append_zeros_iff : ∀ l : List (BitVec 2),
    l.takeWhile (· ≠ 0#2) ++ List.replicate (l.length - (l.takeWhile (· ≠ 0#2)).length) 0#2 = l ↔
      l.Pairwise (fun x y => x = 0#2 → y = 0#2)
  | [] => by simp
  | x :: l => by
    have ih := takeWhile_append_zeros_iff l
    by_cases hx : x = 0#2
    · have hzeros : (∀ y ∈ l, y = 0#2) → l.Pairwise (fun x y => x = 0#2 → y = 0#2) := fun h =>
        List.pairwise_of_forall_mem_list fun _ _ y hy _ => h y hy
      simpa [hx, List.replicate_succ, List.pairwise_cons, eq_comm (b := l), List.eq_replicate_iff] using hzeros
    · simpa [hx, List.pairwise_cons] using ih

theorem ignoredFieldsZero_iff (m : Byte) :
    ignoredFieldsZero m ↔ (modeFields m).Pairwise (fun x y => x = 0#2 → y = 0#2) := by
  rw [List.pairwise_iff_getElem]
  simp only [modeFields_eq_zero_iff]
  exact ⟨fun h f g _ hg hfg => h f g hfg hg, fun h f g hfg hg => h f g (hfg.trans hg) hg hfg⟩

/-- Encoding operands that were read under a mode byte gives that byte back exactly when its ignored fields are `00`
(30_encoding.md R65). -/
theorem modeByte_eq_iff {ops : List Operand} {modes : Byte}
    (hcodes : ops.map (fun o => modeCode o.mode) = (modeFields modes).takeWhile (· ≠ 0#2)) :
    modeByte ops = modes ↔ ignoredFieldsZero modes := by
  have hlength : ops.length = ((modeFields modes).takeWhile (· ≠ 0#2)).length := by
    simpa using congrArg List.length hcodes
  have hle : ops.length ≤ 4 := hlength ▸ (List.takeWhile_prefix _).length_le
  rw [ignoredFieldsZero_iff, ← takeWhile_append_zeros_iff, ← hcodes, List.length_map]
  calc modeByte ops = modes ↔ modeFields (modeByte ops) = modeFields modes := ⟨congrArg _, modeFields_injective⟩
    _ ↔ _ := by rw [modeFields_modeByte hle]; rfl

/-- Two lists that agree up to and including the first zero have the same part before it. -/
theorem takeWhile_eq_of_agree : ∀ {l l' : List (BitVec 2)}, l.length = l'.length →
    (∀ (f : Nat) (h : f < l.length) (h' : f < l'.length), (∀ (g : Nat) (hg : g < f), l[g]'(hg.trans h) ≠ 0#2) →
      l[f] = l'[f]) →
    l.takeWhile (· ≠ 0#2) = l'.takeWhile (· ≠ 0#2)
  | [], [], _, _ => rfl
  | x :: l, y :: l', hlen, hagree => by
    obtain rfl : x = y := hagree 0 (by simp) (by simp) (by simp)
    by_cases hx : x = 0#2
    · simp [hx]
    · have ih := takeWhile_eq_of_agree (l := l) (l' := l') (by simpa using hlen) fun f h h' hg =>
        hagree (f + 1) (Nat.succ_lt_succ h) (Nat.succ_lt_succ h') fun g hgf => by
          cases g with
          | zero => exact hx
          | succ g => exact hg g (Nat.lt_of_succ_lt_succ hgf)
      simpa [hx] using ih

theorem takeWhile_modeFields_of_sameModes {m m' : Byte} (h : sameModes m m') :
    (modeFields m).takeWhile (· ≠ 0#2) = (modeFields m').takeWhile (· ≠ 0#2) := by
  refine takeWhile_eq_of_agree rfl fun f hf hf' hg => BitVec.eq_of_toNat_eq ?_
  rw [toNat_modeFields m hf, toNat_modeFields m' hf']
  exact h f hf fun g hgf => (modeFields_eq_zero_iff m (hgf.trans hf)).not.1 (hg g hgf)

/-! ## The obligations -/

/-- Settles O1: the layout is the encoder's two equations, the round trip of a list is the round trip of a record
repeated, and the converse compares the mode byte field by field. -/
theorem codecRoundTrip : Obligations.CodecRoundTrip := by
  refine ⟨fun c hc => ⟨fun hbare => ?bare, fun hfull => ?full⟩, fun cmds h => decodeProgram_encoded h,
    fun offset bytes rest c hread => ?converse⟩
  case bare =>
    have hb := (isBare_iff _).2 hbare
    exact ⟨((encodable_iff c).1 hc).2 hb, encodeCommand_bare hb⟩
  case full =>
    have hb : isBare c.opcode = false := Bool.eq_false_iff.2 ((isBare_iff _).not.2 hfull)
    have hlen := ((encodable_iff c).1 hc).1
    refine ⟨_, encodeCommand_full hb, fun f hf => ?_⟩
    rw [← toNat_modeFields (modeByte c.operands) hf]
    simp only [modeFields_modeByte hlen, List.getElem_append, List.length_map, List.getElem_map,
      List.getElem_replicate]
    by_cases hop : f < c.operands.length
    · simp [hop, toNat_modeCode]
    · simp [hop]
  case converse =>
    match bytes, hread with
    | address :: opcode :: bytes, hread =>
      cases hb : isBare opcode with
      | true =>
        rw [readRecord_bare hb] at hread
        cases hread
        exact iff_of_true (by rw [encodeCommand_bare hb]; rfl) (.inl ((isBare_iff _).1 hb))
      | false =>
        match bytes, hread with
        | [], hread => simp [readRecord, hb] at hread
        | modes :: bytes, hread =>
          rw [readRecord_full hb] at hread
          cases hops : readOperands (modeFields modes) (offset + 3) bytes with
          | error e => simp [hops, Except.map] at hread
          | ok x =>
            rw [hops] at hread
            cases hread
            obtain ⟨hcodes, hvalues⟩ := of_readOperands_ok hops
            rw [encodeCommand_full hb, ← isBare_iff, hb]
            simp [hvalues, modeByte_eq_iff hcodes]

theorem form_statement (i : Instr) : Laws.Form.Statement i := by
  cases i <;> exact fun _ => ⟨rfl, rfl⟩

/-- Settles O2: an instruction's Command can be encoded, so its record is read back, and dispatch gives the instruction
back. -/
theorem instructionRoundTrip : Obligations.InstructionRoundTrip := by
  intro i offset address rest
  obtain ⟨hencodable, hclassify⟩ := form_statement i address
  exact ⟨readRecord_encodeCommand hencodable offset rest, rfl, hclassify⟩

/-- Settles O5: the whole records are decoded first, with fuel to spare for the broken one. -/
theorem truncatedStreamIsRejected : Obligations.TruncatedStreamIsRejected := by
  intro cmds c k hcmds hc hk hlt
  have hlength : ((encodeCommand c).take k).length = k := List.length_take_of_le hlt.le
  have hfuel := length_le_length_flatMap_encodeCommand cmds
  have hbroken := readRecord_take_encodeCommand hc (cmds.flatMap encodeCommand).length hk hlt
  obtain ⟨fuel, hsplit⟩ : ∃ fuel, (cmds.flatMap encodeCommand).length + k = fuel + 1 + cmds.length :=
    ⟨(cmds.flatMap encodeCommand).length + k - 1 - cmds.length, by omega⟩
  have hne : (encodeCommand c).take k ≠ [] := List.ne_nil_of_length_pos (hlength.symm ▸ hk)
  rw [decodeProgram, List.length_append, hlength, hsplit, decodeFrom_encoded _ _ _ _ hcmds,
    decodeFrom_error hne (by rwa [hlength, ← hsplit, Nat.add_sub_cancel])]
  rfl

/-- Settles O6: the operands are read from the fields before the first `00`, in which the two mode bytes agree. -/
theorem fieldsAfterNoneAreIgnored : Obligations.FieldsAfterNoneAreIgnored := by
  intro offset address opcode m m' rest hsame
  cases hb : isBare opcode with
  | true => rw [readRecord_bare hb, if_pos ((isBare_iff opcode).1 hb)]
  | false =>
    rw [if_neg ((isBare_iff opcode).not.1 (Bool.eq_false_iff.1 hb)), readRecord_full hb, readRecord_full hb,
      ← readOperands_takeWhile, takeWhile_modeFields_of_sameModes hsame, readOperands_takeWhile]

/-! ## Dispatch -/

theorem mnemonicOf_eq_none_iff (opcode : Byte) : mnemonicOf opcode = none ↔ 0x14 ≤ opcode.toNat := by
  revert opcode; decide

theorem opcodeOf_of_mnemonicOf {opcode : Byte} {m : Mnemonic} (h : mnemonicOf opcode = some m) :
    opcodeOf m = opcode := by
  simpa using List.find?_some h

/-- Dispatch inverts the placing of an instruction: it answers one exactly for that one's own Command
(41_control_unit.md R112, R113). -/
theorem classify_eq_ok_iff {c : Command} {i : Instr} : classify c = .ok i ↔ c = i.toCommand c.address := by
  refine ⟨fun h => ?_, fun h => h ▸ (form_statement i c.address).2⟩
  cases hm : mnemonicOf c.opcode with
  | none => simp [classify, hm] at h
  | some m =>
    cases hform : formOf m c.operands with
    | none => simp [classify, hm, hform] at h
    | some j =>
      obtain rfl : j = i := by simpa [classify, hm, hform] using h
      obtain ⟨rfl, hops⟩ := formOf_some hform
      rw [Instr.toCommand, opcodeOf_of_mnemonicOf hm, hops]

theorem classify_eq_unknownOpcode {c : Command} (h : 0x14 ≤ c.opcode.toNat) : classify c = .error .unknownOpcode := by
  simp [classify, (mnemonicOf_eq_none_iff c.opcode).2 h]

theorem classify_eq_unsupportedOperand {c : Command} (hop : c.opcode.toNat < 0x14)
    (hno : ∀ i : Instr, c ≠ i.toCommand c.address) : classify c = .error .unsupportedOperand := by
  cases hm : mnemonicOf c.opcode with
  | none => exact absurd ((mnemonicOf_eq_none_iff c.opcode).1 hm) (Nat.not_le.2 hop)
  | some m =>
    cases hform : formOf m c.operands with
    | none => simp [classify, hm, hform]
    | some i => exact absurd (classify_eq_ok_iff.1 (by simp [classify, hm, hform])) (hno i)

theorem runCommand_of_ok {c : Command} {i : Instr} (h : classify c = .ok i) (s : State) :
    runCommand c s = exec i s := by
  simp [runCommand, h]

theorem runCommand_of_unknownOpcode {c : Command} (h : classify c = .error .unknownOpcode) (s : State) :
    runCommand c s = .next { s with run := .faulted (.unknownOpcode s.pc c.opcode) } := by
  simp [runCommand, h, raiseReject, raiseUnknown, raise, setRun]

theorem runCommand_of_unsupportedOperand {c : Command} (h : classify c = .error .unsupportedOperand) (s : State) :
    runCommand c s = .next { s with run := .faulted (.unsupportedOperand s.pc c.opcode) } := by
  simp [runCommand, h, raiseReject, raiseUnsupported, raise, setRun]

/-- An instruction that fails the operand check changes `RUN` alone (41_control_unit.md R113). -/
theorem exec_of_not_wf {i : Instr} (h : i.wf = false) (s : State) :
    exec i s = .next { s with run := .faulted (.unsupportedOperand s.pc (opcodeOf i.mnemonic)) } := by
  rcases exec_cases i s with ⟨hwf, -⟩ | ⟨-, hexec⟩
  · simp [h] at hwf
  · exact hexec

/-- Settles O14: this is what the operand check does with an instruction that fails it. -/
theorem operandCheckComesBeforeAnyEffect : Obligations.OperandCheckComesBeforeAnyEffect :=
  fun _ s h => exec_of_not_wf h s

theorem opcode_toCommand_lt (i : Instr) (address : Byte) : (i.toCommand address).opcode.toNat < 0x14 := by
  rw [← Nat.not_le, ← mnemonicOf_eq_none_iff, Instr.toCommand, mnemonicOf_opcodeOf]
  simp

/-- Settles O3: by what dispatch answers, and where it answers an instruction, by that one's operand check. -/
theorem supportedFormsAreExactlyTheTable : Obligations.SupportedFormsAreExactlyTheTable := by
  intro c
  rcases Nat.lt_or_ge c.opcode.toNat 0x14 with hop | hop
  case inr =>
    have hclassify := classify_eq_unknownOpcode hop
    exact .inr (.inl ⟨hop, hclassify, runCommand_of_unknownOpcode hclassify⟩)
  case inl =>
    by_cases hform : ∃ i : Instr, c = i.toCommand c.address
    case neg =>
      have hno : ∀ i : Instr, c ≠ i.toCommand c.address := not_exists.1 hform
      have hclassify := classify_eq_unsupportedOperand hop hno
      exact .inr (.inr ⟨hop, fun i _ => hno i, fun _ => hclassify, runCommand_of_unsupportedOperand hclassify⟩)
    case pos =>
      obtain ⟨i, hi⟩ := hform
      have hclassify := classify_eq_ok_iff.2 hi
      cases hwf : i.wf with
      | true => exact .inl ⟨i, hwf, hi, hclassify, runCommand_of_ok hclassify⟩
      | false =>
        refine .inr (.inr ⟨hop, fun j hj hc => ?_, fun hno => absurd hi (hno i), fun s => ?_⟩)
        · have hsame : i = j := Except.ok.inj (hclassify.symm.trans (classify_eq_ok_iff.2 hc))
          simp [hsame, hj] at hwf
        · have hopcode : opcodeOf i.mnemonic = c.opcode := congrArg Command.opcode hi.symm
          rw [runCommand_of_ok hclassify, exec_of_not_wf hwf, hopcode]

/-- Settles O4: the fields of each mode byte are the codes of the operands, then `00`. -/
theorem wordsFromTheSpecDecode : Obligations.WordsFromTheSpecDecode :=
  ⟨encodedAs_bare rfl rfl Laws.Form.nop, encodedAs_bare rfl rfl Laws.Form.hlt,
    encodedAs_of_modeFields (ignored := [0]) rfl rfl (Laws.Form.movRI 2 0x2A),
    encodedAs_of_modeFields (ignored := [0]) rfl rfl (Laws.Form.mov4MM 0x20 0x10),
    encodedAs_of_modeFields (ignored := []) rfl rfl (Laws.Form.addMIM 0x30 0xC8 0x14),
    encodedAs_of_modeFields (ignored := []) rfl rfl (Laws.Form.subMIM 0x31 0x0A 0x30),
    encodedAs_of_modeFields (ignored := [0b01, 0b11]) rfl rfl (Laws.Form.incR 2),
    encodedAs_of_modeFields (ignored := [0b10]) rfl rfl (Laws.Form.stRR 2 3),
    encodedAs_of_modeFields (ignored := [0, 0]) rfl rfl (Laws.Form.outI 1),
    encodedAs_of_modeFields (ignored := [0, 0]) rfl rfl (Laws.Form.jaeI 0x0E)⟩

end Sys2Proof.Machine
end

section
/-! PROOFS. Reset, which is construction: good loads, bad loads and the reset state (70_reset_and_hazards.md R200 to
R206; 10_state.md R30). -/

namespace Sys2Proof.Machine

/-! ## A good load -/

/-- A word of the image is read at its address, and the image is read nowhere else. -/
theorem cell_start (cmds : List Command) (image : List Byte) (input : List Nat) (a : Byte) :
    (start cmds image input).cell a = image.getD a.toNat 0 := by
  have hread := get_imageFrom a.toNat image 0
  rw [Nat.zero_add] at hread
  simpa [State.cell] using hread

/-- A character is stored mod 256 (10_state.md R27). -/
theorem ofNat_mod_256 (ch : Nat) : BitVec.ofNat 8 (ch % 256) = BitVec.ofNat 8 ch :=
  BitVec.eq_of_toNat_eq (by simp)

/-- Settles O8: a good load is a start, whose fields are known; the source register is by the first character. -/
theorem resetValues : Obligations.ResetValues := by
  intro stream image input c cmds hdecode hrise himage
  obtain ⟨hprog, -, hrun, hicnt, hinbuf, hlog, -, hflags, hidle⟩ := start_keeps (c :: cmds) image input
  refine ⟨_, construct_eq_start hdecode hrise himage, hrun, hicnt, hlog, hinbuf, hprog,
    cell_start (c :: cmds) image input, fun r hr => start_registers _ _ _ hr, hflags, hidle, ?empty, ?first⟩
  case empty =>
    rintro rfl
    exact start_source_empty (c :: cmds) image
  case first =>
    rintro ch rest rfl
    obtain ⟨hval, hcur⟩ := start_source (c :: cmds) image ch rest
    exact ⟨hval.trans (ofNat_mod_256 ch).symm, hcur⟩

/-! ## A bad load -/

theorem run_loadFault (e : MalformedCause) (cmds : List Command) :
    (loadFault e cmds).run = .faulted (.malformedProgram e) := rfl

/-- Settles O9: each bad load is a load fault with its cause; a step of a faulted core is the model's stop. -/
theorem badLoadsNeverRun : Obligations.BadLoadsNeverRun := by
  intro stream image input
  refine ⟨fun e hdecode => ?undecodable, fun hdecode => ?empty, fun pre x y post hdecode hrise hyx => ?order,
    fun c cmds hdecode hrise himage => ?image, fun f hf => ?noStep⟩
  case undecodable => rw [construct_of_error hdecode, run_loadFault]
  case empty => rw [construct_of_check hdecode rfl, run_loadFault]
  case order =>
    have hcheck : checkProgram (pre ++ x :: y :: post) = some (.addressOrder y.address) := by
      cases hprog : pre ++ x :: y :: post with
      | nil => simp at hprog
      | cons c cmds => simp [checkProgram, ← hprog, orderViolation_first x y post hyx pre hrise]
    rw [construct_of_check hdecode hcheck, run_loadFault]
  case image =>
    have hload := construct_of_ordered (image := image) (input := input) hdecode ((programOrdered_iff _).2 hrise)
    rw [hload.trans (if_pos himage), run_loadFault]
  case noStep => simp [step, hf]

/-- Settles O10: nothing to decode is an empty program, and its load fault is the reset state by computation. -/
theorem resetIsTheEmptyConstruction : Obligations.ResetIsTheEmptyConstruction :=
  ⟨rfl, rfl, .inl ⟨rfl, rfl⟩, rfl, rfl, rfl⟩

/-! ## The invariant at construction -/

theorem wf_iff (s : State) :
    s.wf = true ↔
      s.busIdle = true ∧ Memory.wf s.mem = true ∧ programOrdered s.prog = true ∧ s.cur ≤ s.inbuf.length := by
  simp [State.wf, and_assoc]

theorem cur_start_le (cmds : List Command) (image : List Byte) (input : List Nat) :
    (start cmds image input).cur ≤ input.length := by
  cases input with
  | nil => exact Nat.le_refl 0
  | cons ch rest => exact Nat.succ_le_succ (Nat.zero_le _)

theorem wf_loadFault (e : MalformedCause) {cmds : List Command} (h : programOrdered cmds = true) :
    (loadFault e cmds).wf = true :=
  (wf_iff _).2 ⟨rfl, rfl, h, Nat.le_refl 0⟩

theorem wf_start {cmds : List Command} {image : List Byte} (input : List Nat) (h : programOrdered cmds = true)
    (himage : image.length ≤ 2 ^ Config.addrWidth) : (start cmds image input).wf = true := by
  obtain ⟨hprog, -, -, -, hinbuf, -, hmem, -, hidle⟩ := start_keeps cmds image input
  refine (wf_iff _).2 ⟨hidle, ?_, by rwa [hprog], by rw [hinbuf]; exact cur_start_le cmds image input⟩
  rw [hmem]
  exact wfFrom_imageFrom image 0 (by simpa using himage)

/-- Settles O11: each of the three things construction can do is well formed. -/
theorem constructionIsWellFormed : Obligations.ConstructionIsWellFormed := by
  intro stream image input
  rcases construct_cases stream image input with ⟨e, h⟩ | ⟨e, cmds, hord, h⟩ | ⟨c, cmds, hord, himage, h⟩
  · rw [h]; exact wf_loadFault e rfl
  · rw [h]; exact wf_loadFault e hord
  · rw [h]; exact wf_start input hord himage

end Sys2Proof.Machine
end

section
/-! PROOFS. The step: what it runs, what it raises and what it keeps; the end of an instruction; file order
(41_control_unit.md R110 to R116; 60_exceptions.md R186; 10_state.md R21). -/

namespace Sys2Proof.Machine

/-! ## What a step does -/

/-- A running core runs the Command it fetched (41_control_unit.md R110). -/
theorem step_of_fetch_some {s : State} {cmd : Command} (hrun : s.run = .running) (hfetch : fetch s = some cmd) :
    step s = runCommand cmd s := by
  simp [step, hrun, hfetch]

/-- Settles O12: the step runs the fetched Command, and that is its instruction. -/
theorem stepRunsTheDecodedInstruction : Obligations.StepRunsTheDecodedInstruction :=
  fun s _ _ hrun hfetch hclassify => (step_of_fetch_some hrun hfetch).trans (runCommand_of_ok hclassify s)

/-- Settles O13: one case for each thing that can be wrong, in the order of the step. -/
theorem stepRaisesTheFirstFault : Obligations.StepRaisesTheFirstFault := by
  intro s hrun
  refine ⟨fun hmissing => step_of_fetch_none hrun ((fetch_eq_none_iff s).2 hmissing), fun cmd hfetch hop => ?opcode,
    fun cmd hfetch hop hno => ?operands⟩
  case opcode =>
    rw [step_of_fetch_some hrun hfetch, runCommand_of_unknownOpcode (classify_eq_unknownOpcode hop)]
  case operands =>
    rw [step_of_fetch_some hrun hfetch, runCommand_of_unsupportedOperand (classify_eq_unsupportedOperand hop hno)]

/-- An instruction always answers a next state. -/
theorem exec_next (i : Instr) (s : State) : ∃ t, exec i s = .next t := by
  rcases exec_cases i s with ⟨-, u, hexec, -⟩ | ⟨-, hexec⟩
  · exact ⟨_, hexec⟩
  · exact ⟨_, hexec⟩

theorem runCommand_next (cmd : Command) (s : State) : ∃ t, runCommand cmd s = .next t := by
  cases h : classify cmd with
  | error reject => exact ⟨raiseReject cmd reject s, by simp [runCommand, h]⟩
  | ok i => exact runCommand_of_ok h s ▸ exec_next i s

/-- Settles O15: the step looks at `RUN` first; in a running core it raises a fault or runs a Command. -/
theorem noStepAfterTheEnd : Obligations.NoStepAfterTheEnd := by
  intro s
  refine ⟨fun h => by simp [step, h], fun f h => by simp [step, h], fun hrun => ?running⟩
  case running =>
    cases hfetch : fetch s with
    | none => exact ⟨_, step_of_fetch_none hrun hfetch⟩
    | some cmd => exact step_of_fetch_some hrun hfetch ▸ runCommand_next cmd s

/-! ## What a step keeps -/

/-- A property that faults, the datapath part of every instruction and its end keep is kept by every step. -/
theorem step_induct {P : State → Prop} {s t : State} (h : step s = .next t) (hraise : ∀ f, P (raise f s))
    (hdata : ∀ u, DatapathOnly s u → P u) (hend : ∀ x u, P u → P (transferControl x (countStep u))) : P t := by
  rcases step_cases h with ⟨f, rfl⟩ | ⟨i, u, -, hcomplete, hu⟩
  · exact hraise f
  · rw [← Host.Outcome.next.inj hcomplete]
    exact hend _ u (hdata u hu)

theorem wf_transferControl (x : Transfer) (u : State) : (transferControl x (countStep u)).wf = u.wf := by
  simp [State.wf]

theorem wf_of_datapathOnly {s u : State} (h : DatapathOnly s u) (hs : s.wf = true) : u.wf = true := by
  obtain ⟨hidle, hmem, hprog, hcur⟩ := (wf_iff s).1 hs
  exact (wf_iff u).2 ⟨h.busIdle hidle, h.memWf hmem, h.prog.symm ▸ hprog, h.cursor hcur⟩

/-- Settles O16: a fault and the end of an instruction touch no field the invariant speaks of, and the datapath part of
every instruction keeps each of its four clauses. -/
theorem stepKeepsWellFormed : Obligations.StepKeepsWellFormed := fun _ _ hs h =>
  step_induct (P := fun t => t.wf = true) h (fun _ => hs) (fun _ hu => wf_of_datapathOnly hu hs)
    fun x u hu => (wf_transferControl x u).trans hu

/-- Settles O17: nothing a step does writes the program or the input. -/
theorem stepKeepsProgramAndInput : Obligations.StepKeepsProgramAndInput := by
  intro s t h
  obtain ⟨hprog, hinbuf⟩ : t.prog = s.prog ∧ t.inbuf = s.inbuf :=
    step_induct (P := fun t => t.prog = s.prog ∧ t.inbuf = s.inbuf) h (fun _ => ⟨rfl, rfl⟩)
      (fun u hu => ⟨hu.prog, hu.inbuf⟩) fun x u hu => by simpa using hu
  exact ⟨hprog, by rw [State.order, hprog, State.order], hinbuf⟩

/-! ## The end of an instruction -/

/-- Whatever the datapath part did, the end of an instruction transfers control from where the instruction started. -/
theorem transferred_of_complete {s u t : State} {x : Transfer} (hu : DatapathOnly s u) (h : complete x u = .next t) :
    Transferred x s t := by
  cases x with
  | advance => exact advanced_of_complete hu h
  | jumpTo target => cases h; exact ⟨congrArg (· + 1) hu.icnt, rfl, hu.run⟩
  | halt => cases h; exact ⟨congrArg (· + 1) hu.icnt, hu.pc, rfl⟩

/-- Settles O19: an instruction that passes the operand check ends in its transfer. -/
theorem everyInstructionCompletes : Obligations.EveryInstructionCompletes := by
  intro i s hwf
  rcases exec_cases i s with ⟨-, u, hexec, hu⟩ | ⟨hnot, -⟩
  · exact ⟨_, hexec, transferred_of_complete hu rfl⟩
  · simp [hwf] at hnot

/-! ## File order -/

theorem addressAfter_append {a : Byte} (after : List Byte) : ∀ {before : List Byte}, a ∉ before →
    addressAfter a (before ++ a :: after) = after.head?
  | [], _ => by simp [addressAfter]
  | b :: before, h => by
    obtain ⟨hne, hrest⟩ := List.ne_and_not_mem_of_not_mem_cons h
    simpa [addressAfter, hne] using addressAfter_append after hrest

/-- The head of a rising list is its least element. -/
theorem head?_eq_some_iff_least {l : List Byte} (h : l.Pairwise (· < ·)) (a : Byte) :
    l.head? = some a ↔ a ∈ l ∧ ∀ b ∈ l, a ≤ b := by
  cases l with
  | nil => simp
  | cons c l =>
    have hleast : ∀ b ∈ c :: l, c ≤ b := List.forall_mem_cons.2
      ⟨BitVec.le_refl c, fun b hb => BitVec.le_of_lt (List.rel_of_pairwise_cons h hb)⟩
    simp only [List.head?_cons, Option.some.injEq]
    constructor
    · rintro rfl
      exact ⟨List.mem_cons_self, hleast⟩
    · rintro ⟨ha, hmin⟩
      exact BitVec.le_antisymm (hleast a ha) (hmin c List.mem_cons_self)

/-- In a rising list the address after one of its members is the head of the members above it. -/
theorem addressAfter_of_rising {a : Byte} {l : List Byte} (h : l.Pairwise (· < ·)) (ha : a ∈ l) :
    ∃ above : List Byte, addressAfter a l = above.head? ∧ above.Pairwise (· < ·) ∧
      ∀ b, b ∈ above ↔ b ∈ l ∧ a < b := by
  obtain ⟨before, above, rfl⟩ := List.append_of_mem ha
  obtain ⟨-, hrest, hacross⟩ := List.pairwise_append.1 h
  obtain ⟨habove, hrise⟩ := List.pairwise_cons.1 hrest
  have hbelow : ∀ b ∈ before, b < a := fun b hb => hacross b hb a List.mem_cons_self
  refine ⟨above, addressAfter_append above fun hmem => BitVec.lt_irrefl a (hbelow a hmem), hrise, fun b => ⟨fun hb =>
    ⟨by simp [hb], habove b hb⟩, ?_⟩⟩
  rintro ⟨hb, hab⟩
  rcases List.mem_append.1 hb with hb | hb
  · exact absurd (hbelow b hb) (BitVec.lt_asymm hab)
  · rcases List.mem_cons.1 hb with rfl | hb
    · exact absurd hab (BitVec.lt_irrefl b)
    · exact hb

/-- Settles O20: the addresses above `pc` are those behind it in file order, the least of them first. -/
theorem fileOrderIsAddressOrder : Obligations.FileOrderIsAddressOrder := by
  intro s hord hpc
  have hrise : s.order.Pairwise (· < ·) := List.pairwise_map.2 ((programOrdered_iff s.prog).1 hord)
  obtain ⟨above, hnext, habove, hmem⟩ := addressAfter_of_rising hrise hpc
  rw [State.nextAddress, hnext]
  refine ⟨fun a => ?least, ?none⟩
  case least => simp only [head?_eq_some_iff_least habove, hmem, and_assoc, and_imp]
  case none =>
    simp only [List.head?_eq_none_iff, List.eq_nil_iff_forall_not_mem, hmem, not_and, BitVec.not_lt]

end Sys2Proof.Machine
end

section
/-! PROOFS. Instructions as micro-programs: the micro-operations each one is made of, as data, so that what an
instruction reads and writes is read off its list, and a law of the micro-operations is carried over to all
instructions by one induction (40_datapath_alu.md R80 to R99; 00_scope.md R8). -/

namespace Sys2Proof.Machine

/-! ## Micro-programs -/

/-- The micro-operations instructions are made of. -/
inductive Micro where
  | move (src dst : RegName)
  | set (r : RegName) (v : Byte)
  | memRead
  | memWrite
  | alu (op : AluOp)
  | clearC
  | hook (p : Port)
  /-- ends the micro-program unless Z is set (43_arith.md R147) -/
  | exitUnlessZ

/-- What a micro-operation does to the state. -/
def Micro.apply : Micro → State → State
  | .move src dst => Machine.move src dst
  | .set r v => setReg r v
  | .memRead => Machine.memRead
  | .memWrite => Machine.memWrite
  | .alu op => Machine.alu op
  | .clearC => Machine.clearC
  | .hook p => Machine.hook p
  | .exitUnlessZ => id

/-- Whether the micro-program goes on behind a micro-operation. -/
def Micro.goesOn : Micro → State → Bool
  | .exitUnlessZ, s => s.flags.z
  | _, _ => true

/-- Runs a micro-program. -/
def runMicros : List Micro → State → State
  | [], s => s
  | m :: p, s => if m.goesOn s then runMicros p (m.apply s) else s

/-- A property that each micro-operation of a program keeps is kept by the program. -/
theorem runMicros_induct {P : State → Prop} : ∀ {p : List Micro} {s : State},
    (∀ m ∈ p, ∀ t, P t → P (m.apply t)) → P s → P (runMicros p s)
  | [], _, _, hs => hs
  | m :: p, s, h, hs => by
    rw [runMicros]
    split
    · exact runMicros_induct (fun m' hm' => h m' (List.mem_cons_of_mem _ hm')) (h m List.mem_cons_self s hs)
    · exact hs

/-! ## The micro-programs of the instructions

One for each micro-sequence of the model, under its name; `exec_eq` ties them to `exec`. -/

def loadCellMicros (a : Byte) (dst : RegName) : List Micro := [.set .mar a, .memRead, .move .mdr dst]

def storeCellMicros (a : Byte) (src : RegName) : List Micro := [.set .mar a, .move src .mdr, .memWrite]

def loadViaMicros (ar dst : RegName) : List Micro := [.move ar .mar, .memRead, .move .mdr dst]

def storeViaMicros (ar src : RegName) : List Micro := [.move ar .mar, .move src .mdr, .memWrite]

def openSourceMicros : LimbSource → RegName → List Micro
  | .mem base, ar => [.set ar base]
  | .imm _, _ => []

def fetchLimbMicros : LimbSource → (ar dst : RegName) → (round : Nat) → List Micro
  | .mem _, ar, dst, _ => loadViaMicros ar dst
  | .imm v, _, dst, round => [.set dst (immLimb v round)]

def stepAddressMicros (op : AluOp) (ar : RegName) : List Micro := [.move ar .rop, .alu op, .move .res ar]

def stepSourceMicros : LimbSource → RegName → List Micro
  | .mem _, ar => stepAddressMicros .incr ar
  | .imm _, _ => []

def routeImmMicros (v : Byte) : List Micro := [.set .ac v, .move .ac .br]

def routeCellMicros (a : Byte) : List Micro := loadCellMicros a .ac ++ [.move .ac .br]

def mov4RoundMicros (src : LimbSource) (round : Nat) : List Micro :=
  fetchLimbMicros src .sar .ac round ++ .move .ac .br :: storeViaMicros .dar .br

def mov4StepMicros (src : LimbSource) : List Micro := stepSourceMicros src .sar ++ stepAddressMicros .incr .dar

def mov4Micros (dst : Byte) (src : LimbSource) : List Micro :=
  .set .dar dst :: openSourceMicros src .sar ++ mov4RoundMicros src 0 ++ mov4StepMicros src ++ mov4RoundMicros src 1 ++
    mov4StepMicros src ++ mov4RoundMicros src 2 ++ mov4StepMicros src ++ mov4RoundMicros src 3

def inPlaceImmMicros (op : AluOp) (r : RegName) (v : Byte) : List Micro :=
  [.move r .lop, .set .rop v, .alu op, .move .res r]

def inPlaceMicros (op : AluOp) (r : RegName) : List Micro := [.move r .lop, .alu op, .move .res r]

def addRoundMicros (left right : LimbSource) (round : Nat) : List Micro :=
  fetchLimbMicros left .sar .lop round ++ fetchLimbMicros right .tar .rop round ++ .alu .add ::
    storeViaMicros .dar .res ++ stepSourceMicros left .sar ++ stepSourceMicros right .tar ++
    stepAddressMicros .incr .dar

def add4Micros (dst : Byte) (left right : LimbSource) : List Micro :=
  .set .dar dst :: openSourceMicros left .sar ++ openSourceMicros right .tar ++ .clearC ::
    addRoundMicros left right 0 ++ addRoundMicros left right 1 ++ addRoundMicros left right 2 ++
    addRoundMicros left right 3

def sub1Micros (dst left right : Byte) : List Micro :=
  [.set .dar dst, .set .tar right, .set .lop left] ++ loadViaMicros .tar .rop ++ .alu .sub :: storeViaMicros .dar .res

def stepAddress3Micros (ar : RegName) : List Micro :=
  stepAddressMicros .incr ar ++ stepAddressMicros .incr ar ++ stepAddressMicros .incr ar

def cmpLimbMicros : List Micro := loadViaMicros .sar .lop ++ loadViaMicros .tar .rop ++ [.alu .sub]

def cmpStepMicros : List Micro := stepAddressMicros .decr .sar ++ stepAddressMicros .decr .tar

def cmpFromMicros : Nat → List Micro
  | 0 => cmpLimbMicros
  | i + 1 => cmpLimbMicros ++ .exitUnlessZ :: cmpStepMicros ++ cmpFromMicros i

def cmp4Micros (left right : Byte) : List Micro :=
  [.set .sar left, .set .tar right] ++ stepAddress3Micros .sar ++ stepAddress3Micros .tar ++ cmpFromMicros 3

/-- The micro-program of an instruction; an instruction that fails the operand check has none. -/
def microsOf : Instr → Option (List Micro)
  | .nop => some []
  | .hlt => some []
  | .movRI k v => (xreg? k).map fun r => routeImmMicros v ++ [.move .br r]
  | .movRM k a => (xreg? k).map fun r => routeCellMicros a ++ [.move .br r]
  | .movMI d v => some (routeImmMicros v ++ storeCellMicros d .br)
  | .movMM d a => some (routeCellMicros a ++ storeCellMicros d .br)
  | .movII d v => some (routeImmMicros v ++ storeCellMicros d .br)
  | .movIM d a => some (routeCellMicros a ++ storeCellMicros d .br)
  | .mov4MI d v => some (mov4Micros d (.imm v))
  | .mov4MM d a => some (mov4Micros d (.mem a))
  | .add1RI k v => (xreg? k).map fun r => .clearC :: inPlaceImmMicros .add r v
  | .addMMM d l r => some (add4Micros d (.mem l) (.mem r))
  | .addMMI d l r => some (add4Micros d (.mem l) (.imm r))
  | .addMIM d l r => some (add4Micros d (.imm l) (.mem r))
  | .addMII d l r => some (add4Micros d (.imm l) (.imm r))
  | .subMIM d l r => some (sub1Micros d l r)
  | .cmpMM l r => some (cmp4Micros l r)
  | .cmpRI k v => (xreg? k).map fun r => [.move r .lop, .set .rop v, .alu .sub]
  | .shlRI k n => (xreg? k).map fun r => inPlaceImmMicros .shl r n
  | .shrRI k n => (xreg? k).map fun r => inPlaceImmMicros .shr r n
  | .incR k => (xreg? k).map fun r => inPlaceMicros .incl r
  | .decR k => (xreg? k).map fun r => inPlaceMicros .decl r
  | .ldRR a k => (xreg? a).bind fun ra => (xreg? k).map fun rt => loadViaMicros ra rt
  | .stRR a k => (xreg? a).bind fun ra => (xreg? k).map fun rt => storeViaMicros ra rt
  | .inI p => (port? p).map fun q => [.move q.reg .ior, .hook q]
  | .outI p => (port? p).map fun q => [.move .ior q.reg, .hook q]
  | .jeI _ => some []
  | .jneI _ => some []
  | .jaeI _ => some []
  | .jmpI _ => some []

/-! ## Running them -/

/-- A micro-program without an exit. -/
def Straight (p : List Micro) : Prop := ∀ m ∈ p, ∀ s, m.goesOn s = true

theorem Straight.append {p q : List Micro} (hp : Straight p) (hq : Straight q) : Straight (p ++ q) := by
  simpa [Straight, or_imp, forall_and] using ⟨hp, hq⟩

/-- The second of two programs runs from where the first one ends, if that one has no exit. -/
theorem runMicros_append {p : List Micro} (h : Straight p) (q : List Micro) (s : State) :
    runMicros (p ++ q) s = runMicros q (runMicros p s) := by
  induction p generalizing s with
  | nil => rfl
  | cons m p ih =>
    obtain ⟨hm, hp⟩ := List.forall_mem_cons.1 h
    simp only [List.cons_append, runMicros, hm, if_true, ih hp]

theorem straight_loadVia (ar dst : RegName) : Straight (loadViaMicros ar dst) := by
  simp [Straight, loadViaMicros, Micro.goesOn]

theorem straight_stepAddress (op : AluOp) (ar : RegName) : Straight (stepAddressMicros op ar) := by
  simp [Straight, stepAddressMicros, Micro.goesOn]

theorem straight_addRound (left right : LimbSource) (round : Nat) : Straight (addRoundMicros left right round) := by
  cases left <;> cases right <;>
    simp [Straight, addRoundMicros, fetchLimbMicros, stepSourceMicros, loadViaMicros, storeViaMicros, stepAddressMicros,
      Micro.goesOn]

theorem runMicros_addRound (left right : LimbSource) (round : Nat) (s : State) :
    runMicros (addRoundMicros left right round) s = addRound left right round s := by
  cases left <;> cases right <;> rfl

theorem runMicros_add4 (dst : Byte) (left right : LimbSource) (s : State) :
    runMicros (add4Micros dst left right) s = add4 dst left right s := by
  have hopen : ∀ src ar, Straight (openSourceMicros src ar) := fun src ar => by
    cases src <;> simp [Straight, openSourceMicros, Micro.goesOn]
  have hsource : ∀ src ar t, runMicros (openSourceMicros src ar) t = openSource src ar t := fun src ar t => by
    cases src <;> rfl
  simp only [add4Micros, List.append_assoc, List.cons_append, runMicros, Micro.goesOn, if_true,
    runMicros_append (hopen _ _), hsource, runMicros_append (straight_addRound left right _), runMicros_addRound]
  rfl

theorem straight_cmpLimb : Straight cmpLimbMicros :=
  .append (.append (straight_loadVia _ _) (straight_loadVia _ _)) (by simp [Straight, Micro.goesOn])

theorem straight_cmpStep : Straight cmpStepMicros :=
  .append (straight_stepAddress _ _) (straight_stepAddress _ _)

theorem runMicros_cmpFrom : ∀ (i : Nat) (s : State), runMicros (cmpFromMicros i) s = cmpFrom i s
  | 0, _ => rfl
  | i + 1, s => by
    have hlimb : runMicros cmpLimbMicros s = cmpLimb s := rfl
    have hstep : ∀ t, runMicros cmpStepMicros t = cmpStep t := fun _ => rfl
    simp only [cmpFromMicros, List.append_assoc, List.cons_append, runMicros_append straight_cmpLimb, hlimb, runMicros,
      Micro.goesOn, Micro.apply, id, runMicros_append straight_cmpStep, hstep, runMicros_cmpFrom i, cmpFrom]

theorem runMicros_cmp4 (left right : Byte) (s : State) : runMicros (cmp4Micros left right) s = cmp4 left right s := by
  have hthree : ∀ ar, Straight (stepAddress3Micros ar) := fun ar =>
    .append (.append (straight_stepAddress _ _) (straight_stepAddress _ _)) (straight_stepAddress _ _)
  simp only [cmp4Micros, List.append_assoc, List.cons_append, List.nil_append, runMicros, Micro.goesOn, if_true,
    runMicros_append (hthree _), runMicros_cmpFrom]
  rfl

/-- The outcome of an instruction: its micro-program, then the transfer of control; or the operand check's fault. -/
theorem exec_eq (i : Instr) (s : State) :
    exec i s = (microsOf i).elim (unsupported i.mnemonic s) fun p => complete (transferOf s i) (runMicros p s) := by
  cases i with
  | addMMM d l r => exact congrArg (complete .advance) (runMicros_add4 d (.mem l) (.mem r) s).symm
  | addMMI d l r => exact congrArg (complete .advance) (runMicros_add4 d (.mem l) (.imm r) s).symm
  | addMIM d l r => exact congrArg (complete .advance) (runMicros_add4 d (.imm l) (.mem r) s).symm
  | addMII d l r => exact congrArg (complete .advance) (runMicros_add4 d (.imm l) (.imm r) s).symm
  | cmpMM l r => exact congrArg (complete .advance) (runMicros_cmp4 l r s).symm
  | movRI k v => simp only [exec, execMovRI, deliverReg, microsOf]; cases xreg? k <;> rfl
  | movRM k a => simp only [exec, execMovRM, deliverReg, microsOf]; cases xreg? k <;> rfl
  | add1RI k v => simp only [exec, execAdd1RI, microsOf]; cases xreg? k <;> rfl
  | cmpRI k v => simp only [exec, execCmpRI, microsOf]; cases xreg? k <;> rfl
  | shlRI k n => simp only [exec, execShlRI, microsOf]; cases xreg? k <;> rfl
  | shrRI k n => simp only [exec, execShrRI, microsOf]; cases xreg? k <;> rfl
  | incR k => simp only [exec, execIncR, microsOf]; cases xreg? k <;> rfl
  | decR k => simp only [exec, execDecR, microsOf]; cases xreg? k <;> rfl
  | ldRR a k => simp only [exec, execLdRR, microsOf]; cases xreg? a <;> cases xreg? k <;> rfl
  | stRR a k => simp only [exec, execStRR, microsOf]; cases xreg? a <;> cases xreg? k <;> rfl
  | inI p => simp only [exec, execInI, microsOf]; cases port? p <;> rfl
  | outI p => simp only [exec, execOutI, microsOf]; cases port? p <;> rfl
  | jneI t => cases h : s.flags.z <;> simp [exec, execJneI, jumpIf, transferOf, microsOf, runMicros, h]
  | jaeI t => cases h : s.flags.n <;> simp [exec, execJaeI, jumpIf, transferOf, microsOf, runMicros, h]
  | _ => rfl

end Sys2Proof.Machine
end

section
/-! PROOFS. What instructions write: the frames of registers, flags and devices, read off the micro-programs
(10_state.md R11, R16, R25; 44_ldst_io.md R167). -/

namespace Sys2Proof.Machine

/-! ## What a micro-operation writes -/

/-- The registers a micro-operation writes, on an idle bus. -/
def Micro.writes : Micro → List RegName
  | .move _ dst => [dst]
  | .set r _ => [r]
  | .memRead => [.mdr]
  | .memWrite => []
  | .alu _ => [.res]
  | .clearC => []
  | .hook .source => [.pr0]
  | .hook .sink => []
  | .exitUnlessZ => []

/-- The flags a micro-operation writes (40_datapath_alu.md R90; 10_state.md R16). -/
def Micro.flagMask : Micro → FlagMask
  | .alu op => effectiveMask op .nzvc
  | .clearC => .onlyC
  | _ => ⟨false, false, false, false⟩

theorem busIdle_apply (m : Micro) {s : State} (h : s.busIdle = true) : (m.apply s).busIdle = true := by
  cases m with
  | hook p => cases p <;> simp [Micro.apply, hook, h]
  | _ => simp [Micro.apply, h]

theorem val_apply (m : Micro) {s : State} (h : s.busIdle = true) {r : RegName} (hr : r ∉ m.writes) :
    (m.apply s).val r = s.val r := by
  cases m with
  | hook p =>
    cases p with
    | source => exact val_sourceHook_other s (List.mem_singleton.not.1 hr)
    | sink => rfl
  | _ => simp_all [Micro.apply, Micro.writes]

/-- The masked flags alone change (40_datapath_alu.md R88). -/
theorem aluFlags_keeps (op : AluOp) (l r : Byte) (f : Flags) :
    ((effectiveMask op .nzvc).n = false → (aluFlags op .nzvc l r f).n = f.n) ∧
    ((effectiveMask op .nzvc).z = false → (aluFlags op .nzvc l r f).z = f.z) ∧
    ((effectiveMask op .nzvc).v = false → (aluFlags op .nzvc l r f).v = f.v) ∧
    ((effectiveMask op .nzvc).c = false → (aluFlags op .nzvc l r f).c = f.c) := by
  refine ⟨fun h => ?_, fun h => ?_, fun h => ?_, fun h => ?_⟩ <;> simp [aluFlags, h]

/-- The flags outside a mask are the same in two states. -/
def SameFlagsOutside (mask : FlagMask) (s t : State) : Prop :=
  (mask.n = false → t.flags.n = s.flags.n) ∧ (mask.z = false → t.flags.z = s.flags.z) ∧
    (mask.v = false → t.flags.v = s.flags.v) ∧ (mask.c = false → t.flags.c = s.flags.c)

theorem sameFlagsOutside_apply (m : Micro) (s : State) : SameFlagsOutside m.flagMask s (m.apply s) := by
  cases m with
  | alu op => exact aluFlags_keeps op (s.val .lop) (s.val .rop) s.flags
  | hook p => cases p <;> simp [SameFlagsOutside, Micro.apply, hook]
  | _ => simp [SameFlagsOutside, Micro.apply, Micro.flagMask, FlagMask.onlyC]

/-! ## What a micro-program writes -/

/-- Every micro-operation of a program writes registers of a list only. -/
def writesWithin (regs : List RegName) (p : List Micro) : Bool := p.all fun m => m.writes.all fun r => decide (r ∈ regs)

theorem val_runMicros {regs : List RegName} {p : List Micro} {s : State} (hp : writesWithin regs p = true)
    (h : s.busIdle = true) : (runMicros p s).busIdle = true ∧ ∀ r, r ∉ regs → (runMicros p s).val r = s.val r := by
  refine runMicros_induct (P := fun t => t.busIdle = true ∧ ∀ r, r ∉ regs → t.val r = s.val r) ?_ ⟨h, fun _ _ => rfl⟩
  rintro m hm t ⟨hidle, hval⟩
  refine ⟨busIdle_apply m hidle, fun r hr => ?_⟩
  have hwrites : r ∉ m.writes := fun hw => hr <| by
    simpa using List.all_eq_true.1 (List.all_eq_true.1 hp m hm) r hw
  rw [val_apply m hidle hwrites, hval r hr]

/-- Every micro-operation of a program writes flags of a mask only. -/
def flagsWithin (mask : FlagMask) (p : List Micro) : Bool :=
  p.all fun m => (!m.flagMask.n || mask.n) && (!m.flagMask.z || mask.z) && (!m.flagMask.v || mask.v) &&
    (!m.flagMask.c || mask.c)

theorem sameFlagsOutside_runMicros {mask : FlagMask} {p : List Micro} (hp : flagsWithin mask p = true) (s : State) :
    SameFlagsOutside mask s (runMicros p s) := by
  refine runMicros_induct (P := SameFlagsOutside mask s) ?_ ⟨fun _ => rfl, fun _ => rfl, fun _ => rfl, fun _ => rfl⟩
  rintro m hm t ⟨hn, hz, hv, hc⟩
  obtain ⟨hn', hz', hv', hc'⟩ := sameFlagsOutside_apply m t
  have hmask := List.all_eq_true.1 hp m hm
  simp only [Bool.and_eq_true, Bool.or_eq_true, Bool.not_eq_true'] at hmask
  obtain ⟨⟨⟨mn, mz⟩, mv⟩, mc⟩ := hmask
  refine ⟨fun h => ?_, fun h => ?_, fun h => ?_, fun h => ?_⟩
  · exact (hn' (by simpa [h] using mn)).trans (hn h)
  · exact (hz' (by simpa [h] using mz)).trans (hz h)
  · exact (hv' (by simpa [h] using mv)).trans (hv h)
  · exact (hc' (by simpa [h] using mc)).trans (hc h)

/-! ## What an instruction writes -/

/-- What an instruction leaves of the datapath is what its micro-program leaves; where it has none, all. -/
theorem exec_induct {P : State → Prop} {i : Instr} {s t : State} (h : exec i s = .next t)
    (hrun : ∀ p, microsOf i = some p → P (runMicros p s)) (hraise : ∀ f, P (raise f s))
    (hend : ∀ x u, P u → P (transferControl x (countStep u))) : P t := by
  rw [exec_eq] at h
  cases hp : microsOf i with
  | none =>
    rw [hp] at h
    rw [of_unsupported h]
    exact hraise _
  | some p =>
    rw [hp] at h
    rw [← Host.Outcome.next.inj h]
    exact hend _ _ (hrun p hp)

/-- Register operands that name registers, in an instruction that has a micro-program. -/
theorem named_eq {k : Byte} {r : RegName} (h : xreg? k = some r) : named k = [r] := by
  simp [named, h]

/-- The micro-program of every instruction writes the registers listed for it (10_state.md R11). -/
theorem writesWithin_microsOf {i : Instr} {p : List Micro} (h : microsOf i = some p) :
    writesWithin (writtenRegs i) p = true := by
  cases i with
  | movRI k _ | movRM k _ | add1RI k _ | cmpRI k _ | shlRI k _ | shrRI k _ | incR k | decR k =>
    obtain ⟨r, hk, rfl⟩ := Option.map_eq_some_iff.1 h
    rcases xreg?_some hk with ⟨rfl, rfl⟩ | ⟨rfl, rfl⟩ | ⟨rfl, rfl⟩ | ⟨rfl, rfl⟩ <;> rfl
  | ldRR a k | stRR a k =>
    obtain ⟨ra, -, h⟩ := Option.bind_eq_some_iff.1 h
    obtain ⟨rt, hk, rfl⟩ := Option.map_eq_some_iff.1 h
    rcases xreg?_some hk with ⟨rfl, rfl⟩ | ⟨rfl, rfl⟩ | ⟨rfl, rfl⟩ | ⟨rfl, rfl⟩ <;> rfl
  | inI k | outI k =>
    obtain ⟨q, hk, rfl⟩ := Option.map_eq_some_iff.1 h
    rcases port?_some hk with ⟨rfl, rfl⟩ | ⟨rfl, rfl⟩ <;> rfl
  | _ => cases h; rfl

/-- The micro-program of every instruction writes the flags the table lists for it (10_state.md R16). -/
theorem flagsWithin_microsOf {i : Instr} {p : List Micro} (h : microsOf i = some p) :
    flagsWithin (writtenFlags i.mnemonic) p = true := by
  cases i with
  | movRI k _ | movRM k _ | add1RI k _ | cmpRI k _ | shlRI k _ | shrRI k _ | incR k | decR k | inI k | outI k =>
    obtain ⟨r, -, rfl⟩ := Option.map_eq_some_iff.1 h
    rfl
  | ldRR a k | stRR a k =>
    obtain ⟨ra, -, h⟩ := Option.bind_eq_some_iff.1 h
    obtain ⟨rt, -, rfl⟩ := Option.map_eq_some_iff.1 h
    rfl
  | _ => cases h; rfl

/-- Settles O21: the micro-program writes listed registers only, and no micro-operation leaves a signal open. -/
theorem onlyListedRegistersChange : Obligations.OnlyListedRegistersChange := by
  intro i s t hidle h
  exact exec_induct (P := fun t => t.busIdle = true ∧ ∀ r, r ∉ writtenRegs i → t.val r = s.val r) h
    (fun p hp => val_runMicros (writesWithin_microsOf hp) hidle) (fun _ => ⟨hidle, fun _ _ => rfl⟩)
    fun x u hu => by simpa using hu

/-- Settles O23: the micro-program writes listed flags only. -/
theorem onlyListedFlagsChange : Obligations.OnlyListedFlagsChange := by
  intro i s t h
  exact exec_induct (P := SameFlagsOutside (writtenFlags i.mnemonic) s) h
    (fun p hp => sameFlagsOutside_runMicros (flagsWithin_microsOf hp) s)
    (fun _ => ⟨fun _ => rfl, fun _ => rfl, fun _ => rfl, fun _ => rfl⟩)
    fun x u hu => by simpa [SameFlagsOutside] using hu

/-! ## The devices -/

/-- The devices whose hooks a micro-program runs are among the given ones. -/
def hooksWithin (ports : List Port) (p : List Micro) : Bool :=
  p.all fun
    | .hook q => decide (q ∈ ports)
    | _ => true

/-- The device an instruction accesses (44_ldst_io.md R163, R167). -/
def accessedPorts : Instr → List Port
  | .inI k => (port? k).toList
  | .outI k => (port? k).toList
  | _ => []

theorem hooksWithin_microsOf {i : Instr} {p : List Micro} (h : microsOf i = some p) :
    hooksWithin (accessedPorts i) p = true := by
  cases i with
  | inI k | outI k =>
    obtain ⟨q, hk, rfl⟩ := Option.map_eq_some_iff.1 h
    rcases port?_some hk with ⟨rfl, rfl⟩ | ⟨rfl, rfl⟩ <;> rfl
  | movRI k _ | movRM k _ | add1RI k _ | cmpRI k _ | shlRI k _ | shrRI k _ | incR k | decR k =>
    obtain ⟨r, -, rfl⟩ := Option.map_eq_some_iff.1 h
    rfl
  | ldRR a k | stRR a k =>
    obtain ⟨ra, -, h⟩ := Option.bind_eq_some_iff.1 h
    obtain ⟨rt, -, rfl⟩ := Option.map_eq_some_iff.1 h
    rfl
  | _ => cases h; rfl

/-- The cursor moves in the source's hook alone, the log grows in the sink's (10_state.md R27, R28). -/
theorem devices_runMicros {ports : List Port} {p : List Micro} (hp : hooksWithin ports p = true) (s : State) :
    (.source ∉ ports → (runMicros p s).cur = s.cur) ∧ (.sink ∉ ports → (runMicros p s).outlog = s.outlog) := by
  refine runMicros_induct (P := fun t => (.source ∉ ports → t.cur = s.cur) ∧ (.sink ∉ ports → t.outlog = s.outlog)) ?_
    ⟨fun _ => rfl, fun _ => rfl⟩
  rintro m hm t ⟨hcur, hlog⟩
  have hport := List.all_eq_true.1 hp m hm
  cases m with
  | hook q =>
    have hq : q ∈ ports := of_decide_eq_true hport
    cases q with
    | source => exact ⟨fun hno => absurd hq hno, by simpa [Micro.apply, hook] using hlog⟩
    | sink => exact ⟨by simpa [Micro.apply, hook] using hcur, fun hno => absurd hq hno⟩
  | _ => simpa [Micro.apply] using ⟨hcur, hlog⟩

theorem devices_exec {i : Instr} {s t : State} (h : exec i s = .next t) :
    (.source ∉ accessedPorts i → t.cur = s.cur) ∧ (.sink ∉ accessedPorts i → t.outlog = s.outlog) :=
  exec_induct (P := fun t => (.source ∉ accessedPorts i → t.cur = s.cur) ∧
      (.sink ∉ accessedPorts i → t.outlog = s.outlog)) h
    (fun p hp => devices_runMicros (hooksWithin_microsOf hp) s) (fun _ => ⟨fun _ => rfl, fun _ => rfl⟩)
    fun x u hu => by simpa using hu

theorem accessedPorts_eq_nil {i : Instr} (hin : i.mnemonic ≠ .IN) (hout : i.mnemonic ≠ .OUT) :
    accessedPorts i = [] := by
  cases i with
  | inI k => exact absurd rfl hin
  | outI k => exact absurd rfl hout
  | _ => rfl

/-- Each device is accessed by the two instructions on its port (10_state.md R24). -/
theorem mem_accessedPorts {i : Instr} :
    (.source ∈ accessedPorts i → i = .inI 0 ∨ i = .outI 0) ∧ (.sink ∈ accessedPorts i → i = .inI 1 ∨ i = .outI 1) := by
  cases i with
  | inI k | outI k =>
    simp only [accessedPorts, Option.mem_toList]
    refine ⟨fun h => ?_, fun h => ?_⟩ <;> rcases port?_some h with ⟨rfl, hq⟩ | ⟨rfl, hq⟩ <;> simp at hq ⊢
  | _ => exact ⟨fun h => (List.not_mem_nil h).elim, fun h => (List.not_mem_nil h).elim⟩

/-- The source register is written by the instructions on port 0, the sink's by OUT (10_state.md R11). -/
theorem device_mem_writtenRegs {i : Instr} :
    (.pr0 ∈ writtenRegs i → i = .inI 0 ∨ i = .outI 0) ∧ (.pr1 ∈ writtenRegs i → ∃ k, i = .outI k) := by
  have hnamed : ∀ k, .pr0 ∉ named k ∧ .pr1 ∉ named k := fun k => by
    simp only [named, Option.mem_toList]
    refine ⟨fun h => ?_, fun h => ?_⟩ <;> rcases xreg?_some h with ⟨-, h⟩ | ⟨-, h⟩ | ⟨-, h⟩ | ⟨-, h⟩ <;> cases h
  cases i with
  | inI k | outI k =>
    by_cases hk : k = 0
    · simp [writtenRegs, hk]
    · simp only [writtenRegs, if_neg hk]; simp
  | _ => simp [writtenRegs, hnamed]

/-- Settles O24: the device registers by the register frame, cursor and log by the hooks each instruction runs. -/
theorem devicesActOnlyInInAndOut : Obligations.DevicesActOnlyInInAndOut := by
  intro i s t hidle h
  obtain ⟨hcur, hlog⟩ := devices_exec h
  refine ⟨fun hin hout => ?others, fun hin hout => hlog fun hsink => ?log, fun hin hout => hcur fun hsource => ?cursor⟩
  case others =>
    obtain ⟨-, hval⟩ := onlyListedRegistersChange i s t hidle h
    have hnone := accessedPorts_eq_nil hin hout
    refine ⟨hval _ fun hpr0 => ?_, hval _ fun hpr1 => ?_, hcur (by simp [hnone]), hlog (by simp [hnone])⟩
    · rcases device_mem_writtenRegs.1 hpr0 with rfl | rfl
      · exact hin rfl
      · exact hout rfl
    · obtain ⟨k, rfl⟩ := device_mem_writtenRegs.2 hpr1
      exact hout rfl
  case log => exact (mem_accessedPorts.2 hsink).elim hin hout
  case cursor => exact (mem_accessedPorts.1 hsource).elim hin hout

end Sys2Proof.Machine
end

section
/-! PROOFS. The hidden registers carry nothing from one instruction to the next (10_state.md R29 c): a data-flow check
of the micro-programs, which read no register that is neither visible nor written before. -/

namespace Sys2Proof.Machine

/-! ## Agreement on a set of registers -/

/-- Two states that agree in the given registers and in everything but registers and the bus value, with every signal
closed in both. -/
structure AgreeOn (regs : List RegName) (s t : State) : Prop where
  registers : ∀ r ∈ regs, t.val r = s.val r
  signals : s.busIdle = true ∧ t.busIdle = true
  flags : t.flags = s.flags
  memory : t.mem = s.mem
  program : t.prog = s.prog
  control : t.pc = s.pc ∧ t.run = s.run ∧ t.icnt = s.icnt
  devices : t.inbuf = s.inbuf ∧ t.cur = s.cur ∧ t.outlog = s.outlog

/-- The registers that are not hidden (10_state.md R29). -/
def visibleRegs : List RegName := [.ac, .br, .cr, .ior, .pr0, .pr1]

theorem mem_visibleRegs_iff (r : RegName) : r ∈ visibleRegs ↔ r ∉ hiddenRegs := by
  cases r <;> decide

theorem sameButHidden_iff (s t : State) : SameButHidden s t ↔ AgreeOn visibleRegs s t := by
  constructor
  · rintro ⟨hregs, hsignals, hflags, hmem, hprog, hctl, hdev⟩
    exact ⟨fun r hr => hregs r ((mem_visibleRegs_iff r).1 hr), hsignals, hflags, hmem, hprog, hctl, hdev⟩
  · rintro ⟨hregs, hsignals, hflags, hmem, hprog, hctl, hdev⟩
    exact ⟨fun r hr => hregs r ((mem_visibleRegs_iff r).2 hr), hsignals, hflags, hmem, hprog, hctl, hdev⟩

theorem AgreeOn.mono {regs regs' : List RegName} {s t : State} (h : AgreeOn regs s t) (hsub : regs' ⊆ regs) :
    AgreeOn regs' s t :=
  { h with registers := fun r hr => h.registers r (hsub hr) }

theorem AgreeOn.cell {regs : List RegName} {s t : State} (h : AgreeOn regs s t) (a : Byte) : t.cell a = s.cell a := by
  rw [State.cell, h.memory, State.cell]

/-! ## What a micro-operation reads -/

/-- The operands an ALU operation computes from (40_datapath_alu.md R91 to R98). -/
def aluReads : AluOp → List RegName
  | .incl => [.lop]
  | .decl => [.lop]
  | .incr => [.rop]
  | .decr => [.rop]
  | _ => [.lop, .rop]

/-- The registers a micro-operation reads. -/
def Micro.reads : Micro → List RegName
  | .move src _ => [src]
  | .set _ _ => []
  | .memRead => [.mar]
  | .memWrite => [.mar, .mdr]
  | .alu op => aluReads op
  | .clearC => []
  | .hook .source => []
  | .hook .sink => [.pr1]
  | .exitUnlessZ => []

/-- An ALU operation computes from the operands it reads, and from nothing else of LOP and ROP. -/
theorem alu_congr {op : AluOp} {l l' r r' : Byte} (hl : .lop ∈ aluReads op → l' = l) (hr : .rop ∈ aluReads op → r' = r)
    (f : Flags) :
    aluResult op l' r' f.c = aluResult op l r f.c ∧ aluFlags op .nzvc l' r' f = aluFlags op .nzvc l r f := by
  cases op with
  | incl | decl => cases hl List.mem_cons_self; exact ⟨rfl, rfl⟩
  | incr | decr => cases hr List.mem_cons_self; exact ⟨rfl, rfl⟩
  | _ => cases hl (by decide); cases hr (by decide); exact ⟨rfl, rfl⟩

/-- The source's hook loads the same character from the same input. -/
theorem sourceHook_congr {s t : State} (hinbuf : t.inbuf = s.inbuf) (hcur : t.cur = s.cur) :
    (sourceHook t).val .pr0 = (sourceHook s).val .pr0 ∧ (sourceHook t).cur = (sourceHook s).cur := by
  simp only [sourceHook, hinbuf, hcur]
  cases s.inbuf[s.cur]? <;> simp [hcur]

section
variable {regs : List RegName} {s t : State} {m : Micro} (h : AgreeOn regs s t)
  (hread : ∀ r ∈ m.reads, t.val r = s.val r)
include h hread

theorem val_apply_written {r : RegName} (hr : r ∈ m.writes) : (m.apply t).val r = (m.apply s).val r := by
  obtain ⟨hs, ht⟩ := h.signals
  obtain ⟨hinbuf, hcur, -⟩ := h.devices
  cases m with
  | hook p =>
    cases p with
    | source =>
      obtain rfl := List.mem_singleton.1 hr
      exact (sourceHook_congr hinbuf hcur).1
    | sink => cases hr
  | alu op =>
    obtain rfl := List.mem_singleton.1 hr
    simpa [Micro.apply, h.flags] using (alu_congr (hread .lop) (hread .rop) s.flags).1
  | _ => simp_all [Micro.apply, Micro.writes, Micro.reads, h.cell]

theorem flags_apply : (m.apply t).flags = (m.apply s).flags := by
  cases m with
  | alu op => simpa [Micro.apply, h.flags] using (alu_congr (hread .lop) (hread .rop) s.flags).2
  | hook p => cases p <;> simpa [Micro.apply, hook] using h.flags
  | _ => simp [Micro.apply, h.flags]

theorem mem_apply : (m.apply t).mem = (m.apply s).mem := by
  cases m with
  | memWrite =>
    have hmar := hread .mar (by simp [Micro.reads])
    have hmdr := hread .mdr (by simp [Micro.reads])
    simp [Micro.apply, memWrite, putCell, hmar, hmdr, h.memory]
  | hook p => cases p <;> simpa [Micro.apply, hook] using h.memory
  | _ => simpa [Micro.apply] using h.memory

theorem devices_apply :
    (m.apply t).inbuf = (m.apply s).inbuf ∧ (m.apply t).cur = (m.apply s).cur ∧
      (m.apply t).outlog = (m.apply s).outlog := by
  obtain ⟨hinbuf, hcur, hlog⟩ := h.devices
  cases m with
  | hook p =>
    cases p with
    | source => exact ⟨by simpa [Micro.apply, hook] using hinbuf, (sourceHook_congr hinbuf hcur).2,
        by simpa [Micro.apply, hook] using hlog⟩
    | sink =>
      have hpr1 := hread .pr1 (by simp [Micro.reads])
      simpa [Micro.apply, hook, hpr1, hlog] using ⟨hinbuf, hcur⟩
  | _ => simpa [Micro.apply] using ⟨hinbuf, hcur, hlog⟩

end

/-- No micro-operation touches the control unit or the program. -/
theorem control_apply (m : Micro) (s : State) :
    (m.apply s).prog = s.prog ∧ (m.apply s).pc = s.pc ∧ (m.apply s).run = s.run ∧ (m.apply s).icnt = s.icnt := by
  cases m with
  | hook p => cases p <;> simp [Micro.apply, hook]
  | _ => simp [Micro.apply]

/-- A micro-operation takes states that agree in what it reads to states that agree in what it writes, too. -/
theorem AgreeOn.apply {regs : List RegName} {s t : State} {m : Micro} (h : AgreeOn regs s t) (hreads : m.reads ⊆ regs) :
    AgreeOn (m.writes ++ regs) (m.apply s) (m.apply t) := by
  have hread : ∀ r ∈ m.reads, t.val r = s.val r := fun r hr => h.registers r (hreads hr)
  obtain ⟨hs, ht⟩ := h.signals
  refine ⟨fun r hr => ?registers, ⟨busIdle_apply m hs, busIdle_apply m ht⟩, flags_apply h hread, mem_apply h hread,
    ?program, ?control, devices_apply h hread⟩
  case registers =>
    by_cases hw : r ∈ m.writes
    · exact val_apply_written h hread hw
    · rw [val_apply m hs hw, val_apply m ht hw, h.registers r ((List.mem_append.1 hr).resolve_left hw)]
  case program => simp [control_apply, h.program]
  case control => simpa [control_apply] using h.control

/-! ## The data-flow check -/

/-- Every register a micro-program reads is one of the given ones or was written before. -/
def readsWithin : List RegName → List Micro → Bool
  | _, [] => true
  | regs, m :: p => m.reads.all (fun r => decide (r ∈ regs)) && readsWithin (m.writes ++ regs) p

/-- A micro-program that passes the check takes states that agree on the given registers to states that still do. -/
theorem AgreeOn.runMicros : ∀ {p : List Micro} {regs : List RegName} {s t : State}, AgreeOn regs s t →
    readsWithin regs p = true → AgreeOn regs (runMicros p s) (runMicros p t)
  | [], _, _, _, h, _ => h
  | m :: p, regs, s, t, h, hp => by
    obtain ⟨hreads, hrest⟩ : m.reads ⊆ regs ∧ readsWithin (m.writes ++ regs) p = true := by
      simpa [readsWithin, List.subset_def] using hp
    have hgoesOn : m.goesOn t = m.goesOn s := by
      cases m with
      | exitUnlessZ => exact congrArg Flags.z h.flags
      | _ => rfl
    simp only [Machine.runMicros, hgoesOn]
    split
    · exact ((h.apply hreads).runMicros hrest).mono (List.subset_append_right _ _)
    · exact h

/-- Every instruction reads only visible registers and those it has written itself (10_state.md R29 c). -/
theorem readsWithin_microsOf {i : Instr} {p : List Micro} (h : microsOf i = some p) :
    readsWithin visibleRegs p = true := by
  cases i with
  | movRI k _ | movRM k _ | add1RI k _ | cmpRI k _ | shlRI k _ | shrRI k _ | incR k | decR k =>
    obtain ⟨r, hk, rfl⟩ := Option.map_eq_some_iff.1 h
    rcases xreg?_some hk with ⟨-, rfl⟩ | ⟨-, rfl⟩ | ⟨-, rfl⟩ | ⟨-, rfl⟩ <;> rfl
  | ldRR a k | stRR a k =>
    obtain ⟨ra, ha, h⟩ := Option.bind_eq_some_iff.1 h
    obtain ⟨rt, hk, rfl⟩ := Option.map_eq_some_iff.1 h
    rcases xreg?_some ha with ⟨-, rfl⟩ | ⟨-, rfl⟩ | ⟨-, rfl⟩ | ⟨-, rfl⟩ <;>
      rcases xreg?_some hk with ⟨-, rfl⟩ | ⟨-, rfl⟩ | ⟨-, rfl⟩ | ⟨-, rfl⟩ <;> rfl
  | inI k | outI k =>
    obtain ⟨q, -, rfl⟩ := Option.map_eq_some_iff.1 h
    cases q <;> rfl
  | _ => cases h; rfl

/-! ## Instructions and steps -/

/-- Steps of two cores have related outcomes if both fetch the same Command, every instruction has related outcomes and
a fault keeps the relation: this is all there is to a step (41_control_unit.md R110). -/
theorem sameOutcome_step {rel : State → State → Prop} {s t : State} (hrun : t.run = s.run)
    (hprog : t.prog = s.prog) (hpc : t.pc = s.pc) (hraise : ∀ f, rel (raise f s) (raise f t))
    (hexec : ∀ i, SameOutcome rel (exec i s) (exec i t)) : SameOutcome rel (step s) (step t) := by
  have hfetch : fetch t = fetch s := by simp only [fetch, hprog, hpc]
  cases hs : s.run with
  | halted => simp [step, hrun, hs, SameOutcome]
  | faulted f => simp [step, hrun, hs, SameOutcome]
  | running =>
    cases hcmd : fetch s with
    | none =>
      rw [step_of_fetch_none hs hcmd, step_of_fetch_none (hrun.trans hs) (hfetch.trans hcmd)]
      change rel (raise (.malformedProgram (.missingInstruction s.pc)) s)
        (raise (.malformedProgram (.missingInstruction t.pc)) t)
      rw [hpc]
      exact hraise _
    | some cmd =>
      rw [step_of_fetch_some hs hcmd, step_of_fetch_some (hrun.trans hs) (hfetch.trans hcmd)]
      cases hclassify : classify cmd with
      | ok i =>
        rw [runCommand_of_ok hclassify, runCommand_of_ok hclassify]
        exact hexec i
      | error reject =>
        simp only [runCommand, hclassify]
        cases reject
        · simp only [raiseReject, raiseUnknown, hpc]; exact hraise _
        · simp only [raiseReject, raiseUnsupported, hpc]; exact hraise _

/-- Instructions of which the micro-programs and the ends keep a relation have related outcomes. -/
theorem sameOutcome_exec {rel : State → State → Prop} {i : Instr} {s t : State} (hpc : t.pc = s.pc)
    (htransfer : transferOf t i = transferOf s i) (hraise : ∀ f, rel (raise f s) (raise f t))
    (hmicros : ∀ p, microsOf i = some p → rel (runMicros p s) (runMicros p t))
    (hend : ∀ x u v, rel u v → rel (transferControl x (countStep u)) (transferControl x (countStep v))) :
    SameOutcome rel (exec i s) (exec i t) := by
  rw [exec_eq, exec_eq, htransfer]
  cases hp : microsOf i with
  | none => simp only [Option.elim, unsupported, raiseUnsupported, hpc]; exact hraise _
  | some p => exact hend _ _ _ (hmicros p hp)

theorem AgreeOn.raise {regs : List RegName} {s t : State} (h : AgreeOn regs s t) (f : CoreFault) :
    AgreeOn regs (raise f s) (raise f t) :=
  { h with control := ⟨h.control.1, rfl, h.control.2.2⟩ }

/-- A control transfer is decided by the program, `pc` and `RUN` (41_control_unit.md R110). -/
theorem transferControl_congr {u v : State} (x : Transfer) (hprog : v.prog = u.prog) (hpc : v.pc = u.pc)
    (hrun : v.run = u.run) :
    (transferControl x v).pc = (transferControl x u).pc ∧ (transferControl x v).run = (transferControl x u).run := by
  have hnext : v.nextAddress = u.nextAddress := by simp only [State.nextAddress, State.order, hprog, hpc]
  cases x with
  | advance =>
    simp only [transferControl, advance, hnext]
    cases u.nextAddress <;> simp [hpc, hrun]
  | jumpTo target => exact ⟨rfl, hrun⟩
  | halt => exact ⟨hpc, rfl⟩

theorem AgreeOn.transferControl {regs : List RegName} {u v : State} (h : AgreeOn regs u v) (x : Transfer) :
    AgreeOn regs (transferControl x (countStep u)) (transferControl x (countStep v)) := by
  obtain ⟨hpc, hrun, hicnt⟩ := h.control
  obtain ⟨hpc', hrun'⟩ := transferControl_congr (u := countStep u) (v := countStep v) x h.program hpc hrun
  exact {
    registers := by simpa using h.registers
    signals := by simpa using h.signals
    flags := by simpa using h.flags
    memory := by simpa using h.memory
    program := by simpa using h.program
    control := ⟨hpc', hrun', by simpa using hicnt⟩
    devices := by simpa using h.devices }

/-- The transfer of an instruction reads the flags N and Z alone (45_jumps.md R171 to R174). -/
theorem transferOf_congr {s t : State} (hn : t.flags.n = s.flags.n) (hz : t.flags.z = s.flags.z) (i : Instr) :
    transferOf t i = transferOf s i := by
  cases i with
  | jeI _ | jneI _ => simp only [transferOf, hz]
  | jaeI _ => simp only [transferOf, hn]
  | _ => rfl

/-- Settles O25: the visible registers, the flags and memory decide all an instruction does to them, as the data-flow
check of every micro-program says; the fetch and the transfer of control look at no register. -/
theorem hiddenRegistersCarryNothing : Obligations.HiddenRegistersCarryNothing := by
  intro s t hst
  have h : AgreeOn visibleRegs s t := (sameButHidden_iff s t).1 hst
  have hrel : SameButHidden = AgreeOn visibleRegs := funext₂ fun s t => propext (sameButHidden_iff s t)
  obtain ⟨hpc, hrun, -⟩ := h.control
  rw [hrel]
  exact sameOutcome_step hrun h.program hpc h.raise fun i =>
    sameOutcome_exec hpc (transferOf_congr (congrArg Flags.n h.flags) (congrArg Flags.z h.flags) i) h.raise
      (fun p hp => h.runMicros (readsWithin_microsOf hp)) fun x u v huv => huv.transferControl x

end Sys2Proof.Machine
end

section
/-! PROOFS. The flags V and C steer nothing (10_state.md R15, R16): a check of the micro-programs that ADD, the one
operation that reads C, comes behind the clearing of C. -/

namespace Sys2Proof.Machine

/-! ## States that differ in V and C -/

theorem sameButVC_iff (s t : State) :
    SameButVC s t ↔ ∃ f : Flags, f.n = s.flags.n ∧ f.z = s.flags.z ∧ t = setFlags f s := by
  constructor
  · rintro ⟨hregs, hbus, ⟨hn, hz⟩, hmem, hprog, ⟨hpc, hrun, hicnt⟩, hinbuf, hcur, hlog⟩
    exact ⟨t.flags, hn, hz, State.ext_reg (fun q => by simp [State.reg, hregs]) hbus rfl hmem hprog hpc hrun hicnt
      hinbuf hcur hlog⟩
  · rintro ⟨f, hn, hz, rfl⟩
    exact ⟨rfl, rfl, ⟨hn, hz⟩, rfl, rfl, ⟨rfl, rfl, rfl⟩, rfl, rfl, rfl⟩

/-- No transfer looks at a flag. -/
theorem transfer_setFlags (f : Flags) (s : State) : transfer (setFlags f s) = setFlags f (transfer s) := by
  have hlatch : ∀ v t r, latch v (setFlags f t) r = setFlags f (latch v t r) := fun v t r => by
    by_cases hin : (t.reg r).inputEnable = true
    · simp only [latch, reg_setFlags, hin, if_true]; rfl
    · simp [latch, hin]
  have hdriver : busDriver (setFlags f s) = busDriver s := rfl
  cases hd : busDriver s with
  | none => rw [transfer_of_noDriver hd, transfer_of_noDriver (hdriver.trans hd)]
  | some d =>
    rw [transfer_of_driver hd, transfer_of_driver (hdriver.trans hd)]
    exact List.foldl_hom (setFlags f) (hlatch (s.val d)) (init := setBus (s.val d) s)

theorem move_setFlags (src dst : RegName) (f : Flags) (s : State) :
    move src dst (setFlags f s) = setFlags f (move src dst s) :=
  congrArg (fun t => closeIn dst (closeOut src t)) (transfer_setFlags f (openIn dst (openOut src s)))

theorem sourceHook_setFlags (f : Flags) (s : State) : sourceHook (setFlags f s) = setFlags f (sourceHook s) := by
  have hchar : (setFlags f s).inbuf[(setFlags f s).cur]? = s.inbuf[s.cur]? := rfl
  simp only [sourceHook, hchar]
  cases s.inbuf[s.cur]? <;> rfl

theorem transferControl_setFlags (x : Transfer) (f : Flags) (s : State) :
    transferControl x (setFlags f s) = setFlags f (transferControl x s) := by
  have hnext : (setFlags f s).nextAddress = s.nextAddress := rfl
  cases x with
  | advance =>
    simp only [transferControl, advance, hnext]
    cases s.nextAddress <;> rfl
  | _ => rfl

/-! ## What a micro-operation does to two such states -/

/-- Two states that differ at most in V and C, and in V alone where C is known. -/
def SameButV (carryKnown : Bool) (s t : State) : Prop :=
  ∃ f : Flags, f.n = s.flags.n ∧ f.z = s.flags.z ∧ (carryKnown = true → f.c = s.flags.c) ∧ t = setFlags f s

/-- Whether C is the same in both states behind a micro-operation. -/
def Micro.carryKnown (known : Bool) : Micro → Bool
  | .clearC => true
  | _ => known

/-- A micro-operation that adds with the carry flag, which must be known. -/
def Micro.carryReady (known : Bool) : Micro → Bool
  | .alu .add => known
  | _ => true

/-- An operation computes the same from two settings of the flags, if it is not ADD or C is the same in both; and it
makes no difference in N, Z and C that was not there. -/
theorem alu_setFlags {op : AluOp} {known : Bool} {f g : Flags} (hop : op = .add → known = true) (hn : f.n = g.n)
    (hz : f.z = g.z) (hc : known = true → f.c = g.c) (l r : Byte) :
    aluResult op l r f.c = aluResult op l r g.c ∧ (aluFlags op .nzvc l r f).n = (aluFlags op .nzvc l r g).n ∧
      (aluFlags op .nzvc l r f).z = (aluFlags op .nzvc l r g).z ∧
      (known = true → (aluFlags op .nzvc l r f).c = (aluFlags op .nzvc l r g).c) := by
  have hinputs : aluInputs op l r f.c = aluInputs op l r g.c := by
    cases op with
    | add => rw [hc (hop rfl)]
    | _ => rfl
  have hresult : aluResult op l r f.c = aluResult op l r g.c := by simp only [aluResult, hinputs]
  exact ⟨hresult, by simp only [aluFlags, hresult, hn], by simp only [aluFlags, hresult, hz],
    fun hk => by simp only [aluFlags, hc hk]⟩

theorem SameButV.apply {known : Bool} {s t : State} {m : Micro} (h : SameButV known s t)
    (hready : m.carryReady known = true) : SameButV (m.carryKnown known) (m.apply s) (m.apply t) := by
  obtain ⟨f, hn, hz, hc, rfl⟩ := h
  cases m with
  | alu op =>
    have hop : op = .add → known = true := fun h => by simpa [Micro.carryReady, h] using hready
    obtain ⟨hresult, hn', hz', hc'⟩ := alu_setFlags hop hn hz hc (s.val .lop) (s.val .rop)
    exact ⟨_, hn', hz', hc', congrArg (fun v => setFlags _ (setReg .res v s)) hresult⟩
  | clearC => exact ⟨{ f with c := false }, hn, hz, fun _ => rfl, rfl⟩
  | move src dst => exact ⟨f, by simpa [Micro.apply] using hn, by simpa [Micro.apply] using hz,
      by simpa [Micro.apply, Micro.carryKnown] using hc, move_setFlags src dst f s⟩
  | hook p =>
    cases p with
    | source => exact ⟨f, by simpa [Micro.apply, hook] using hn, by simpa [Micro.apply, hook] using hz,
        by simpa [Micro.apply, hook, Micro.carryKnown] using hc, sourceHook_setFlags f s⟩
    | sink => exact ⟨f, hn, hz, hc, rfl⟩
  | _ => exact ⟨f, hn, hz, hc, rfl⟩

/-! ## The check -/

/-- A micro-program adds with the carry flag only where C is known. -/
def carryClean : Bool → List Micro → Bool
  | _, [] => true
  | known, m :: p => m.carryReady known && carryClean (m.carryKnown known) p

theorem SameButV.runMicros : ∀ {p : List Micro} {known : Bool} {s t : State}, SameButV known s t →
    carryClean known p = true → SameButVC (runMicros p s) (runMicros p t)
  | [], _, _, _, ⟨f, hn, hz, _, ht⟩, _ => (sameButVC_iff _ _).2 ⟨f, hn, hz, ht⟩
  | m :: p, known, s, t, h, hp => by
    obtain ⟨hready, hrest⟩ : m.carryReady known = true ∧ carryClean (m.carryKnown known) p = true := by
      simpa [carryClean] using hp
    have hgoesOn : m.goesOn t = m.goesOn s := by
      obtain ⟨f, -, hz, -, rfl⟩ := h
      cases m with
      | exitUnlessZ => exact hz
      | _ => rfl
    simp only [Machine.runMicros, hgoesOn]
    split
    · exact (h.apply hready).runMicros hrest
    · obtain ⟨f, hn, hz, -, rfl⟩ := h
      exact (sameButVC_iff _ _).2 ⟨f, hn, hz, rfl⟩

/-- ADD1 and ADD clear C before they add; nothing else reads it (10_state.md R15, R16). -/
theorem carryClean_microsOf {i : Instr} {p : List Micro} (h : microsOf i = some p) : carryClean false p = true := by
  cases i with
  | movRI k _ | movRM k _ | add1RI k _ | cmpRI k _ | shlRI k _ | shrRI k _ | incR k | decR k | inI k | outI k =>
    obtain ⟨r, -, rfl⟩ := Option.map_eq_some_iff.1 h
    rfl
  | ldRR a k | stRR a k =>
    obtain ⟨ra, -, h⟩ := Option.bind_eq_some_iff.1 h
    obtain ⟨rt, -, rfl⟩ := Option.map_eq_some_iff.1 h
    rfl
  | _ => cases h; rfl

/-- Settles O26: no micro-program reads V, or C before it has cleared it, and a transfer reads N and Z alone. -/
theorem overflowAndCarrySteerNothing : Obligations.OverflowAndCarrySteerNothing := by
  intro s t h
  obtain ⟨f, hn, hz, rfl⟩ := (sameButVC_iff s t).1 h
  have hraise : ∀ c, SameButVC (raise c s) (raise c (setFlags f s)) := fun c =>
    (sameButVC_iff _ _).2 ⟨f, hn, hz, rfl⟩
  refine sameOutcome_step rfl rfl rfl hraise fun i => sameOutcome_exec rfl (transferOf_congr hn hz i) hraise
    (fun p hp => ?micros) fun x u v huv => ?ends
  case micros => exact SameButV.runMicros ⟨f, hn, hz, Bool.noConfusion, rfl⟩ (carryClean_microsOf hp)
  case ends =>
    obtain ⟨g, hgn, hgz, rfl⟩ := (sameButVC_iff u v).1 huv
    exact (sameButVC_iff _ _).2
      ⟨g, by simpa using hgn, by simpa using hgz, transferControl_setFlags x g (countStep u)⟩

end Sys2Proof.Machine
end

section
/-! PROOFS. Register assignment, the ALU's sums, shifts and logic, the device hooks, and the form of data memory
(40_datapath_alu.md R81, R88 to R98; 10_state.md R19, R27, R28). -/

namespace Sys2Proof.Machine

/-! ## Assignment -/

/-- Settles O30: the sign of the number decides between truncation and the fault. -/
theorem setTruncatesAndFailsOnlyOnNegatives : Obligations.SetTruncatesAndFailsOnlyOnNegatives := by
  intro r q v s
  refine ⟨fun hv => ?truncates, fun hv => by simp [assign, hv, raise, setRun]⟩
  case truncates =>
    have hassign : assign r v s = setReg r (BitVec.ofNat 8 v.toNat) s := if_neg (Int.not_lt.2 hv)
    rw [hassign]
    exact ⟨by simp [hv], fun hq => by simp [hq], rfl⟩

/-! ## Sums -/

theorem aluFlags_add (l r : Byte) (f : Flags) :
    aluFlags .add .nzvc l r f =
      ⟨negative (aluResult .add l r f.c), decide (aluResult .add l r f.c = 0),
        (negative l == negative r) && (negative (aluResult .add l r f.c) != negative l),
        decide (256 ≤ l.toNat + r.toNat + f.c.toNat)⟩ := by
  simp [aluFlags, effectiveMask, FlagMask.nzvc, aluInputs, overflow, signBit_eq_negative, carry_eq]

theorem toNat_aluResult_add (l r : Byte) (c : Bool) :
    (aluResult .add l r c).toNat = (l.toNat + r.toNat + c.toNat) % 256 := by
  simp [aluResult, aluInputs]

/-- SUB computes as ADD of the complement with no carry in (40_datapath_alu.md R92). -/
theorem aluFlags_sub_eq_add (l r : Byte) (f : Flags) :
    aluFlags .sub .nzvc l r f = aluFlags .add .nzvc l (comp r) { f with c := false } := rfl

theorem toNat_comp (v : Byte) : (comp v).toNat = (256 - v.toNat) % 256 :=
  BitVec.toNat_ofNat ..

theorem add_comp (l r : Byte) : l + comp r = l - r := by
  apply BitVec.eq_of_toNat_eq
  rw [BitVec.toNat_add, BitVec.toNat_sub, toNat_comp]
  omega

theorem aluResult_sub (l r : Byte) (c : Bool) : aluResult .sub l r c = l - r :=
  (aluResult_add_noCarry l (comp r)).trans (add_comp l r)

theorem addFlags_comp (l r : Byte) : addFlags l (comp r) = subFlags l r := by
  have hz : l - r = 0 ↔ l = r := sub_eq_zero
  have hcomp : negative (comp r) = decide (128 ≤ (256 - r.toNat) % 256) := by rw [negative, toNat_comp]
  have hl : negative l = decide (128 ≤ l.toNat) := rfl
  have hc : 256 ≤ l.toNat + (256 - r.toNat) % 256 ↔ r ≠ 0 ∧ r.toNat ≤ l.toNat := by bv_omega
  simp only [addFlags, subFlags, add_comp, toNat_comp, hz, hcomp, hl, hc, Bool.decide_and]

theorem aluFlags_sub (l r : Byte) (f : Flags) : aluFlags .sub .nzvc l r f = subFlags l r := by
  rw [aluFlags_sub_eq_add, aluFlags_add_noCarry, addFlags_comp]

/-- The difference mod 256, as a number. -/
theorem toNat_sub_int (l r : Byte) : ((l - r).toNat : Int) = (l.toNat - r.toNat : Int) % 256 := by
  rw [BitVec.toNat_sub]
  have hl := l.isLt
  have hr := r.isLt
  omega

/-- Settles O32: ADD by its own laws, SUB by those of ADD of the complement, the masks because both honour theirs. -/
theorem aluAddsAndSubtracts : Obligations.AluAddsAndSubtracts := by
  intro s
  refine ⟨_, _, rfl, rfl, ?sum, ?carry, ?n, ?z, ?v, ?difference, ?subFlags, ?subAsAdd, fun r hr => ?others,
    fun m => ?masks⟩
  case sum => simpa using toNat_aluResult_add (s.val .lop) (s.val .rop) s.flags.c
  case carry => simp [aluFlags_add]
  case n => simp [aluFlags_add]
  case z => simp [aluFlags_add]
  case v => simp [aluFlags_add]
  case difference => simpa [aluResult_sub] using toNat_sub_int (s.val .lop) (s.val .rop)
  case subFlags => simp [aluFlags_sub]
  case subAsAdd => exact aluFlags_sub_eq_add (s.val .lop) (s.val .rop) s.flags
  case others => simp [hr]
  case masks => exact ⟨aluWith_masked (fun _ => rfl) m s, aluWith_masked (fun _ => rfl) m s⟩

/-! ## Logic -/

/-- A bitwise result of operands of one sign has that sign, and it fits the word (40_datapath_alu.md R93, R94). -/
theorem aluFlags_and (l r : Byte) (f : Flags) :
    aluFlags .and .nzvc l r f = ⟨negative (l &&& r), decide (l &&& r = 0), false, false⟩ := by
  have hv : overflow l r (l &&& r) = false := by
    simp only [overflow, signBit, BitVec.getLsbD_and]
    cases l.getLsbD (Config.width - 1) <;> cases r.getLsbD (Config.width - 1) <;> rfl
  have hc : carry (l.toNat &&& r.toNat) = false := by
    rw [← BitVec.toNat_and]
    exact decide_eq_false (Nat.not_le.2 (l &&& r).isLt)
  simp [aluFlags, effectiveMask, FlagMask.nzvc, aluResult, aluInputs, signBit_eq_negative, hv, hc]

theorem aluFlags_or (l r : Byte) (f : Flags) :
    aluFlags .or .nzvc l r f = ⟨negative (l ||| r), decide (l ||| r = 0), false, false⟩ := by
  have hv : overflow l r (l ||| r) = false := by
    simp only [overflow, signBit, BitVec.getLsbD_or]
    cases l.getLsbD (Config.width - 1) <;> cases r.getLsbD (Config.width - 1) <;> rfl
  have hc : carry (l.toNat ||| r.toNat) = false := by
    rw [← BitVec.toNat_or]
    exact decide_eq_false (Nat.not_le.2 (l ||| r).isLt)
  simp [aluFlags, effectiveMask, FlagMask.nzvc, aluResult, aluInputs, signBit_eq_negative, hv, hc]

theorem aluResult_and (l r : Byte) (c : Bool) : aluResult .and l r c = l &&& r :=
  BitVec.ofNat_toNat ..

theorem aluResult_or (l r : Byte) (c : Bool) : aluResult .or l r c = l ||| r :=
  BitVec.ofNat_toNat ..

/-- Settles O34: result and flags of each operation by its own law; shifts force their mask, AND and OR honour theirs.
-/
theorem aluShiftsAndLogic : Obligations.AluShiftsAndLogic := by
  intro s
  refine ⟨⟨?shl, ?shlFlags⟩, ⟨?shr, ?shrFlags⟩, fun m => ⟨aluWith_forced (fun _ _ => rfl) m s,
    aluWith_forced (fun _ _ => rfl) m s⟩, ?logic, fun op r hr => by simp [hr]⟩
  case shl => simp [toNat_aluResult_shl]
  case shlFlags => simp [aluFlags_shl]
  case shr => simp [toNat_aluResult_shr]
  case shrFlags => simp [aluFlags_shr]
  case logic =>
    rintro op res (⟨rfl, rfl⟩ | ⟨rfl, rfl⟩)
    · have hflags := aluFlags_and (s.val .lop) (s.val .rop) s.flags
      exact ⟨by simp [aluResult_and], hflags, fun m => hflags ▸ aluWith_masked (fun _ => rfl) m s⟩
    · have hflags := aluFlags_or (s.val .lop) (s.val .rop) s.flags
      exact ⟨by simp [aluResult_or], hflags, fun m => hflags ▸ aluWith_masked (fun _ => rfl) m s⟩

/-! ## Device hooks -/

/-- Settles O35, from the laws of the two hooks. -/
theorem hooksAdvanceAndLog : Obligations.HooksAdvanceAndLog := by
  intro s
  refine ⟨fun h => sourceHook_exhausted h, fun h => ?next, fun r hr => val_sourceHook_other s hr, ?log, rfl⟩
  case next =>
    obtain ⟨hval, hcur⟩ := sourceHook_next h
    exact ⟨by simp [hook, hval], hcur⟩
  case log => simp [hook]

/-! ## The form of data memory -/

/-- Settles O60: each operation by its law; cells beyond the address space read 0 in every canonical memory, so memories
with equal cells read alike everywhere. -/
theorem dataMemoryIsCanonical : Obligations.DataMemoryIsCanonical := by
  refine ⟨fun s a v h => ⟨by simpa using h, wf_memWrite h, wf_putCell h a v⟩, fun s t hs ht hcell =>
    Memory.ext hs ht fun a => ?_⟩
  rcases Nat.lt_or_ge a (2 ^ Config.addrWidth) with ha | ha
  · have hread : ∀ u : State, u.cell (BitVec.ofNat 8 a) = Memory.get a u.mem := fun u => by
      rw [State.cell, BitVec.toNat_ofNat, Nat.mod_eq_of_lt ha]
    rw [← hread, ← hread, hcell]
  · rw [Memory.get_above ha hs, Memory.get_above ha ht]

end Sys2Proof.Machine
end

section
/-! PROOFS. IN and OUT, and the source register that always holds the next character (44_ldst_io.md R164 to R166;
10_state.md R27, R28). -/

namespace Sys2Proof.Machine

/-! ## An access to a device -/

theorem sourceHook_of_some {s : State} {ch : Nat} (h : s.inbuf[s.cur]? = some ch) :
    (sourceHook s).val .pr0 = BitVec.ofNat 8 (ch % 256) ∧ (sourceHook s).cur = s.cur + 1 := by
  obtain ⟨hlt, rfl⟩ := List.getElem?_eq_some_iff.1 h
  obtain ⟨hval, hcur⟩ := sourceHook_next hlt
  exact ⟨hval.trans (ofNat_mod_256 _).symm, hcur⟩

theorem sourceHook_of_none {s : State} (h : s.inbuf[s.cur]? = none) :
    (sourceHook s).val .pr0 = 0 ∧ (sourceHook s).cur = s.cur :=
  sourceHook_exhausted (List.getElem?_eq_none_iff.1 h)

/-- An instruction that moves a byte and then runs the source's hook (44_ldst_io.md R164, R165). -/
theorem exec_sourceAccess {i : Instr} {src dst : RegName} {regs : List RegName} {s : State} (hs : s.wf = true)
    (hexec : exec i s = complete .advance (sourceHook (move src dst s))) (hdst : dst ∈ regs) (hpr0 : .pr0 ∈ regs) :
    ∃ t, exec i s = .next t ∧ Advanced s t ∧ (dst ≠ .pr0 → t.val dst = s.val src) ∧ t.flags = s.flags ∧
      (∀ ch, s.inbuf[s.cur]? = some ch → t.val .pr0 = BitVec.ofNat 8 (ch % 256) ∧ t.cur = s.cur + 1) ∧
      (s.inbuf[s.cur]? = none → t.val .pr0 = 0 ∧ t.cur = s.cur) ∧ t.outlog = s.outlog ∧ Frame regs [] s t := by
  have hidle := busIdle_of_wf hs
  have hothers : ∀ r, r ∉ regs → (sourceHook (move src dst s)).val r = s.val r := fun r hr => by
    have hne : r ≠ dst := fun h => hr (h ▸ hdst)
    have hne0 : r ≠ .pr0 := fun h => hr (h ▸ hpr0)
    rw [val_sourceHook_other _ hne0, val_move hidle, if_neg hne]
  obtain ⟨t, ht, hadv, hval, -, hflags, hcur, hlog, hframe⟩ := exec_advance (cells := []) hs hexec
    ((DatapathOnly.ofMove src dst s).trans (.ofHook .source _)) hothers (fun a _ => by simp [State.cell])
  have hchar : (move src dst s).inbuf[(move src dst s).cur]? = s.inbuf[s.cur]? := by simp
  refine ⟨t, ht, hadv, fun hne => ?_, ?_, fun ch h => ?_, fun h => ?_, ?_, hframe⟩
  · rw [hval, val_sourceHook_other _ hne, val_move hidle, if_pos rfl]
  · simp [hflags]
  · rw [hval, hcur]; simpa using sourceHook_of_some (hchar.trans h)
  · rw [hval, hcur]; simpa using sourceHook_of_none (hchar.trans h)
  · simp [hlog]

/-- An instruction that moves a byte and then runs the sink's hook (44_ldst_io.md R164, R165). -/
theorem exec_sinkAccess {i : Instr} {src dst : RegName} {s : State} (hs : s.wf = true)
    (hexec : exec i s = complete .advance (sinkHook (move src dst s))) :
    ∃ t, exec i s = .next t ∧ Advanced s t ∧ t.val dst = s.val src ∧ t.flags = s.flags ∧
      t.outlog = s.outlog ++ [if .pr1 = dst then s.val src else s.val .pr1] ∧ t.cur = s.cur ∧ Frame [dst] [] s t := by
  have hidle := busIdle_of_wf hs
  have hothers : ∀ r, r ∉ [dst] → (sinkHook (move src dst s)).val r = s.val r := fun r hr => by
    simp [hidle, List.mem_singleton.not.1 hr]
  obtain ⟨t, ht, hadv, hval, -, hflags, hcur, hlog, hframe⟩ := exec_advance (cells := []) hs hexec
    ((DatapathOnly.ofMove src dst s).trans (.ofHook .sink _)) hothers (fun a _ => by simp [State.cell])
  exact ⟨t, ht, hadv, by simp [hval, hidle], by simp [hflags], by simp [hlog, hidle], by simp [hcur], hframe⟩

theorem port_of_wf {i : Instr} (hwf : i.wf = true) {p : Byte} (hp : p ∈ i.portOperands) : p = 0 ∨ p = 1 := by
  obtain ⟨-, hports⟩ : i.regsNamed = true ∧ i.portsNamed = true := by simpa [Instr.wf] using hwf
  have hlt : p.toNat < 2 := of_decide_eq_true (List.all_eq_true.1 hports p hp)
  bv_omega

/-- Settles O58: a move from the device register, then the device's hook. -/
theorem inReadsThePort : Obligations.InReadsThePort := by
  refine ⟨fun p x => encodedAs_of_modeFields rfl (modeFields_imm x) (Laws.Form.inI p),
    fun s hs => ⟨?source, ?sink⟩, rejectsOthers_of_forms (m := .IN) fun i hm hwf => ?forms⟩
  case source =>
    obtain ⟨t, ht, hadv, hior, hrest⟩ := exec_sourceAccess (i := .inI 0) (src := .pr0) (dst := .ior)
      (regs := [.ior, .pr0]) hs rfl (by simp) (by simp)
    exact ⟨t, ht, hadv, hior (by decide), hrest⟩
  case sink => exact exec_sinkAccess (i := .inI 1) (src := .pr1) (dst := .ior) hs rfl
  case forms =>
    cases i with
    | inI p => rcases port_of_wf hwf (p := p) List.mem_cons_self with rfl | rfl <;> simp [Instr.operands]
    | _ => cases hm

/-- Settles O59: a move to the device register, then the device's hook, which on the source overwrites it. -/
theorem outWritesThePort : Obligations.OutWritesThePort := by
  refine ⟨fun p x => encodedAs_of_modeFields rfl (modeFields_imm x) (Laws.Form.outI p),
    fun s hs => ⟨?sink, ?source⟩, rejectsOthers_of_forms (m := .OUT) fun i hm hwf => ?forms⟩
  case source =>
    obtain ⟨t, ht, hadv, -, hrest⟩ := exec_sourceAccess (i := .outI 0) (src := .ior) (dst := .pr0) (regs := [.pr0])
      hs rfl (by simp) (by simp)
    exact ⟨t, ht, hadv, hrest⟩
  case sink => exact exec_sinkAccess (i := .outI 1) (src := .ior) (dst := .pr1) hs rfl
  case forms =>
    cases i with
    | outI p => rcases port_of_wf hwf (p := p) List.mem_cons_self with rfl | rfl <;> simp [Instr.operands]
    | _ => cases hm

/-! ## The source register -/

/-- A loaded source has delivered some number of characters. -/
theorem sourceLoaded_iff (s : State) : s.sourceLoaded ↔ ∃ n, s.delivered n := by
  constructor
  · rintro (⟨hcur, hval⟩ | ⟨n, ch, hcur, hch, hval⟩)
    · exact ⟨s.inbuf.length, .inl ⟨Nat.le_refl _, hcur, hval⟩⟩
    · exact ⟨n, .inr ⟨ch, hch, hcur, hval.trans (ofNat_mod_256 ch).symm⟩⟩
  · rintro ⟨n, ⟨-, hcur, hval⟩ | ⟨ch, hch, hcur, hval⟩⟩
    · exact .inl ⟨hcur, hval⟩
    · exact .inr ⟨n, ch, hcur, hch, hval.trans (ofNat_mod_256 ch)⟩

theorem delivered_start (cmds : List Command) (image : List Byte) (input : List Nat) :
    (start cmds image input).delivered 0 := by
  cases input with
  | nil => exact .inl ⟨Nat.le_refl 0, rfl, rfl⟩
  | cons ch rest =>
    obtain ⟨hval, hcur⟩ := start_source cmds image ch rest
    exact .inr ⟨ch, rfl, hcur, hval.trans (ofNat_mod_256 ch).symm⟩

/-- A state whose source register was loaded by the hook at a cursor inside the input. -/
theorem delivered_of_hook {s t : State} (hcur : s.cur ≤ s.inbuf.length) (hinbuf : t.inbuf = s.inbuf)
    (hnext : ∀ ch, s.inbuf[s.cur]? = some ch → t.val .pr0 = BitVec.ofNat 8 (ch % 256) ∧ t.cur = s.cur + 1)
    (hend : s.inbuf[s.cur]? = none → t.val .pr0 = 0 ∧ t.cur = s.cur) : t.delivered s.cur := by
  cases hch : s.inbuf[s.cur]? with
  | none =>
    obtain ⟨hval, htcur⟩ := hend hch
    have hlen := List.getElem?_eq_none_iff.1 hch
    exact .inl ⟨by rwa [hinbuf], by rw [htcur, hinbuf]; omega, hval⟩
  | some ch =>
    obtain ⟨hval, htcur⟩ := hnext ch hch
    exact .inr ⟨ch, by rwa [hinbuf], htcur, hval⟩

/-- Every instruction keeps the source loaded: those on port 0 load it, the others leave it alone. -/
theorem sourceLoaded_exec {i : Instr} {s t : State} (hs : s.wf = true) (hloaded : s.sourceLoaded)
    (hinbuf : t.inbuf = s.inbuf) (h : exec i s = .next t) : t.sourceLoaded := by
  obtain ⟨-, -, -, hcur⟩ := (wf_iff s).1 hs
  by_cases hport : i = .inI 0 ∨ i = .outI 0
  case neg =>
    have htcur : t.cur = s.cur := (devices_exec h).1 fun hmem => hport (mem_accessedPorts.1 hmem)
    have hval : t.val .pr0 = s.val .pr0 :=
      (onlyListedRegistersChange i s t (busIdle_of_wf hs) h).2 _ fun hmem => hport (device_mem_writtenRegs.1 hmem)
    simpa only [State.sourceLoaded, htcur, hval, hinbuf] using hloaded
  case pos =>
    rw [sourceLoaded_iff]
    rcases hport with rfl | rfl
    · obtain ⟨u, hu, -, -, -, hnext, hend, -⟩ := (inReadsThePort.2.1 s hs).1
      obtain rfl := Host.Outcome.next.inj (h.symm.trans hu)
      exact ⟨_, delivered_of_hook hcur hinbuf hnext hend⟩
    · obtain ⟨u, hu, -, -, hnext, hend, -⟩ := (outWritesThePort.2.1 s hs).2
      obtain rfl := Host.Outcome.next.inj (h.symm.trans hu)
      exact ⟨_, delivered_of_hook hcur hinbuf hnext hend⟩

/-- IN #0 hands over the character the source register holds and loads the one after it (10_state.md R27). -/
theorem in_delivers {s : State} {n : Nat} (hs : s.wf = true) (hn : s.delivered n) :
    ∃ t, exec (.inI 0) s = .next t ∧ t.delivered (n + 1) ∧
      (∀ ch, s.inbuf[n]? = some ch → t.val .ior = BitVec.ofNat 8 (ch % 256)) ∧
      (n + 1 < s.inbuf.length → t.cur = s.cur + 1) ∧ (n + 1 = s.inbuf.length → t.cur = s.cur ∧ t.val .pr0 = 0) ∧
      (s.inbuf.length ≤ n → t.val .ior = 0 ∧ t.cur = s.cur) := by
  obtain ⟨-, -, -, hcur⟩ := (wf_iff s).1 hs
  obtain ⟨t, ht, -, hior, -, hnext, hend, -, hframe⟩ := (inReadsThePort.2.1 s hs).1
  have hdelivered := delivered_of_hook hcur hframe.input hnext hend
  refine ⟨t, ht, ?_⟩
  rcases hn with ⟨hlen, hatEnd, hval⟩ | ⟨ch, hch, hatNext, hval⟩
  case inl =>
    obtain ⟨hpr0, htcur⟩ := hend (List.getElem?_eq_none (Nat.le_of_eq hatEnd.symm))
    refine ⟨.inl ⟨?_, ?_, hpr0⟩, fun ch hch => ?_, fun h => ?_, fun h => ?_, fun _ => ⟨hior.trans hval, htcur⟩⟩
    · rw [hframe.input]; exact Nat.le_succ_of_le hlen
    · rw [htcur, hframe.input, hatEnd]
    · rw [List.getElem?_eq_none hlen] at hch; cases hch
    · omega
    · omega
  case inr =>
    have hlt : n < s.inbuf.length := (List.getElem?_eq_some_iff.1 hch).1
    refine ⟨hatNext ▸ hdelivered, fun c hc => ?_, fun h => ?_, fun h => ?_, fun h => absurd hlt (Nat.not_lt.2 h)⟩
    · obtain rfl : ch = c := Option.some.inj (hch.symm.trans hc)
      exact hior.trans hval
    · exact (hnext _ (List.getElem?_eq_getElem (hatNext ▸ h))).2
    · exact (hend (List.getElem?_eq_none (by omega))).symm

/-- Settles O18: the load primes the source; each instruction loads it or leaves it alone; and IN #0 is its law. -/
theorem sourceHoldsTheNextCharacter : Obligations.SourceHoldsTheNextCharacter := by
  refine ⟨fun stream image input hrun => ?primed, fun s t hs hloaded h => ?kept, sourceLoaded_iff,
    fun s n hs hn => in_delivers hs hn⟩
  case primed =>
    rcases construct_cases stream image input with ⟨e, h⟩ | ⟨e, cmds, -, h⟩ | ⟨c, cmds, -, -, h⟩
    · rw [h, run_loadFault] at hrun; cases hrun
    · rw [h, run_loadFault] at hrun; cases hrun
    · have hdelivered := delivered_start (c :: cmds) image input
      rw [h]
      exact ⟨(sourceLoaded_iff _).2 ⟨0, hdelivered⟩, hdelivered⟩
  case kept =>
    obtain ⟨-, -, hinbuf⟩ := stepKeepsProgramAndInput s t h
    rcases step_cases h with ⟨f, rfl⟩ | ⟨i, u, hexec, -, -⟩
    · exact hloaded
    · exact sourceLoaded_exec hs hloaded hinbuf hexec

end Sys2Proof.Machine
end

section
/-! PROOFS. MOV: a byte goes through AC and BR to a register or a cell (42_mov.md R125 to R127). -/

namespace Sys2Proof.Machine

/-- A byte has reached AC and BR, by way of the given registers; memory, flags and devices are as before
(42_mov.md R125). -/
structure Routed (v : Byte) (regs : List RegName) (s u : State) : Prop where
  datapath : DatapathOnly s u
  ac : u.val .ac = v
  br : u.val .br = v
  others : ∀ q, q ∉ regs → u.val q = s.val q
  cells : ∀ a, u.cell a = s.cell a
  flags : u.flags = s.flags
  devices : SameDevices s u

theorem routed_routeImm {s : State} (h : s.busIdle = true) (v : Byte) : Routed v [.ac, .br] s (routeImm v s) where
  datapath := .ofRouteImm v s
  ac := by simp [h]
  br := by simp [h]
  others q hq := by
    simp only [List.mem_cons, List.not_mem_nil, or_false, not_or] at hq
    simp [h, hq]
  cells := by simp
  flags := by simp
  devices := by simp [SameDevices]

theorem routed_routeCell {s : State} (h : s.busIdle = true) (a : Byte) :
    Routed (s.cell a) [.ac, .br, .mar, .mdr] s (routeCell a s) where
  datapath := .ofRouteCell a s
  ac := by simp [h]
  br := by simp [h]
  others q hq := by
    simp only [List.mem_cons, List.not_mem_nil, or_false, not_or] at hq
    simp [h, hq]
  cells := by simp
  flags := by simp
  devices := by simp [SameDevices]

/-- The destination phase for a register, be that BR or AC itself (42_mov.md R125, R126). -/
theorem exec_deliverReg {i : Instr} {v : Byte} {r : RegName} {regs : List RegName} {s u : State} (hs : s.wf = true)
    (hexec : exec i s = complete .advance (move .br r u)) (hu : Routed v regs s u) :
    ∃ t, exec i s = .next t ∧ Advanced s t ∧ t.val r = v ∧ t.val .ac = v ∧ t.val .br = v ∧
      (∀ q, q ≠ r → t.val q = u.val q) ∧ t.flags = s.flags ∧ SameDevices s t ∧ Frame (regs ++ [r]) [] s t := by
  have hidle := hu.datapath.busIdle (busIdle_of_wf hs)
  have hothers : ∀ q, q ∉ regs ++ [r] → (move .br r u).val q = s.val q := fun q hq => by
    obtain ⟨hregs, hr⟩ : q ∉ regs ∧ q ≠ r := by simpa using hq
    rw [val_move hidle, if_neg hr, hu.others q hregs]
  obtain ⟨t, ht, hadv, hval, -, hflags, hcur, hlog, hframe⟩ := exec_advance (cells := []) hs hexec
    (hu.datapath.trans (.ofMove .br r u)) hothers (fun a _ => by simp [hu.cells])
  obtain ⟨hucur, hulog⟩ := hu.devices
  refine ⟨t, ht, hadv, ?_, ?_, ?_, fun q hq => ?others, ?_, ⟨?_, ?_⟩, hframe⟩
  case others => rw [hval, val_move hidle, if_neg hq]
  all_goals simp [hval, hflags, hcur, hlog, hidle, hu.ac, hu.br, hu.flags, hucur, hulog]

/-- Settles O40: the byte is routed, then leaves BR for the register; MAR and MDR, which no operand names, keep what the
routing of a cell left there. -/
theorem movToRegister : Obligations.MovToRegister := by
  intro k src r s hs hk
  have hidle := busIdle_of_wf hs
  obtain ⟨hmar, hmdr⟩ := ne_mar_mdr_of_named hk
  refine ⟨?immediate, ?memory⟩
  case immediate =>
    have hexec : exec (.movRI k src) s = complete .advance (move .br r (routeImm src s)) := by
      simp [exec, execMovRI, deliverReg, hk]
    obtain ⟨t, ht, hadv, hr, hac, hbr, -, hrest⟩ := exec_deliverReg hs hexec (routed_routeImm hidle src)
    exact ⟨t, ht, hadv, hr, hac, hbr, hrest⟩
  case memory =>
    have hexec : exec (.movRM k src) s = complete .advance (move .br r (routeCell src s)) := by
      simp [exec, execMovRM, deliverReg, hk]
    obtain ⟨t, ht, hadv, hr, hac, hbr, hothers, hrest⟩ := exec_deliverReg hs hexec (routed_routeCell hidle src)
    exact ⟨t, ht, hadv, hr, hac, hbr, by simp [hothers _ hmar.symm, hidle], by simp [hothers _ hmdr.symm, hidle], hrest⟩

/-- The destination phase for a cell (42_mov.md R125, R126). -/
theorem exec_deliverCell {i : Instr} {d v : Byte} {regs : List RegName} {s u : State} (hs : s.wf = true)
    (hexec : exec i s = complete .advance (storeCell d .br u)) (hu : Routed v regs s u)
    (hregs : regs ⊆ [.ac, .br, .mar, .mdr]) :
    ∃ t, exec i s = .next t ∧ Advanced s t ∧ t.cell d = v ∧ t.val .ac = v ∧ t.val .br = v ∧ t.val .mar = d ∧
      t.val .mdr = v ∧ t.flags = s.flags ∧ SameDevices s t ∧ Frame [.ac, .br, .mar, .mdr] [d] s t := by
  have hidle := hu.datapath.busIdle (busIdle_of_wf hs)
  have hwf := hu.datapath.memWf (memWf_of_wf hs)
  have hothers : ∀ q, q ∉ [.ac, .br, .mar, .mdr] → (storeCell d .br u).val q = s.val q := fun q hq => by
    rw [← hu.others q fun hmem => hq (hregs hmem)]
    simp only [List.mem_cons, List.not_mem_nil, or_false, not_or] at hq
    simp [hidle, hq]
  have hcells : ∀ a, a ∉ [d] → (storeCell d .br u).cell a = s.cell a := fun a ha => by
    simp [hidle, hwf, List.mem_singleton.not.1 ha, hu.cells]
  obtain ⟨t, ht, hadv, hval, hcell, hflags, hcur, hlog, hframe⟩ := exec_advance hs hexec
    (hu.datapath.trans (.ofStoreCell d .br u)) hothers hcells
  obtain ⟨hucur, hulog⟩ := hu.devices
  refine ⟨t, ht, hadv, ?_, ?_, ?_, ?_, ?_, ?_, ⟨?_, ?_⟩, hframe⟩
  all_goals simp [hval, hcell, hflags, hcur, hlog, hidle, hwf, hu.ac, hu.br, hu.flags, hucur, hulog]

/-- Settles O41: the four forms are two routings with one destination phase; the source cell is read by the routing. -/
theorem movToMemory : Obligations.MovToMemory := by
  intro d src v i s hs hi
  have himm := routed_routeImm (busIdle_of_wf hs) src
  have hcell := routed_routeCell (busIdle_of_wf hs) src
  rcases hi with ⟨rfl, rfl⟩ | ⟨rfl, rfl⟩ | ⟨rfl, rfl⟩ | ⟨rfl, rfl⟩
  · exact exec_deliverCell hs rfl himm (by simp)
  · exact exec_deliverCell hs rfl himm (by simp)
  · exact exec_deliverCell hs rfl hcell (by simp)
  · exact exec_deliverCell hs rfl hcell (by simp)

end Sys2Proof.Machine
end

section
/-! PROOFS. The instructions on 32-bit values, limb by limb: what four stores one after the other leave in memory, and
the rounds of MOV4 and ADD (42_mov.md R128 to R130; 43_arith.md R142, R143). -/

namespace Sys2Proof.Machine

/-! ## The frame of an instruction that advances -/

theorem Frame.mono {regs regs' : List RegName} {cells : List Byte} {s t : State} (h : Frame regs cells s t)
    (hsub : regs ⊆ regs') : Frame regs' cells s t :=
  { h with registers := fun r hr => h.registers r fun hmem => hr (hsub hmem) }

/-- As `exec_advance`, with the registers listed for the instruction as its frame. -/
theorem exec_advance_listed {i : Instr} {s u : State} {cells : List Byte} (hs : s.wf = true)
    (hexec : exec i s = complete .advance u) (hu : DatapathOnly s u) (hcells : ∀ a, a ∉ cells → u.cell a = s.cell a) :
    ∃ t, exec i s = .next t ∧ Advanced s t ∧ (∀ r, t.val r = u.val r) ∧ t.cell = u.cell ∧ t.flags = u.flags ∧
      t.cur = u.cur ∧ t.outlog = u.outlog ∧ Frame (writtenRegs i) cells s t := by
  obtain ⟨-, hregs⟩ := onlyListedRegistersChange i s _ (busIdle_of_wf hs) hexec
  exact exec_advance hs hexec hu (fun r hr => by simpa using hregs r hr) hcells

/-! ## Addresses of limbs -/

theorem add_ofNat_succ (a : Byte) (i : Nat) : a + BitVec.ofNat 8 i + 1#8 = a + BitVec.ofNat 8 (i + 1) := by
  rw [BitVec.add_assoc, BitVec.ofNat_add]

theorem add_ofNat_inj {a : Byte} {i j : Nat} (hi : i < 256) (hj : j < 256)
    (h : a + BitVec.ofNat 8 i = a + BitVec.ofNat 8 j) : i = j := by
  have hnat := congrArg BitVec.toNat (add_left_cancel h)
  simpa [Nat.mod_eq_of_lt hi, Nat.mod_eq_of_lt hj] using hnat

theorem mem_fourCells_iff (a d : Byte) : a ∈ fourCells d ↔ ∃ i : Nat, i < 4 ∧ a = d + BitVec.ofNat 8 i := by
  constructor
  · intro h
    simp only [fourCells, List.mem_cons, List.not_mem_nil, or_false] at h
    rcases h with rfl | rfl | rfl | rfl
    · exact ⟨0, by decide, (BitVec.add_zero a).symm⟩
    · exact ⟨1, by decide, rfl⟩
    · exact ⟨2, by decide, rfl⟩
    · exact ⟨3, by decide, rfl⟩
  · rintro ⟨i, hi, rfl⟩
    interval_cases i <;> simp [fourCells]

/-! ## Stores to consecutive cells -/

section
variable {m : Nat → Byte → Byte} {d : Byte} {w : Nat → Byte}
  (hm : ∀ i, m (i + 1) = Function.update (m i) (d + BitVec.ofNat 8 i) (w i))
include hm

/-- A cell that has not been stored to reads as at first. -/
theorem stores_elsewhere {a : Byte} : ∀ {i : Nat}, (∀ j < i, a ≠ d + BitVec.ofNat 8 j) → m i a = m 0 a
  | 0, _ => rfl
  | i + 1, h => by
    rw [hm, Function.update_of_ne (h i (Nat.lt_succ_self i)),
      stores_elsewhere fun j hj => h j (hj.trans (Nat.lt_succ_self i))]

/-- A cell that has been stored to holds what was stored, as long as the addresses have not wrapped around. -/
theorem stores_here {j : Nat} : ∀ {i : Nat}, j < i → i ≤ 256 → m i (d + BitVec.ofNat 8 j) = w j
  | i + 1, hj, hi => by
    rw [hm]
    obtain rfl | hlt := Nat.eq_or_lt_of_le (Nat.le_of_lt_succ hj)
    · exact Function.update_self ..
    · have hne : d + BitVec.ofNat 8 j ≠ d + BitVec.ofNat 8 i := fun h =>
        hlt.ne (add_ofNat_inj (hlt.trans hi) hi h)
      rw [Function.update_of_ne hne, stores_here hlt (Nat.le_of_succ_le hi)]

theorem stores_four_elsewhere {a : Byte} (ha : a ∉ fourCells d) : m 4 a = m 0 a :=
  stores_elsewhere hm fun j hj h => ha ((mem_fourCells_iff a d).2 ⟨j, hj, h⟩)

/-- Where no stored cell is a later limb of a source, its limbs are read as at first (42_mov.md R129, 43_arith.md
R143). -/
theorem limbIn_stores {src : LimbSource} (hsrc : noFeedback d src) {i : Nat} (hi : i < 4) :
    limbIn (m i) src i = limbIn (m 0) src i := by
  cases src with
  | imm v => rfl
  | mem base =>
    obtain ⟨h1, h2, h3⟩ := hsrc
    refine stores_elsewhere hm fun j hj h => ?_
    interval_cases i <;> interval_cases j <;> bv_omega

end

/-- The 32-bit value of four limbs, the low one first (20_memory.md R46). -/
def limbsValue (w : Nat → Nat) : Nat := w 0 + 2 ^ 8 * w 1 + 2 ^ 16 * w 2 + 2 ^ 24 * w 3

theorem cell4_of_cells {s : State} {a : Byte} {w : Nat → Byte} (h : ∀ i < 4, s.cell (a + BitVec.ofNat 8 i) = w i) :
    s.cell4 a = limbsValue fun i => (w i).toNat := by
  have h0 : s.cell a = w 0 := by simpa using h 0 (by decide)
  rw [State.cell4, limbsValue, h0, ← h 1 (by decide), ← h 2 (by decide), ← h 3 (by decide)]
  rfl

theorem sourceValue_eq (s : State) (src : LimbSource) :
    sourceValue s src = limbsValue fun i => (limbIn s.cell src i).toNat := by
  cases src with
  | imm v => simp [sourceValue, limbIn, limbsValue]
  | mem base => exact cell4_of_cells (w := limbIn s.cell (.mem base)) fun _ _ => rfl

/-! ## The address registers of a source -/

/-- Where a source's address register stands in a round; that of an immediate stays what it was. -/
def sourceAddress (old : Byte) : LimbSource → Nat → Byte
  | .mem base, i => base + BitVec.ofNat 8 i
  | .imm _, _ => old

theorem stepped_sourceAddress (old : Byte) (src : LimbSource) (i : Nat) :
    stepped src (sourceAddress old src i) = sourceAddress old src (i + 1) := by
  cases src with
  | mem base => exact add_ofNat_succ base i
  | imm v => rfl

theorem val_openSource (src : LimbSource) (ar q : RegName) (s : State) :
    (openSource src ar s).val q = if q = ar then sourceAddress (s.val ar) src 0 else s.val q := by
  by_cases hq : q = ar <;> cases src <;> simp [openSource, sourceAddress, hq]

theorem limbAt_eq {src : LimbSource} {ar : RegName} {i : Nat} {old : Byte} {u : State}
    (h : u.val ar = sourceAddress old src i) : limbAt src ar i u = limbIn u.cell src i := by
  cases src with
  | mem base => exact congrArg u.cell h
  | imm v => rfl

/-! ## The rounds of MOV4 -/

/-- The state before a round of MOV4 (42_mov.md R128). -/
def mov4State (d : Byte) (src : LimbSource) (s : State) : Nat → State
  | 0 => openSource src .sar (setReg .dar d s)
  | i + 1 => mov4Step src (mov4Round src i (mov4State d src s i))

theorem mov4_eq (d : Byte) (src : LimbSource) (s : State) : mov4 d src s = mov4Round src 3 (mov4State d src s 3) := rfl

section
variable (d : Byte) (src : LimbSource) {s : State}

theorem busIdle_mov4State (h : s.busIdle = true) : ∀ i, (mov4State d src s i).busIdle = true
  | 0 => by simpa [mov4State] using h
  | i + 1 => busIdle_mov4Step (busIdle_mov4Round (busIdle_mov4State h i) src i) src

theorem wf_mov4State (h : Memory.wf s.mem = true) : ∀ i, Memory.wf (mov4State d src s i).mem = true
  | 0 => by simpa [mov4State] using h
  | i + 1 => by simpa [mov4State] using wf_mov4Round (wf_mov4State h i) src i

variable (h : s.busIdle = true)
include h

/-- Behind a round and its step: the registers of the step, and those of the round it does not write. -/
theorem val_mov4State_succ (i : Nat) (q : RegName) :
    (mov4State d src s (i + 1)).val q =
      if q = .dar ∨ q = .res then (mov4State d src s i).val .dar + 1
      else if q = .sar then stepped src ((mov4State d src s i).val .sar)
      else if q = .rop then (mov4State d src s i).val .dar
      else (mov4Round src i (mov4State d src s i)).val q := by
  have hidle := busIdle_mov4State d src h i
  simp [mov4State, val_mov4Step (busIdle_mov4Round hidle src i), val_mov4Round hidle]

theorem addresses_mov4State : ∀ i, (mov4State d src s i).val .dar = d + BitVec.ofNat 8 i ∧
    (mov4State d src s i).val .sar = sourceAddress (s.val .sar) src i
  | 0 => by simp [mov4State, val_openSource]
  | i + 1 => by
    obtain ⟨hdar, hsar⟩ := addresses_mov4State i
    simp [val_mov4State_succ d src h, hdar, hsar, add_ofNat_succ, stepped_sourceAddress]

theorem limbAt_mov4State (i : Nat) :
    limbAt src .sar i (mov4State d src s i) = limbIn (mov4State d src s i).cell src i :=
  limbAt_eq (addresses_mov4State d src h i).2

theorem flags_mov4State_succ (i : Nat) :
    (mov4State d src s (i + 1)).flags = stepFlags (d + BitVec.ofNat 8 i) (mov4State d src s i).flags.c := by
  have hidle := busIdle_mov4State d src h i
  simp [mov4State, flags_mov4Step (busIdle_mov4Round hidle src i), val_mov4Round hidle,
    (addresses_mov4State d src h i).1]

theorem carry_mov4State : ∀ i, (mov4State d src s i).flags.c = s.flags.c
  | 0 => by simp [mov4State]
  | i + 1 => by rw [flags_mov4State_succ d src h, stepFlags_c, carry_mov4State i]

/-- A round stores the limb it read, at the destination's address. -/
theorem cell_mov4Round_mov4State (hm : Memory.wf s.mem = true) (i : Nat) :
    (mov4Round src i (mov4State d src s i)).cell =
      Function.update (mov4State d src s i).cell (d + BitVec.ofNat 8 i) (limbIn (mov4State d src s i).cell src i) := by
  funext b
  rw [cell_mov4Round (busIdle_mov4State d src h i) (wf_mov4State d src hm i), limbAt_mov4State d src h,
    (addresses_mov4State d src h i).1, Function.update_apply]

end

/-- MOV4 from either source: the memories and the registers of its four rounds (42_mov.md R128, R129). -/
theorem exec_mov4 {i : Instr} {d : Byte} {src : LimbSource} {s : State} (hs : s.wf = true)
    (hexec : exec i s = complete .advance (mov4 d src s)) :
    ∃ (t : State) (m : Nat → Byte → Byte), exec i s = .next t ∧ Advanced s t ∧ m 0 = s.cell ∧
      (∀ i, m (i + 1) = Function.update (m i) (d + BitVec.ofNat 8 i) (limbIn (m i) src i)) ∧ t.cell = m 4 ∧
      (∀ r ∈ [.ac, .br, .mdr], t.val r = limbIn (m 3) src 3) ∧ t.val .sar = sourceAddress (s.val .sar) src 3 ∧
      (∀ r ∈ [.dar, .mar, .res], t.val r = d + 3) ∧ t.val .rop = d + 2 ∧ t.flags = stepFlags (d + 2) s.flags.c ∧
      SameDevices s t ∧ Frame (writtenRegs i) (fourCells d) s t := by
  have hidle := busIdle_of_wf hs
  have hround := cell_mov4Round_mov4State d src hidle (memWf_of_wf hs)
  have hcellStep : ∀ j, (mov4State d src s (j + 1)).cell = (mov4Round src j (mov4State d src s j)).cell := fun j =>
    funext fun b => cell_mov4Step src _ b
  have hcellZero : (mov4State d src s 0).cell = s.cell := funext fun b => by simp [mov4State]
  have hm : ∀ j, (mov4State d src s (j + 1)).cell = Function.update (mov4State d src s j).cell (d + BitVec.ofNat 8 j)
      (limbIn (mov4State d src s j).cell src j) := fun j => (hcellStep j).trans (hround j)
  have hcellEnd : (mov4 d src s).cell = (mov4State d src s 4).cell := (hcellStep 3).symm
  obtain ⟨hdar2, -⟩ := addresses_mov4State d src hidle 2
  obtain ⟨hdar3, hsar3⟩ := addresses_mov4State d src hidle 3
  have hlast := val_mov4Round (busIdle_mov4State d src hidle 3) src 3
  have hstep := val_mov4State_succ d src hidle 2
  obtain ⟨t, ht, hadv, hval, hcell, hflags, hcur, hlog, hframe⟩ := exec_advance_listed (cells := fourCells d) hs hexec
    (.ofMov4 d src s) fun a ha => by
      rw [hcellEnd, stores_four_elsewhere (m := fun j => (mov4State d src s j).cell) hm ha, hcellZero]
  refine ⟨t, fun j => (mov4State d src s j).cell, ht, hadv, hcellZero, hm, hcell.trans hcellEnd, ?limbs, ?source,
    ?addresses, ?rop, ?flags, ⟨by simp [hcur], by simp [hlog]⟩, hframe⟩
  case limbs =>
    simp [hval, mov4_eq, hlast, limbAt_mov4State d src hidle]
  case source => simp [hval, mov4_eq, hlast, hsar3]
  case addresses => simp [hval, mov4_eq, hlast, hdar3, hstep, hdar2, add_ofNat_succ d 2]
  case rop => simp [hval, mov4_eq, hlast, hstep, hdar2]
  case flags =>
    rw [hflags, mov4_eq, flags_mov4Round, flags_mov4State_succ d src hidle, carry_mov4State d src hidle]
    rfl

/-- Settles O42: the limbs of an immediate do not depend on memory: the byte, then zeros. -/
theorem mov4Immediate : Obligations.Mov4Immediate := by
  intro d v s hs
  obtain ⟨t, m, ht, hadv, -, hm, hcell, hlimbs, -, haddrs, hrop, hflags, hdev, hframe⟩ :=
    exec_mov4 (i := .mov4MI d v) (src := .imm v) hs rfl
  simp only [List.forall_mem_cons] at hlimbs haddrs
  obtain ⟨hac, hbr, hmdr, -⟩ := hlimbs
  obtain ⟨hdar, hmar, hres, -⟩ := haddrs
  have hstored : ∀ j < 4, t.cell (d + BitVec.ofNat 8 j) = if j = 0 then v else 0 := fun j hj => by
    rw [hcell, stores_here hm hj (by decide)]
    rfl
  refine ⟨t, ht, hadv, by simpa using hstored 0 (by decide), hstored 1 (by decide), hstored 2 (by decide),
    hstored 3 (by decide), ?_, hac, hbr, hmdr, hdar, hmar, hres, hrop, hflags, hdev, hframe⟩
  simp [cell4_of_cells hstored, limbsValue]

/-- Settles O43: the rounds of MOV4 with a memory source. -/
theorem mov4MemoryLimbByLimb : Obligations.Mov4MemoryLimbByLimb := by
  intro d a s hs
  obtain ⟨t, m, ht, hadv, hm0, hm, hcell, hlimbs, hsar, haddrs, hrop, hflags, hdev, hframe⟩ :=
    exec_mov4 (i := .mov4MM d a) (src := .mem a) hs rfl
  simp only [List.forall_mem_cons] at hlimbs haddrs
  obtain ⟨hac, hbr, hmdr, -⟩ := hlimbs
  obtain ⟨hdar, hmar, hres, -⟩ := haddrs
  exact ⟨t, m, ht, hadv, hm0, fun j _ => hm j, hcell, hac, hbr, hmdr, hsar, hdar, hmar, hres, hrop, hflags, hdev,
    hframe⟩

/-- Settles O44: outside the upward overlaps every limb is read as at first; with the destination one above, each round
reads what the round before stored. -/
theorem mov4MovesThe32BitValue : Obligations.Mov4MovesThe32BitValue := by
  intro d a s t hs hexec
  obtain ⟨u, m, hu, -, hm0, hm, hcell, -⟩ := exec_mov4 (i := .mov4MM d a) (src := .mem a) hs rfl
  obtain rfl := Host.Outcome.next.inj (hexec.symm.trans hu)
  have hstored : ∀ j < 4, t.cell (d + BitVec.ofNat 8 j) = limbIn (m j) (.mem a) j := fun j hj => by
    rw [hcell, stores_here hm hj (by decide)]
  refine ⟨fun h1 h2 h3 => ?whole, fun hd => ?smeared⟩
  case whole =>
    have hsource : ∀ j < 4, t.cell (d + BitVec.ofNat 8 j) = limbIn s.cell (.mem a) j := fun j hj => by
      rw [hstored j hj, limbIn_stores hm (src := .mem a) ⟨h1, h2, h3⟩ hj, hm0]
    exact (cell4_of_cells hsource).trans (sourceValue_eq s (.mem a)).symm
  case smeared =>
    have hnext : ∀ j, a + BitVec.ofNat 8 (j + 1) = d + BitVec.ofNat 8 j := fun j => by
      rw [hd, ← add_ofNat_succ, add_right_comm]
      rfl
    have hlimb : ∀ j < 4, limbIn (m j) (.mem a) j = s.cell a := fun j hj => by
      induction j with
      | zero => simp [limbIn, hm0]
      | succ j ih =>
        rw [← ih (Nat.lt_of_succ_lt hj), limbIn, hnext]
        exact stores_here hm (Nat.lt_succ_self j) (hj.le.trans (by decide))
    intro b hb
    obtain ⟨j, hj, rfl⟩ := (mem_fourCells_iff b d).1 hb
    rw [hstored j hj, hlimb j hj]

end Sys2Proof.Machine
end

section
/-! PROOFS. ADD in its four forms, limb by limb, and as 32-bit addition (43_arith.md R142, R143). -/

namespace Sys2Proof.Machine

/-! ## The rounds of ADD -/

/-- The state before a round of ADD, and after the last one (43_arith.md R142). -/
def addState (d : Byte) (left right : LimbSource) (s : State) : Nat → State
  | 0 => clearC (openSource right .tar (openSource left .sar (setReg .dar d s)))
  | i + 1 => addRound left right i (addState d left right s i)

theorem add4_eq (d : Byte) (left right : LimbSource) (s : State) : add4 d left right s = addState d left right s 4 :=
  rfl

/-- The carry a round of ADD starts with, and the one the last round leaves (43_arith.md R143). -/
def addCarry (d : Byte) (left right : LimbSource) (s : State) (i : Nat) : Nat :=
  (addState d left right s i).flags.c.toNat

/-- The untruncated sum of a round: both limbs as memory then is, and the carry of the round before (43_arith.md R143).
-/
def rawSum (d : Byte) (left right : LimbSource) (s : State) (i : Nat) : Nat :=
  (limbIn (addState d left right s i).cell left i).toNat + (limbIn (addState d left right s i).cell right i).toNat +
    addCarry d left right s i

theorem cell_addState_zero (d : Byte) (left right : LimbSource) (s : State) (b : Byte) :
    (addState d left right s 0).cell b = s.cell b := by
  simp [addState]

section
variable (d : Byte) (left right : LimbSource) {s : State}

theorem busIdle_addState (h : s.busIdle = true) : ∀ i, (addState d left right s i).busIdle = true
  | 0 => by simpa [addState] using h
  | i + 1 => busIdle_addRound (busIdle_addState h i) left right i

theorem wf_addState (h : Memory.wf s.mem = true) : ∀ i, Memory.wf (addState d left right s i).mem = true
  | 0 => by simpa [addState] using h
  | i + 1 => wf_addRound (wf_addState h i) left right i

variable (h : s.busIdle = true)
include h

/-- Behind a round: the registers of its steps, and those of its limb they do not write. -/
theorem val_addState_succ (i : Nat) (q : RegName) :
    (addState d left right s (i + 1)).val q =
      if q = .dar ∨ q = .res then (addState d left right s i).val .dar + 1
      else if q = .rop then (addState d left right s i).val .dar
      else if q = .sar then stepped left ((addState d left right s i).val .sar)
      else if q = .tar then stepped right ((addState d left right s i).val .tar)
      else (addLimb left right i (addState d left right s i)).val q := by
  have hidle := busIdle_addState d left right h i
  simp [addState, addRound, val_addStep (busIdle_addLimb hidle left right i), val_addLimb hidle]

theorem addresses_addState : ∀ i, (addState d left right s i).val .dar = d + BitVec.ofNat 8 i ∧
    (addState d left right s i).val .sar = sourceAddress (s.val .sar) left i ∧
    (addState d left right s i).val .tar = sourceAddress (s.val .tar) right i
  | 0 => by simp [addState, val_openSource]
  | i + 1 => by
    obtain ⟨hdar, hsar, htar⟩ := addresses_addState i
    simp [val_addState_succ d left right h, hdar, hsar, htar, add_ofNat_succ, stepped_sourceAddress]

theorem limbAt_addState (i : Nat) :
    limbAt left .sar i (addState d left right s i) = limbIn (addState d left right s i).cell left i ∧
      limbAt right .tar i (addState d left right s i) = limbIn (addState d left right s i).cell right i := by
  obtain ⟨-, hsar, htar⟩ := addresses_addState d left right h i
  exact ⟨limbAt_eq hsar, limbAt_eq htar⟩

/-- What the ALU computes in a round is the round's sum. -/
theorem aluResult_addState (i : Nat) :
    aluResult .add (limbAt left .sar i (addState d left right s i)) (limbAt right .tar i (addState d left right s i))
      (addState d left right s i).flags.c = BitVec.ofNat 8 (rawSum d left right s i) := by
  obtain ⟨hleft, hright⟩ := limbAt_addState d left right h i
  rw [hleft, hright]
  rfl

/-- A round stores its sum at the destination's address. -/
theorem cell_addState_succ (hm : Memory.wf s.mem = true) (i : Nat) :
    (addState d left right s (i + 1)).cell =
      Function.update (addState d left right s i).cell (d + BitVec.ofNat 8 i)
        (BitVec.ofNat 8 (rawSum d left right s i)) := by
  funext b
  rw [addState, addRound, cell_addStep, cell_addLimb (busIdle_addState d left right h i)
    (wf_addState d left right hm i), aluResult_addState d left right h, (addresses_addState d left right h i).1,
    Function.update_apply]

/-- A round leaves the carry of its sum, and N, Z, V of the destination's step. -/
theorem flags_addState_succ (i : Nat) :
    (addState d left right s (i + 1)).flags =
      stepFlags (d + BitVec.ofNat 8 i) (decide (256 ≤ rawSum d left right s i)) := by
  have hidle := busIdle_addState d left right h i
  have hdar : (addLimb left right i (addState d left right s i)).val .dar = d + BitVec.ofNat 8 i := by
    simp [val_addLimb hidle, (addresses_addState d left right h i).1]
  obtain ⟨hleft, hright⟩ := limbAt_addState d left right h i
  rw [addState, addRound, flags_addStep (busIdle_addLimb hidle left right i), hdar, flags_addLimb hidle, aluFlags_add,
    hleft, hright]
  rfl

theorem addCarry_succ (i : Nat) :
    addCarry d left right s (i + 1) = if 256 ≤ rawSum d left right s i then 1 else 0 := by
  rw [addCarry, flags_addState_succ d left right h, stepFlags_c]
  by_cases hc : 256 ≤ rawSum d left right s i <;> simp [hc]

end

/-- The registers any form of ADD writes are among those of the form with two memory sources. -/
theorem writtenRegs_addInstr (d : Byte) (left right : LimbSource) :
    writtenRegs (addInstr d left right) ⊆ [.sar, .tar, .dar, .res, .rop, .mar, .mdr, .lop] := by
  cases left <;> cases right <;> simp [addInstr, writtenRegs]

theorem exec_addInstr (d : Byte) (left right : LimbSource) (s : State) :
    exec (addInstr d left right) s = complete .advance (add4 d left right s) := by
  cases left <;> cases right <;> rfl

theorem steppedFour_eq (old : Byte) (src : LimbSource) : steppedFour old src = sourceAddress old src 4 := by
  cases src <;> rfl

/-- ADD leaves what its last round leaves, and advances. -/
theorem exec_add4 (d : Byte) (left right : LimbSource) {s : State} (hs : s.wf = true) :
    ∃ t, exec (addInstr d left right) s = .next t ∧ Advanced s t ∧
      (∀ r, t.val r = (addState d left right s 4).val r) ∧ t.cell = (addState d left right s 4).cell ∧
      t.flags = (addState d left right s 4).flags ∧ SameDevices s t ∧
      Frame [.sar, .tar, .dar, .res, .rop, .mar, .mdr, .lop] (fourCells d) s t := by
  have hm := cell_addState_succ d left right (busIdle_of_wf hs) (memWf_of_wf hs)
  obtain ⟨t, ht, hadv, hval, hcell, hflags, hcur, hlog, hframe⟩ := exec_advance_listed (cells := fourCells d) hs
    (exec_addInstr d left right s) (.ofAdd4 d left right s) fun a ha => by
      rw [add4_eq, stores_four_elsewhere (m := fun j => (addState d left right s j).cell) hm ha, cell_addState_zero]
  exact ⟨t, ht, hadv, hval, hcell, hflags, ⟨by simp [hcur], by simp [hlog]⟩,
    hframe.mono (writtenRegs_addInstr d left right)⟩

/-- Settles O46: the states before the rounds give the memories and the carries; the last round gives the registers. -/
theorem addLimbByLimb : Obligations.AddLimbByLimb := by
  intro d left right s hs
  have hidle := busIdle_of_wf hs
  have hm := cell_addState_succ d left right hidle (memWf_of_wf hs)
  obtain ⟨hdar3, -⟩ := addresses_addState d left right hidle 3
  obtain ⟨hdar4, hsar4, htar4⟩ := addresses_addState d left right hidle 4
  have hlast := val_addState_succ d left right hidle 3
  have hlimb := val_addLimb (busIdle_addState d left right hidle 3) left right 3
  have hsum := aluResult_addState d left right hidle 3
  obtain ⟨t, ht, hadv, hval, hcell, hflags, hdev, hframe⟩ := exec_add4 d left right hs
  have hmdr : t.cell (d + 3) = BitVec.ofNat 8 (rawSum d left right s 3) := by
    rw [hcell, hm 3]
    exact Function.update_self ..
  refine ⟨t, fun j => (addState d left right s j).cell, addCarry d left right s, ht, hadv,
    funext (cell_addState_zero d left right s), by simp [addCarry, addState],
    fun i _ => ⟨rawSum d left right s i, rfl, hm i, addCarry_succ d left right hidle i⟩, hcell, ?flags, ?sar, ?tar,
    ?dar, ?res, ?rop, ?mar, ?mdr, ?lop, hdev, hframe⟩
  case flags =>
    rw [hflags, flags_addState_succ d left right hidle 3, addCarry_succ d left right hidle 3]
    by_cases hc : 256 ≤ rawSum d left right s 3 <;> simp [hc]
  case sar => rw [hval, hsar4, steppedFour_eq]
  case tar => rw [hval, htar4, steppedFour_eq]
  case dar => exact (hval .dar).trans hdar4
  case res => simp [hval, hlast, hdar3, add_ofNat_succ d 3]
  case rop => simp [hval, hlast, hdar3]
  case mar => simp [hval, hlast, hlimb, hdar3]
  case mdr => rw [hmdr, hval, hlast]; simp [hlimb, hsum]
  case lop => simp [hval, hlast, hlimb, (limbAt_addState d left right hidle 3).1]

/-! ## 32-bit addition -/

/-- Four limbs added with their carries make the sum of the values (43_arith.md R143). -/
theorem limbs_sum {l r raw : Nat → Nat} {c : Nat → Nat} (hl : ∀ i < 4, l i < 256) (hr : ∀ i < 4, r i < 256)
    (h0 : c 0 = 0) (hraw : ∀ i < 4, raw i = l i + r i + c i) (hc : ∀ i < 4, c (i + 1) = if 256 ≤ raw i then 1 else 0) :
    (limbsValue fun i => raw i % 256) = (limbsValue l + limbsValue r) % 2 ^ 32 ∧
      (c 4 = 1 ↔ 2 ^ 32 ≤ limbsValue l + limbsValue r) := by
  have hround : ∀ i < 4, raw i = raw i % 256 + 256 * c (i + 1) := fun i hi => by
    have hle : c i ≤ 1 := by
      cases i with
      | zero => omega
      | succ j => rw [hc j (Nat.lt_of_succ_lt hi)]; split <;> omega
    have := hl i hi
    have := hr i hi
    have := hraw i hi
    rw [hc i hi]
    split <;> omega
  have hc4 : c 4 ≤ 1 := by rw [hc 3 (by decide)]; split <;> omega
  have h1 : raw 0 = raw 0 % 256 + 256 * c 1 := hround 0 (by decide)
  have h2 : raw 1 = raw 1 % 256 + 256 * c 2 := hround 1 (by decide)
  have h3 : raw 2 = raw 2 % 256 + 256 * c 3 := hround 2 (by decide)
  have h4 : raw 3 = raw 3 % 256 + 256 * c 4 := hround 3 (by decide)
  have hraw0 := hraw 0 (by decide)
  have hraw1 := hraw 1 (by decide)
  have hraw2 := hraw 2 (by decide)
  have hraw3 := hraw 3 (by decide)
  simp only [limbsValue]
  omega

/-- Settles O47: with no feedback the limbs are those of the values at first, and their sums make the 32-bit sum. -/
theorem addIs32BitAddition : Obligations.AddIs32BitAddition := by
  intro d left right s hs hleft hright
  have hidle := busIdle_of_wf hs
  have hm := cell_addState_succ d left right hidle (memWf_of_wf hs)
  have hzero : (addState d left right s 0).cell = s.cell := funext (cell_addState_zero d left right s)
  have hraw : ∀ i < 4, rawSum d left right s i =
      (limbIn s.cell left i).toNat + (limbIn s.cell right i).toNat + addCarry d left right s i := fun i hi => by
    rw [rawSum, limbIn_stores (m := fun j => (addState d left right s j).cell) hm hleft hi,
      limbIn_stores (m := fun j => (addState d left right s j).cell) hm hright hi, hzero]
  obtain ⟨hvalue, hcarry⟩ := limbs_sum (fun i _ => (limbIn s.cell left i).isLt)
    (fun i _ => (limbIn s.cell right i).isLt) (by simp [addCarry, addState]) hraw
    fun i _ => addCarry_succ d left right hidle i
  obtain ⟨t, ht, -, -, hcell, hflags, -⟩ := exec_add4 d left right hs
  have hstored : ∀ j < 4, t.cell (d + BitVec.ofNat 8 j) = BitVec.ofNat 8 (rawSum d left right s j) := fun j hj => by
    rw [hcell, stores_here (m := fun j => (addState d left right s j).cell) hm hj (by decide)]
  refine ⟨t, ht, ?_, ?_⟩
  · rw [cell4_of_cells hstored, sourceValue_eq, sourceValue_eq, ← hvalue]
    simp only [BitVec.toNat_ofNat]
  · rw [sourceValue_eq, sourceValue_eq, ← hcarry, hflags, addCarry]
    cases (addState d left right s 4).flags.c <;> decide

end Sys2Proof.Machine
end

section
/-! PROOFS. SUB of one limb, CMP in both forms, and JAE behind CMP (43_arith.md R145 to R149; 70_reset_and_hazards.md
R214). -/

namespace Sys2Proof.Machine

/-! ## SUB -/

/-- What SUB's micro-sequence leaves in each register (43_arith.md R145). -/
theorem val_sub1 {s : State} (h : s.busIdle = true) (d v r : Byte) (q : RegName) :
    (sub1 d v r s).val q =
      if q = .res ∨ q = .mdr then v - s.cell r else if q = .dar ∨ q = .mar then d else if q = .tar then r
      else if q = .lop then v else if q = .rop then s.cell r else s.val q := by
  cases q <;> simp [sub1, h, aluResult_sub]

theorem cell_sub1 {s : State} (h : s.busIdle = true) (hm : Memory.wf s.mem = true) (d v r b : Byte) :
    (sub1 d v r s).cell b = if b = d then v - s.cell r else s.cell b := by
  simp [sub1, h, hm, aluResult_sub]

theorem flags_sub1 {s : State} (h : s.busIdle = true) (d v r : Byte) :
    (sub1 d v r s).flags = subFlags v (s.cell r) := by
  simp [sub1, h, aluFlags_sub]

/-- The one mode byte of three operands that SUB takes has no field to spare (43_arith.md R145). -/
theorem encodedAs_sub (d v r : Byte) : EncodedAs [0x06, 0b01100100, d, v, r] (.subMIM d v r) :=
  encodedAs_of_modeFields (i := .subMIM d v r) (ignored := []) rfl rfl (Laws.Form.subMIM d v r)

/-- Settles O48: the subtrahend is loaded before the destination is stored to. -/
theorem subOneLimb : Obligations.SubOneLimb := by
  refine ⟨encodedAs_sub, fun d v r s hs => ?effect, rejectsOthers_of_forms (m := .SUB) fun i hm hwf => ?forms⟩
  case effect =>
    have hidle := busIdle_of_wf hs
    have hmem := memWf_of_wf hs
    obtain ⟨t, ht, hadv, hval, hcell, hflags, hcur, hlog, hframe⟩ := exec_advance_listed (i := .subMIM d v r)
      (cells := [d]) hs rfl (.ofSub1 d v r s) fun a ha => by simp [cell_sub1 hidle hmem, List.mem_singleton.not.1 ha]
    have hstored : t.cell d = v - s.cell r := by simp [hcell, cell_sub1 hidle hmem]
    refine ⟨t, ht, hadv, by rw [hstored, toNat_sub_int], ?_, ?_, ?_, ?_, ?_, ?_, ?_, ?_, ⟨?_, ?_⟩,
      hframe.mono (by simp [writtenRegs])⟩
    all_goals simp [hval, val_sub1 hidle, hstored, hflags, flags_sub1 hidle, hcur, hlog]
  case forms =>
    cases i with
    | subMIM d v r => exact ⟨d, v, r, rfl⟩
    | _ => cases hm

/-! ## CMP of memory -/

/-- What the compare of one pair of limbs leaves in each register (43_arith.md R147). -/
theorem val_cmpLimb {s : State} (h : s.busIdle = true) (q : RegName) :
    (cmpLimb s).val q =
      if q = .res then s.cell (s.val .sar) - s.cell (s.val .tar) else if q = .lop then s.cell (s.val .sar)
      else if q = .rop ∨ q = .mdr then s.cell (s.val .tar) else if q = .mar then s.val .tar else s.val q := by
  cases q <;> simp [cmpLimb, h, aluResult_sub]

theorem flags_cmpLimb {s : State} (h : s.busIdle = true) :
    (cmpLimb s).flags = subFlags (s.cell (s.val .sar)) (s.cell (s.val .tar)) := by
  simp [cmpLimb, h, aluFlags_sub]

theorem addresses_cmpStep {s : State} (h : s.busIdle = true) :
    (cmpStep s).val .sar = s.val .sar - 1 ∧ (cmpStep s).val .tar = s.val .tar - 1 := by
  simp [cmpStep, h]

theorem val_stepAddress3 {s : State} (h : s.busIdle = true) (ar : RegName) {q : RegName} (hq : q ≠ .res)
    (hq' : q ≠ .rop) : (stepAddress3 ar s).val q = if q = ar then s.val ar + 3 else s.val q := by
  have h1 := busIdle_stepAddress h .incr ar
  have h2 := busIdle_stepAddress h1 .incr ar
  rw [stepAddress3, val_stepAddress_incr h2, val_stepAddress_incr h1, val_stepAddress_incr h]
  by_cases har : q = ar
  · simp [har, BitVec.add_assoc]
  · simp [val_stepAddress_incr h1, val_stepAddress_incr h, har, hq, hq']

/-- The compare ended at limb `j`: flags and registers are those of the subtraction there (43_arith.md R147). -/
structure DecidedAt (l r : Byte) (s v : State) (j : Nat) : Prop where
  flags : v.flags = subFlags (s.cell (l + BitVec.ofNat 8 j)) (s.cell (r + BitVec.ofNat 8 j))
  sar : v.val .sar = l + BitVec.ofNat 8 j
  tar : v.val .tar = r + BitVec.ofNat 8 j
  mar : v.val .mar = r + BitVec.ofNat 8 j
  lop : v.val .lop = s.cell (l + BitVec.ofNat 8 j)
  rop : v.val .rop = s.cell (r + BitVec.ofNat 8 j)
  mdr : v.val .mdr = s.cell (r + BitVec.ofNat 8 j)
  res : v.val .res = s.cell (l + BitVec.ofNat 8 j) - s.cell (r + BitVec.ofNat 8 j)

/-- Where the compare ended is a matter of the cells it read. -/
theorem DecidedAt.of_cell_eq {l r : Byte} {s s' v : State} {j : Nat} (h : DecidedAt l r s' v j)
    (hcell : s'.cell = s.cell) : DecidedAt l r s v j := by
  obtain ⟨hflags, hsar, htar, hmar, hlop, hrop, hmdr, hres⟩ := h
  rw [hcell] at hflags hlop hrop hmdr hres
  exact ⟨hflags, hsar, htar, hmar, hlop, hrop, hmdr, hres⟩

theorem decidedAt_cmpLimb {l r : Byte} {s : State} {j : Nat} (h : s.busIdle = true)
    (hsar : s.val .sar = l + BitVec.ofNat 8 j) (htar : s.val .tar = r + BitVec.ofNat 8 j) :
    DecidedAt l r s (cmpLimb s) j := by
  constructor <;> simp [val_cmpLimb h, flags_cmpLimb h, hsar, htar]

/-- The compare from limb `i` down ends at the highest limb that differs, or at limb 0 (43_arith.md R147). -/
theorem cmpFrom_decides (l r : Byte) : ∀ (i : Nat) (s : State), s.busIdle = true →
    s.val .sar = l + BitVec.ofNat 8 i → s.val .tar = r + BitVec.ofNat 8 i →
    ∃ j ≤ i, (∀ k, j < k → k ≤ i → s.cell (l + BitVec.ofNat 8 k) = s.cell (r + BitVec.ofNat 8 k)) ∧
      (s.cell (l + BitVec.ofNat 8 j) ≠ s.cell (r + BitVec.ofNat 8 j) ∨ j = 0) ∧ DecidedAt l r s (cmpFrom i s) j
  | 0, s, h, hsar, htar =>
    ⟨0, Nat.le_refl 0, fun k hlt hle => absurd hlt (Nat.not_lt.2 hle), .inr rfl, decidedAt_cmpLimb h hsar htar⟩
  | i + 1, s, h, hsar, htar => by
    have hhere := decidedAt_cmpLimb h hsar htar
    have hz : (cmpLimb s).flags.z =
        decide (s.cell (l + BitVec.ofNat 8 (i + 1)) = s.cell (r + BitVec.ofNat 8 (i + 1))) := by
      rw [hhere.flags]
      rfl
    rw [cmpFrom]
    split
    case isTrue heq =>
      have hequal := of_decide_eq_true (hz.symm.trans heq)
      have hlimb := busIdle_cmpLimb h
      obtain ⟨hsar', htar'⟩ := addresses_cmpStep hlimb
      have hdown : ∀ a : Byte, a + BitVec.ofNat 8 (i + 1) - 1 = a + BitVec.ofNat 8 i := fun a =>
        sub_eq_of_eq_add (add_ofNat_succ a i).symm
      have hcell : (cmpStep (cmpLimb s)).cell = s.cell := funext fun a => by simp [State.cell]
      obtain ⟨j, hj, habove, hdiffers, hdecided⟩ := cmpFrom_decides l r i (cmpStep (cmpLimb s)) (busIdle_cmpStep hlimb)
        (by rw [hsar', hhere.sar, hdown]) (by rw [htar', hhere.tar, hdown])
      rw [hcell] at habove hdiffers
      refine ⟨j, Nat.le_succ_of_le hj, fun k hlt hle => ?_, hdiffers, hdecided.of_cell_eq hcell⟩
      obtain rfl | hlt' := Nat.eq_or_lt_of_le hle
      · exact hequal
      · exact habove k hlt (Nat.le_of_lt_succ hlt')
    case isFalse hne =>
      have hdiffers := of_decide_eq_false (hz.symm.trans (Bool.eq_false_iff.2 hne))
      exact ⟨i + 1, Nat.le_refl _, fun k hlt hle => absurd hlt (Nat.not_lt.2 hle), .inl hdiffers, hhere⟩

/-- The compare of two values: as from limb 3 down, on the memory it started with. -/
theorem cmp4_decides {s : State} (h : s.busIdle = true) (l r : Byte) :
    ∃ j ≤ 3, (∀ k, j < k → k ≤ 3 → s.cell (l + BitVec.ofNat 8 k) = s.cell (r + BitVec.ofNat 8 k)) ∧
      (s.cell (l + BitVec.ofNat 8 j) ≠ s.cell (r + BitVec.ofNat 8 j) ∨ j = 0) ∧ DecidedAt l r s (cmp4 l r s) j := by
  have hset : (setReg .tar r (setReg .sar l s)).busIdle = true := by simpa using h
  have hsar := busIdle_stepAddress3 hset .sar
  have hcell : (stepAddress3 .tar (stepAddress3 .sar (setReg .tar r (setReg .sar l s)))).cell = s.cell := by
    funext a
    simp [stepAddress3]
  obtain ⟨j, hj, habove, hdiffers, hdecided⟩ := cmpFrom_decides l r 3 _ (busIdle_stepAddress3 hsar .tar)
    (by simp [val_stepAddress3 hsar, val_stepAddress3 hset]) (by simp [val_stepAddress3 hsar, val_stepAddress3 hset])
  rw [hcell] at habove hdiffers
  exact ⟨j, hj, habove, hdiffers, hdecided.of_cell_eq hcell⟩

/-- Two 32-bit values are equal exactly when their limbs are (20_memory.md R46). -/
theorem cell4_eq_iff (s : State) (l r : Byte) :
    s.cell4 l = s.cell4 r ↔ ∀ i < 4, s.cell (l + BitVec.ofNat 8 i) = s.cell (r + BitVec.ofNat 8 i) := by
  have hl := cell4_of_cells (s := s) (a := l) (w := fun i => s.cell (l + BitVec.ofNat 8 i)) fun _ _ => rfl
  have hr := cell4_of_cells (s := s) (a := r) (w := fun i => s.cell (r + BitVec.ofNat 8 i)) fun _ _ => rfl
  rw [hl, hr]
  simp only [limbsValue]
  constructor
  · intro h i hi
    have hlt := fun (a : Byte) i => (s.cell (a + BitVec.ofNat 8 i)).isLt
    have h0 := hlt l 0
    have h1 := hlt l 1
    have h2 := hlt l 2
    have h3 := hlt l 3
    have k0 := hlt r 0
    have k1 := hlt r 1
    have k2 := hlt r 2
    have k3 := hlt r 3
    apply BitVec.eq_of_toNat_eq
    interval_cases i <;> omega
  · intro h
    rw [h 0 (by decide), h 1 (by decide), h 2 (by decide), h 3 (by decide)]

/-- Settles O49: the deciding limb, and the values are equal exactly when it is limb 0 and its bytes are equal. -/
theorem cmpMemory : Obligations.CmpMemory := by
  intro l r s hs
  obtain ⟨j, hj, habove, hdiffers, hdecided⟩ := cmp4_decides (busIdle_of_wf hs) l r
  obtain ⟨t, ht, hadv, hval, -, hflags, hcur, hlog, hframe⟩ := exec_advance_listed (i := .cmpMM l r) (cells := [])
    hs rfl (.ofCmp4 l r s) fun a _ => cell_cmp4 l r s a
  have htflags := hflags.trans hdecided.flags
  refine ⟨t, j, _, _, ht, hadv, hj, habove, rfl, rfl, hdiffers, htflags, ?equal, (hval _).trans hdecided.sar,
    (hval _).trans hdecided.tar, (hval _).trans hdecided.mar, (hval _).trans hdecided.lop, (hval _).trans hdecided.rop,
    (hval _).trans hdecided.mdr, (hval _).trans hdecided.res, ⟨by simp [hcur], by simp [hlog]⟩,
    hframe.mono (by simp [writtenRegs])⟩
  rw [htflags, cell4_eq_iff]
  constructor
  · intro hz i hi
    have hequal : s.cell (l + BitVec.ofNat 8 j) = s.cell (r + BitVec.ofNat 8 j) := of_decide_eq_true hz
    obtain rfl : j = 0 := hdiffers.resolve_left fun hne => hne hequal
    obtain rfl | hpos := Nat.eq_zero_or_pos i
    · exact hequal
    · exact habove i hpos (Nat.le_of_lt_succ hi)
  · exact fun h => decide_eq_true (h j (Nat.lt_succ_of_le hj))

/-! ## CMP of a register, and JAE behind it -/

/-- Settles O50: the micro-sequence of the register form; an operand list of neither form is rejected. -/
theorem cmpRegister : Obligations.CmpRegister := by
  refine ⟨fun k v x => encodedAs_of_modeFields rfl (modeFields_regImm x) (Laws.Form.cmpRI k v),
    fun k v r s hs hk => ?effect, rejectsOthers_of_forms (m := .CMP) fun i hm hwf => ?forms⟩
  case effect =>
    have hidle := busIdle_of_wf hs
    have hexec : exec (.cmpRI k v) s = complete .advance (alu .sub (setReg .rop v (move r .lop s))) := by
      simp [exec, execCmpRI, hk]
    obtain ⟨t, ht, hadv, hval, -, hflags, hcur, hlog, hframe⟩ := exec_advance_listed (cells := []) hs hexec
      (.ofCompare r v s) fun a _ => by simp
    have hres : t.val .res = s.val r - v := by simp [hval, hidle, aluResult_sub]
    refine ⟨t, ht, hadv, ?_, ?_, by rw [hres, toNat_sub_int], ?_, ⟨?_, ?_⟩, hframe⟩
    all_goals simp [hval, hflags, hcur, hlog, hidle, aluFlags_sub]
  case forms =>
    cases i with
    | cmpMM l r => exact .inl ⟨l, r, rfl⟩
    | cmpRI k v => exact .inr ⟨k, v, regOperand_lt_of_wf hwf List.mem_cons_self, rfl⟩
    | _ => cases hm

/-- Settles O51: JAE tests bit 7 of the difference, which is its sign while it fits a signed byte. -/
theorem jaeAfterCmp : Obligations.JaeAfterCmp := by
  intro k v target r s hs hk
  obtain ⟨t, ht, -, -, -, -, hflags, -⟩ := cmpRegister.2.1 k v r s hs hk
  obtain ⟨-, -, u, hu, -, hjump, hadvance⟩ := (conditionalJumps target 0).2.2.2 t
  have hn : t.flags.n = decide (128 ≤ (s.val r - v).toNat) := by rw [hflags]; rfl
  have hlt : s.val r - v < 128 ↔ t.flags.n = false := by
    rw [hn, decide_eq_false_iff_not, Nat.not_le]
    rfl
  have hge : 128 ≤ s.val r - v ↔ t.flags.n = true := by
    rw [hn, decide_eq_true_iff]
    rfl
  refine ⟨t, u, ht, hu, fun h => hjump (hlt.1 h), fun h => hadvance (hge.1 h), fun h => ?_, fun h => ?_⟩
  all_goals
    rw [Set.mem_Icc] at h
    bv_omega

end Sys2Proof.Machine
end

section
/-! PROOFS. Which cells an instruction stores to (20_memory.md R48, R55). -/

namespace Sys2Proof.Machine

/-- A micro-program that never writes memory. -/
def storesNothing (p : List Micro) : Bool :=
  p.all fun
    | .memWrite => false
    | _ => true

theorem mem_runMicros {p : List Micro} (hp : storesNothing p = true) (s : State) : (runMicros p s).mem = s.mem := by
  refine runMicros_induct (P := fun t => t.mem = s.mem) (fun m hm t ht => ?_) rfl
  have hstore := List.all_eq_true.1 hp m hm
  cases m with
  | memWrite => cases hstore
  | hook q => cases q <;> simpa [Micro.apply, hook] using ht
  | _ => simpa [Micro.apply] using ht

/-- An instruction without a store in its micro-program keeps every cell. -/
theorem cell_of_storesNothing {i : Instr} {s t : State} (hp : ∀ p, microsOf i = some p → storesNothing p = true)
    (h : exec i s = .next t) (a : Byte) : t.cell a = s.cell a := by
  have hmem : t.mem = s.mem := exec_induct (P := fun t => t.mem = s.mem) h (fun p hi => mem_runMicros (hp p hi) s)
    (fun _ => rfl) fun x u hu => by simpa using hu
  rw [State.cell, hmem, State.cell]

section
variable {s t : State} {d a : Byte} (hs : s.wf = true)
include hs

/-! The instructions that store keep the cells outside the frame that their laws give. -/

theorem cell_of_movToCell {src : Byte} {i : Instr}
    (hi : i = .movMI d src ∨ i = .movII d src ∨ i = .movMM d src ∨ i = .movIM d src) (h : exec i s = .next t)
    (ha : a ∉ [d]) : t.cell a = s.cell a := by
  obtain ⟨v, hv⟩ : ∃ v, (i = .movMI d src ∧ v = src) ∨ (i = .movII d src ∧ v = src) ∨
      (i = .movMM d src ∧ v = s.cell src) ∨ (i = .movIM d src ∧ v = s.cell src) := by
    rcases hi with rfl | rfl | rfl | rfl <;> simp
  obtain ⟨u, hu, -, -, -, -, -, -, -, -, hframe⟩ := movToMemory d src v i s hs hv
  obtain rfl := Host.Outcome.next.inj (h.symm.trans hu)
  exact hframe.memory a ha

theorem cell_of_mov4 {i : Instr} (src : LimbSource) (hexec : exec i s = complete .advance (mov4 d src s))
    (h : exec i s = .next t) (ha : a ∉ fourCells d) : t.cell a = s.cell a := by
  obtain ⟨u, -, hu, -, -, -, -, -, -, -, -, -, -, hframe⟩ := exec_mov4 hs hexec
  obtain rfl := Host.Outcome.next.inj (h.symm.trans hu)
  exact hframe.memory a ha

theorem cell_of_addInstr (left right : LimbSource) (h : exec (addInstr d left right) s = .next t)
    (ha : a ∉ fourCells d) : t.cell a = s.cell a := by
  obtain ⟨u, hu, -, -, -, -, -, hframe⟩ := exec_add4 d left right hs
  obtain rfl := Host.Outcome.next.inj (h.symm.trans hu)
  exact hframe.memory a ha

theorem cell_of_sub {v r : Byte} (h : exec (.subMIM d v r) s = .next t) (ha : a ∉ [d]) : t.cell a = s.cell a := by
  obtain ⟨u, hu, -, -, -, -, -, -, -, -, -, -, -, hframe⟩ := subOneLimb.2.1 d v r s hs
  obtain rfl := Host.Outcome.next.inj (h.symm.trans hu)
  exact hframe.memory a ha

theorem cell_of_st {b k : Byte} (h : exec (.stRR b k) s = .next t) (ha : a ∉ (named b).map s.val) :
    t.cell a = s.cell a := by
  cases hp : microsOf (.stRR b k) with
  | none => exact cell_of_storesNothing (fun p hp' => by simp [hp] at hp') h a
  | some p =>
    obtain ⟨ra, hb, hp⟩ := Option.bind_eq_some_iff.1 hp
    obtain ⟨rt, hk, -⟩ := Option.map_eq_some_iff.1 hp
    obtain ⟨u, hu, -, -, -, -, -, -, hframe⟩ := stStoresToTheNamedCell.2.1 b k ra rt s hs hb hk
    obtain rfl := Host.Outcome.next.inj (h.symm.trans hu)
    exact hframe.memory a (by simpa [named_eq hb] using ha)

end

/-- Settles O22: the instructions that store by the frames of their laws, all others because their micro-programs have
no store. -/
theorem onlyStoredCellsChange : Obligations.OnlyStoredCellsChange := by
  intro i s t hs h a ha
  cases i with
  | movMI d b | movII d b | movMM d b | movIM d b => exact cell_of_movToCell hs (d := d) (src := b) (by simp) h ha
  | mov4MI d v => exact cell_of_mov4 hs (.imm v) rfl h ha
  | mov4MM d b => exact cell_of_mov4 hs (.mem b) rfl h ha
  | addMMM d l r => exact cell_of_addInstr hs (.mem l) (.mem r) h ha
  | addMMI d l r => exact cell_of_addInstr hs (.mem l) (.imm r) h ha
  | addMIM d l r => exact cell_of_addInstr hs (.imm l) (.mem r) h ha
  | addMII d l r => exact cell_of_addInstr hs (.imm l) (.imm r) h ha
  | subMIM d v r => exact cell_of_sub hs h ha
  | stRR b k => exact cell_of_st hs h ha
  | movRI k _ | movRM k _ | add1RI k _ | cmpRI k _ | shlRI k _ | shrRI k _ | incR k | decR k | inI k | outI k =>
    refine cell_of_storesNothing (fun p hp => ?_) h a
    obtain ⟨r, -, rfl⟩ := Option.map_eq_some_iff.1 hp
    rfl
  | ldRR b k =>
    refine cell_of_storesNothing (fun p hp => ?_) h a
    obtain ⟨ra, -, hp⟩ := Option.bind_eq_some_iff.1 hp
    obtain ⟨rt, -, rfl⟩ := Option.map_eq_some_iff.1 hp
    rfl
  | _ => exact cell_of_storesNothing (fun p hp => by cases hp; rfl) h a

end Sys2Proof.Machine
end
